-- ==== Sys2Proof/Word.lean ====
section
/-! DEFINITION. The word and byte types (R13: a word is 32 bits, bit 0 the least significant, all quantities unsigned)
and the one count derived from them. The bit-field and byte-order helpers stand in Decode.lean. -/

namespace Sys2Proof

/-- R13: a "word" is 32 bits. Register contents, RAM words and block addresses held in `MAP`. -/
abbrev Word := BitVec 32

/-- One byte of a payload or of the message RAM. -/
abbrev Byte := BitVec 8

/-- R14: `ceil4(n) = (n + 3) >> 2`, the number of words that hold `n` bytes. -/
def ceil4 (n : Nat) : Nat := (n + 3) / 4

end Sys2Proof
end

