-- ==== Sys2Proof/Config.lean ====
section
/-! DEFINITION. The implementation parameters `P` of R7, as one record of plain data, and the two example sets the spec
prints. The machine's state carries the record (notes/assumptions/1.md), so a statement about every state is a statement
about every parameter set; well-formedness (R8) is `Params.wf` in Machine/Regions.lean. -/

namespace Sys2Proof

/-- R7: the record `P`. `regAddr` lists `REG(inst, name)` instance by instance, twelve addresses each, in the order of
R36's table; `dlcToLen` is the table `DlcToLen`; `tPoll = none` is the baseline's unbounded wait (R168). -/
structure Params where
  ramBase : Nat
  nInst : Nat
  nSf : Nat
  esSf : Nat
  nXf : Nat
  esXf : Nat
  nRf0 : Nat
  esRf0 : Nat
  nRf1 : Nat
  esRf1 : Nat
  nTef : Nat
  esTef : Nat
  nTxq : Nat
  esTxq : Nat
  regAddr : List Nat
  gfLsb : Nat
  gfW : Nat
  tPoll : Option Nat
  dlcToLen : Vector Nat 16
  deriving DecidableEq, Repr

/-- R113: the CAN FD table, the spec's default value of the parameter `DlcToLen`. PRESUMED: the spec marks it general
knowledge (notes/assumptions/20.md). -/
def canFdLengths : Vector Nat 16 :=
  ⟨#[0, 1, 2, 3, 4, 5, 6, 7, 8, 12, 16, 20, 24, 32, 48, 64], rfl⟩

/-- PRESUMED (notes/assumptions/3.md): offsets of the twelve registers of R36, in its order, inside one STM32G4 FDCAN
register block. The spec gives no register address (N1, D6). -/
def g4RegOffsets : List Nat :=
  [0x018, 0x01C, 0x00C, 0x010, 0x0C0, 0x0C4, 0x0CC, 0x090, 0x098, 0x094, 0x09C, 0x080]

/-- R9: `PSET_G4`, with the default `DlcToLen`, no poll bound (95_test_vectors.md, Part 3) and the register addresses of
notes/assumptions/3.md. -/
def psetG4 : Params :=
  { ramBase := 0x4000A400, nInst := 3
    nSf := 28, esSf := 4, nXf := 8, esXf := 8, nRf0 := 3, esRf0 := 72, nRf1 := 3, esRf1 := 72
    nTef := 3, esTef := 8, nTxq := 3, esTxq := 72
    regAddr := g4RegOffsets.map (0x40006400 + ·) ++ g4RegOffsets.map (0x40006800 + ·)
      ++ g4RegOffsets.map (0x40006C00 + ·)
    gfLsb := 16, gfW := 5, tPoll := none, dlcToLen := canFdLengths }

/-- 95_test_vectors.md: the smaller set `PSET_S`, of the spec's own invention; register addresses as in `psetG4` for the
first two instances. -/
def psetS : Params :=
  { ramBase := 0x1000, nInst := 2
    nSf := 2, esSf := 4, nXf := 1, esXf := 8, nRf0 := 2, esRf0 := 72, nRf1 := 2, esRf1 := 72
    nTef := 1, esTef := 8, nTxq := 2, esTxq := 72
    regAddr := g4RegOffsets.map (0x40006400 + ·) ++ g4RegOffsets.map (0x40006800 + ·)
    gfLsb := 16, gfW := 5, tPoll := none, dlcToLen := canFdLengths }

end Sys2Proof
end

