-- ==== Sys2Proof/Syntax.lean ====
section
/-! DEFINITION. The syntax: one constructor of `Instr` per row of spec/opcode_table.json, in the table's order. Six rows
are the commands HOST issues (R4, R92); their operands come from the operand ports (R30). The other nineteen are the data
formats (R90): each constructor is one word of that format as it crosses the block's interface, with the fields of the
row's pattern and, where the pattern does not say it, the place the word goes to. -/

namespace Sys2Proof

/-- R104: the four fields of the bit-timing word, each "value - 1", highest field first. -/
structure Timing where
  sjw : BitVec 7
  presc : BitVec 9
  seg1 : BitVec 8
  seg2 : BitVec 8
  deriving DecidableEq, Repr

/-- R99, R102: where a payload word goes. `tx slot k`: payload word `k` of TX element `slot`. `rx k len`: payload word
`k` of a received frame of `len` bytes, on its way to `RXBUF`. -/
inductive PayPlace where
  | tx (slot : BitVec 2) (k : Nat)
  | rx (k len : Nat)
  deriving DecidableEq, Repr

/-- The rows of the opcode table. `f` is the FIFO selector `CMD[4]` (false: FIFO 0). -/
inductive Instr where
  /-- INIT, R155. -/
  | init
  /-- LAYOUT, R130. -/
  | layout
  /-- FILTSET idx, type, conf, id1, id2, R175. -/
  | filtset (fidx : Nat) (ftype : BitVec 2) (fcfg : BitVec 3) (fid1 fid2 : BitVec 11)
  /-- TXSEND id, dlc, bytes, R185. -/
  | txsend (id : BitVec 11) (dlc : BitVec 4) (buf : Vector Byte 64)
  /-- RXFILL f, R205. -/
  | rxfill (f : Bool)
  /-- RXRECV f, R209. -/
  | rxrecv (f : Bool)
  /-- TXW0, R97: word 0 of TX element `slot`, stored by the encoder. -/
  | txw0 (slot : BitVec 2) (id : BitVec 11)
  /-- TXW1, R98: word 1 of TX element `slot`, stored by the encoder. -/
  | txw1 (slot : BitVec 2) (dlc : BitVec 4)
  /-- PAYW, R99 and R102: a payload word with bytes `a` (lowest) to `d`. -/
  | payw (pl : PayPlace) (a b c d : Byte)
  /-- RXW0, R100: word 0 of an RX element, taken in by the decoder. -/
  | rxw0 (esi : Bool) (id : BitVec 11)
  /-- RXW1, R101: word 1 of an RX element, taken in by the decoder. -/
  | rxw1 (fidx : BitVec 7) (dlc : BitVec 4) (ts : BitVec 16)
  /-- SFW, R103: the word of standard filter element `idx`. -/
  | sfw (idx : Nat) (ftype : BitVec 2) (fcfg : BitVec 3) (fid1 fid2 : BitVec 11)
  /-- BTW, R104: the bit-timing word, written to NTIM and DTIM. -/
  | btw (t : Timing)
  /-- REG.MODE, R37: the two named bits. -/
  | regMode (cce ini : Bool)
  /-- REG.NTIM, R38. -/
  | regNtim (t : Timing)
  /-- REG.DTIM, R39. -/
  | regDtim (t : Timing)
  /-- REG.TEST, R40: bit 4. -/
  | regTest (lbck : Bool)
  /-- REG.TXCFG, R41: bit 24. -/
  | regTxcfg (tfqm : Bool)
  /-- REG.TXSTAT, R42: one read of the register whose draw has these fields. -/
  | regTxstat (full : Bool) (put : BitVec 2)
  /-- REG.TXADD, R43: one bit per slot. -/
  | regTxadd (slots : Word)
  /-- REG.RXSTAT0, R44: one read of the register whose draw has these fields. -/
  | regRxstat0 (get : BitVec 2) (fill : BitVec 4)
  /-- REG.RXSTAT1, R44: one read of the register whose draw has these fields. -/
  | regRxstat1 (get : BitVec 2) (fill : BitVec 4)
  /-- REG.RXACK0, R45: the whole word is the index. -/
  | regRxack0 (idx : Word)
  /-- REG.RXACK1, R45: the whole word is the index. -/
  | regRxack1 (idx : Word)
  /-- REG.GFILT, R46: the standard-filter-count field. -/
  | regGfilt (n : Word)
  deriving DecidableEq, Repr

/-- R30: the operand ports, sampled when a command is issued. `FSEL` is `CMD[4]` and stands in the command word. -/
structure Ports where
  txId : BitVec 11
  txDlc : BitVec 4
  txBuf : Vector Byte 64
  fIdx : Nat
  fType : BitVec 2
  fCfg : BitVec 3
  fId1 : BitVec 11
  fId2 : BitVec 11
  deriving DecidableEq, Repr

/-- All operand ports at 0. -/
def Ports.zero : Ports :=
  { txId := 0, txDlc := 0, txBuf := Vector.replicate 64 0, fIdx := 0, fType := 0, fCfg := 0, fId1 := 0, fId2 := 0 }

/-- R90 (a), R123: the nineteen data formats, one per data row of the table. -/
inductive Format where
  | txw0 | txw1 | payw | rxw0 | rxw1 | sfw | btw
  | mode | ntim | dtim | test | txcfg | txstat | txadd | rxstat0 | rxstat1 | rxack0 | rxack1 | gfilt
  deriving DecidableEq, Repr

/-- The place of a data word, which its bits do not tell: the element slot, the payload place, the filter index. -/
structure Place where
  slot : BitVec 2
  pay : PayPlace
  idx : Nat
  deriving DecidableEq, Repr

end Sys2Proof
end

