-- ==== Sys2Proof/WellFormed.lean ====
section
/-! DEFINITION. Well-formed instructions: the operands the port widths of R30 do not already make unrepresentable. -/

namespace Sys2Proof

/-- R104, R112: fields an in-range configuration can produce: `seg1` is 2 to 256, `seg2` is 2 to 128, so their encoded
values are 1 to 255 and 1 to 127 ("for in-range inputs bit 7 is always 0"); `presc` and `sjw` fill their fields. -/
def Timing.wf (t : Timing) : Bool :=
  t.seg1 != 0 && t.seg2 != 0 && !t.seg2.getLsbD 7

/-- R96, R99: an element has payload words 0 to 15; the slot is one of the queue's; a received length is at most 64 and
word `k` is one that holds a byte of it (R102). -/
def PayPlace.wf (p : Params) : PayPlace → Bool
  | .tx slot k => slot.toNat < p.nTxq && k < 16
  | .rx k len => len ≤ 64 && k < ceil4 len

/-- The checks, one arm per constructor. -/
def Instr.wf (p : Params) : Instr → Bool
  | .init => true
  | .layout => true
  | .filtset _ _ _ _ _ => true
  | .txsend _ _ _ => true
  | .rxfill _ => true
  | .rxrecv _ => true
  | .txw0 slot _ => slot.toNat < p.nTxq
  | .txw1 slot _ => slot.toNat < p.nTxq
  | .payw pl _ _ _ _ => pl.wf p
  | .rxw0 _ _ => true
  | .rxw1 _ _ _ => true
  | .sfw idx _ _ _ _ => idx < p.nSf
  | .btw t => t.wf
  | .regMode _ _ => true
  | .regNtim t => t.wf
  | .regDtim t => t.wf
  | .regTest _ => true
  | .regTxcfg _ => true
  | .regTxstat _ _ => true
  | .regTxadd slots => slots.toNat < 2 ^ p.nTxq
  | .regRxstat0 _ _ => true
  | .regRxstat1 _ _ => true
  | .regRxack0 idx => idx.toNat < p.nRf0
  | .regRxack1 idx => idx.toNat < p.nRf1
  | .regGfilt n => n.toNat < 2 ^ p.gfW

end Sys2Proof
end

