-- ==== Sys2Proof/Decode.lean ====
section
/-! DEFINITION. The encodings: bit fields and byte order (R13, R62), the pack and unpack functions of 30_encoding.md, the
command decoder (total on any bytes, rejecting by name) and, after it, the encoder, written from the same tables. -/

namespace Sys2Proof

/-! ### Bit fields and byte order -/

/-- R13: `w[lo+n-1 : lo]`. -/
def field (w : Word) (lo n : Nat) : BitVec n := w.extractLsb' lo n

/-- The word with ones in bits `lo .. lo+n-1`. R164: `((1 << GF_W) - 1) << GF_LSB`. -/
def fieldMask (lo n : Nat) : Word := ((1#32 <<< n) - 1#32) <<< lo

/-- R47, R164: `(v & ~m) | (x << lo)`, the read value with one field replaced. -/
def putField (v : Word) (lo n : Nat) (x : Word) : Word := (v &&& ~~~(fieldMask lo n)) ||| (x <<< lo)

/-- One bit as a word. -/
def bitWord (b : Bool) : Word := if b then 1#32 else 0#32

/-- R62: `word = b0 | b1 << 8 | b2 << 16 | b3 << 24`. -/
def wordOfBytes (b0 b1 b2 b3 : Byte) : Word :=
  b0.setWidth 32 ||| b1.setWidth 32 <<< 8 ||| b2.setWidth 32 <<< 16 ||| b3.setWidth 32 <<< 24

/-- R109: `UnpackByte(w, j) = w[8j+7 : 8j]`. The rule has `j` in 0..3; beyond, where no command uses it, 0 is the model's
DESIGN CHOICE (notes/assumptions/29.md). -/
def unpackByte (w : Word) (j : Nat) : Byte := field w (8 * j) 8

/-- The four bytes of a word, lowest first (R62). -/
def bytesOfWord (w : Word) : List Byte := [unpackByte w 0, unpackByte w 1, unpackByte w 2, unpackByte w 3]

/-! ### Frame elements -/

/-- R107: `EncTxW0(id) = id << 18`. -/
def encTxW0 (id : BitVec 11) : Word := id.setWidth 32 <<< 18

/-- R107: `EncTxW1(dlc) = dlc << 16`. -/
def encTxW1 (dlc : BitVec 4) : Word := dlc.setWidth 32 <<< 16

/-- R108: `B(i) = buf[i]` if `i < len` and 0 otherwise. With a length above 64 the bytes past the buffer are 0: DESIGN CHOICE
(notes/assumptions/29.md). -/
def paddedByte (buf : Vector Byte 64) (len i : Nat) : Byte := if i < len then buf.toList.getD i 0 else 0

/-- R108: `PackWord(buf, k, len)`. The rule defines it for `k < ceil4(len)`; the word 0 beyond is the model's DESIGN CHOICE
(notes/assumptions/29.md), and `packPayload` uses no such word. -/
def packWord (buf : Vector Byte 64) (k len : Nat) : Word :=
  wordOfBytes (paddedByte buf len (4 * k)) (paddedByte buf len (4 * k + 1))
    (paddedByte buf len (4 * k + 2)) (paddedByte buf len (4 * k + 3))

/-- R194: the `ceil4 len` payload words, ascending. -/
def packPayload (buf : Vector Byte 64) (len : Nat) : List Word :=
  (List.range (ceil4 len)).map fun k => packWord buf k len

/-- R219: the bytes of payload words `ws`, cut at `len`: byte `j` is `UnpackByte(p[j >> 2], j & 3)`. -/
def unpackPayload (ws : List Word) (len : Nat) : List Byte := (ws.flatMap bytesOfWord).take len

/-- R110: `DecRxW0(w).id = w[28:18]`. -/
def rxW0Id (w : Word) : BitVec 11 := field w 18 11

/-- R110: `DecRxW0(w).esi = w[31]`. -/
def rxW0Esi (w : Word) : Bool := w.getLsbD 31

/-- R110: `DecRxW1(w).ts = w[15:0]`. -/
def rxW1Ts (w : Word) : BitVec 16 := field w 0 16

/-- R110: `DecRxW1(w).dlc = w[19:16]`. -/
def rxW1Dlc (w : Word) : BitVec 4 := field w 16 4

/-- R110: `DecRxW1(w).fidx = w[30:24]`. -/
def rxW1Fidx (w : Word) : BitVec 7 := field w 24 7

/-- The RX word 0 with the given fields and every ignored bit 0 (R100). -/
def encRxW0 (esi : Bool) (id : BitVec 11) : Word := bitWord esi <<< 31 ||| id.setWidth 32 <<< 18

/-- The RX word 1 with the given fields and every ignored bit 0 (R101). -/
def encRxW1 (fidx : BitVec 7) (dlc : BitVec 4) (ts : BitVec 16) : Word :=
  fidx.setWidth 32 <<< 24 ||| dlc.setWidth 32 <<< 16 ||| ts.setWidth 32

/-! ### Filter word and bit-timing word -/

/-- R111: `FiltPack(type, conf, id1, id2) = type << 30 | conf << 27 | id1 << 16 | id2`. -/
def filtPack (ftype : BitVec 2) (fcfg : BitVec 3) (id1 id2 : BitVec 11) : Word :=
  ftype.setWidth 32 <<< 30 ||| fcfg.setWidth 32 <<< 27 ||| id1.setWidth 32 <<< 16 ||| id2.setWidth 32

/-- R112: the packed word of four "value - 1" fields:
`(seg2 - 1) | (seg1 - 1) << 8 | (presc - 1) << 16 | (sjw - 1) << 25`. -/
def Timing.pack (t : Timing) : Word :=
  t.seg2.setWidth 32 ||| t.seg1.setWidth 32 <<< 8 ||| t.presc.setWidth 32 <<< 16 ||| t.sjw.setWidth 32 <<< 25

/-- R104: the four fields of a timing word. -/
def Timing.unpack (w : Word) : Timing :=
  { sjw := field w 25 7, presc := field w 16 9, seg1 := field w 8 8, seg2 := field w 0 8 }

/-- R112: `BtPack` is defined for operands in range only, and a model must not extend it (R152 c): `none` outside. -/
def timingOf (presc sjw seg1 seg2 : Nat) : Option Timing :=
  if 1 ≤ presc ∧ presc ≤ 512 ∧ 1 ≤ sjw ∧ sjw ≤ 128 ∧ 2 ≤ seg1 ∧ seg1 ≤ 256 ∧ 2 ≤ seg2 ∧ seg2 ≤ 128 then
    some { sjw := BitVec.ofNat 7 (sjw - 1), presc := BitVec.ofNat 9 (presc - 1)
           seg1 := BitVec.ofNat 8 (seg1 - 1), seg2 := BitVec.ofNat 8 (seg2 - 1) }
  else none

/-! ### The command decoder -/

/-- Why bytes are no instruction. The first three are R93's illegal command words; the others are bytes no table row has:
a presentation that is not one byte wide, a data word whose fixed bits are not 0, a data word that is not four bytes. -/
inductive Reject where
  /-- `op` is 0 or 7 to 15. -/
  | illegalOp
  /-- `CMD[7:5]` is not 0. -/
  | reservedBits
  /-- `op` is 1 to 4 and `f` is 1. -/
  | selectorSet
  /-- The CMD port is 8 bits wide (R30, R91). -/
  | notOneByte
  /-- A bit the data format fixes at 0 is 1 (R97, R98, R103). -/
  | fixedBits
  /-- A data word is four bytes (R13). -/
  | notOneWord
  deriving DecidableEq, Repr

/-- R91 to R93: the instruction of one command word, its operands sampled from the ports (R30). -/
def decodeCmd (cmd : Byte) (q : Ports) : Except Reject Instr :=
  let f := cmd.getLsbD 4
  if cmd.extractLsb' 5 3 ≠ 0 then .error .reservedBits
  else match (cmd.extractLsb' 0 4).toNat with
    | 1 => if f then .error .selectorSet else .ok .init
    | 2 => if f then .error .selectorSet else .ok .layout
    | 3 => if f then .error .selectorSet else .ok (.filtset q.fIdx q.fType q.fCfg q.fId1 q.fId2)
    | 4 => if f then .error .selectorSet else .ok (.txsend q.txId q.txDlc q.txBuf)
    | 5 => .ok (.rxfill f)
    | 6 => .ok (.rxrecv f)
    | _ => .error .illegalOp

/-- Total on any bytes: all commands have one length, one byte (R91). -/
def decode (bytes : List Byte) (q : Ports) : Except Reject Instr :=
  match bytes with
  | [cmd] => decodeCmd cmd q
  | _ => .error .notOneByte

/-- The `n` low bytes of `w`, lowest first. -/
def bytesOfNat : Nat → Nat → List Byte
  | 0, _ => []
  | n + 1, w => BitVec.ofNat 8 w :: bytesOfNat n (w / 256)

/-- The instruction the command decoder reads from the bits `w`, the operand ports at 0. A data word is 32 bits wide and
is no command: its format is told by its place (R90, R96), so the command decoder refuses it. -/
def decodeTableWord (nbits w : Nat) : Option Instr :=
  match decode (bytesOfNat (nbits / 8) w) Ports.zero with
  | .ok i => some i
  | .error _ => none

/-! ### The data-word decoder -/

/-- R97 to R103, R37 to R46: the instruction of a data word of a known format at a known place. Bits a row ignores do not
matter (R116); bits a row fixes at 0 must be 0. -/
def decodeWord (p : Params) (fmt : Format) (pl : Place) (w : Word) : Except Reject Instr :=
  match fmt with
  | .txw0 => if field w 29 3 = 0 ∧ field w 0 18 = 0 then .ok (.txw0 pl.slot (field w 18 11)) else .error .fixedBits
  | .txw1 => if field w 20 12 = 0 ∧ field w 0 16 = 0 then .ok (.txw1 pl.slot (field w 16 4)) else .error .fixedBits
  | .payw => .ok (.payw pl.pay (unpackByte w 0) (unpackByte w 1) (unpackByte w 2) (unpackByte w 3))
  | .rxw0 => .ok (.rxw0 (rxW0Esi w) (rxW0Id w))
  | .rxw1 => .ok (.rxw1 (rxW1Fidx w) (rxW1Dlc w) (rxW1Ts w))
  | .sfw =>
    if field w 11 5 = 0 then .ok (.sfw pl.idx (field w 30 2) (field w 27 3) (field w 16 11) (field w 0 11))
    else .error .fixedBits
  | .btw => .ok (.btw (Timing.unpack w))
  | .mode => .ok (.regMode (w.getLsbD 1) (w.getLsbD 0))
  | .ntim => .ok (.regNtim (Timing.unpack w))
  | .dtim => .ok (.regDtim (Timing.unpack w))
  | .test => .ok (.regTest (w.getLsbD 4))
  | .txcfg => .ok (.regTxcfg (w.getLsbD 24))
  | .txstat => .ok (.regTxstat (w.getLsbD 21) (field w 16 2))
  | .txadd => .ok (.regTxadd w)
  | .rxstat0 => .ok (.regRxstat0 (field w 8 2) (field w 0 4))
  | .rxstat1 => .ok (.regRxstat1 (field w 8 2) (field w 0 4))
  | .rxack0 => .ok (.regRxack0 w)
  | .rxack1 => .ok (.regRxack1 w)
  | .gfilt => .ok (.regGfilt ((w >>> p.gfLsb) &&& fieldMask 0 p.gfW))

/-! ### The encoder -/

/-- The byte with command number `op` and selector `f` (R91). -/
def cmdByte (op : Nat) (f : Bool) : Byte := BitVec.ofNat 8 (op + if f then 16 else 0)

/-- R92: the command word of a command; `none` for a data word, which is no command. -/
def cmdOf : Instr → Option Byte
  | .init => some (cmdByte 1 false)
  | .layout => some (cmdByte 2 false)
  | .filtset _ _ _ _ _ => some (cmdByte 3 false)
  | .txsend _ _ _ => some (cmdByte 4 false)
  | .rxfill f => some (cmdByte 5 f)
  | .rxrecv f => some (cmdByte 6 f)
  | _ => none

/-- The operand ports that carry a command's operands, the others at 0 (R30). -/
def portsOf : Instr → Ports
  | .filtset idx ft fc a b => { Ports.zero with fIdx := idx, fType := ft, fCfg := fc, fId1 := a, fId2 := b }
  | .txsend id dlc buf => { Ports.zero with txId := id, txDlc := dlc, txBuf := buf }
  | _ => Ports.zero

/-- The format of a data word; `none` for a command. -/
def formatOf : Instr → Option Format
  | .init => none
  | .layout => none
  | .filtset _ _ _ _ _ => none
  | .txsend _ _ _ => none
  | .rxfill _ => none
  | .rxrecv _ => none
  | .txw0 _ _ => some .txw0
  | .txw1 _ _ => some .txw1
  | .payw _ _ _ _ _ => some .payw
  | .rxw0 _ _ => some .rxw0
  | .rxw1 _ _ _ => some .rxw1
  | .sfw _ _ _ _ _ => some .sfw
  | .btw _ => some .btw
  | .regMode _ _ => some .mode
  | .regNtim _ => some .ntim
  | .regDtim _ => some .dtim
  | .regTest _ => some .test
  | .regTxcfg _ => some .txcfg
  | .regTxstat _ _ => some .txstat
  | .regTxadd _ => some .txadd
  | .regRxstat0 _ _ => some .rxstat0
  | .regRxstat1 _ _ => some .rxstat1
  | .regRxack0 _ => some .rxack0
  | .regRxack1 _ => some .rxack1
  | .regGfilt _ => some .gfilt

/-- The place of a data word, the parts it has none of at 0. -/
def placeOf : Instr → Place
  | .txw0 slot _ => { slot := slot, pay := .tx 0 0, idx := 0 }
  | .txw1 slot _ => { slot := slot, pay := .tx 0 0, idx := 0 }
  | .payw pl _ _ _ _ => { slot := 0, pay := pl, idx := 0 }
  | .sfw idx _ _ _ _ => { slot := 0, pay := .tx 0 0, idx := idx }
  | _ => { slot := 0, pay := .tx 0 0, idx := 0 }

/-- The 32-bit word of a data word, every bit its row does not name 0. -/
def wordOf (p : Params) : Instr → Word
  | .txw0 _ id => encTxW0 id
  | .txw1 _ dlc => encTxW1 dlc
  | .payw _ a b c d => wordOfBytes a b c d
  | .rxw0 esi id => encRxW0 esi id
  | .rxw1 fidx dlc ts => encRxW1 fidx dlc ts
  | .sfw _ ft fc a b => filtPack ft fc a b
  | .btw t => t.pack
  | .regMode cce ini => bitWord cce <<< 1 ||| bitWord ini
  | .regNtim t => t.pack
  | .regDtim t => t.pack
  | .regTest l => bitWord l <<< 4
  | .regTxcfg q => bitWord q <<< 24
  | .regTxstat full put => bitWord full <<< 21 ||| put.setWidth 32 <<< 16
  | .regTxadd slots => slots
  | .regRxstat0 get fill => get.setWidth 32 <<< 8 ||| fill.setWidth 32
  | .regRxstat1 get fill => get.setWidth 32 <<< 8 ||| fill.setWidth 32
  | .regRxack0 idx => idx
  | .regRxack1 idx => idx
  | .regGfilt n => n <<< p.gfLsb
  | _ => 0#32

/-- The bytes of an instruction: one byte for a command, the four bytes of the word, lowest first, for a data word. -/
def encode (p : Params) (i : Instr) : List Byte :=
  match cmdOf i with
  | some c => [c]
  | none => bytesOfWord (wordOf p i)

/-- The word four bytes make, lowest first (R62). -/
def wordOfByteList : List Byte → Option Word
  | [a, b, c, d] => some (wordOfBytes a b c d)
  | _ => none

/-- Decoding at the interface an instruction of `i`'s row travels on: the command port for a command, the word's own
place for a data word. -/
def decodeLike (p : Params) (i : Instr) (bytes : List Byte) : Except Reject Instr :=
  match formatOf i with
  | none => decode bytes (portsOf i)
  | some fmt =>
    match wordOfByteList bytes with
    | some w => decodeWord p fmt (placeOf i) w
    | none => .error .notOneWord

end Sys2Proof
end

