-- ==== Sys2Proof/Machine/State.lean ====
section
/-! DEFINITION. The state as plain data: the block's registers and result ports (10_state.md), the peripheral register
surface, the message RAM, what the two environment agents will do next (HW's moves and HOST's script), and the record of
the block's accesses. Below it the reasons a step can stop, and the state after reset. -/

namespace Sys2Proof.Machine

/-- R25: the Mode Sequencer's states. -/
inductive Seq where
  | normal | requestInit | initializing | configEnabled
  deriving DecidableEq, Repr

/-- Which of INIT's two polls (R160 entry, R167 exit). -/
inductive Poll where
  | entry | exit
  deriving DecidableEq, Repr

/-- R231: the outcomes, with what each records. -/
inductive Status where
  | ok
  | queueFull
  | empty
  | hwFault (poll : Poll)
  | invalidHandle
  | badConfig
  | notInitialised
  | indexOutOfRange
  | slotOutOfRange
  | illegalCommand
  deriving DecidableEq, Repr

/-- R36: the twelve peripheral registers, in the table's order. -/
inductive Reg where
  | mode | ntim | dtim | test | txcfg | txstat | txadd | rxstat0 | rxstat1 | rxack0 | rxack1 | gfilt
  deriving DecidableEq, Repr

/-- What R76 (d) still lets HW do, and whether it has kept R76 so far: add-requests it has not yet answered by moving the
put index, acknowledges of each FIFO it has not yet answered by moving that get index, and `kept`, which falls for good
when a move breaks R76 (b) or (d). The model's own record (DESIGN CHOICE, notes/assumptions/24.md). -/
structure Duty where
  putDue : Nat
  getDue0 : Nat
  getDue1 : Nat
  kept : Bool
  deriving DecidableEq, Repr

/-- R35 to R48: the register surface of this instance. `mode` is the word last written to MODE or put there by HW, so its
bit 0 is the mode requested; `modeAck` is what a read returns in bit 0 (R37, R51 c). `txadd` is the set of pending
add-requests (R43, R51 d). `rxack0`, `rxack1` hold the word last written (R45). `duty` is the
model's record beside it. -/
structure Regs where
  mode : Word
  modeAck : Bool
  ntim : Word
  dtim : Word
  test : Word
  txcfg : Word
  txstat : Word
  txadd : Word
  rxstat0 : Word
  rxstat1 : Word
  rxack0 : Word
  rxack1 : Word
  gfilt : Word
  duty : Duty
  deriving DecidableEq, Repr

/-- R24: the configuration's values. Timing and budget fields are naturals, so that an out-of-range value can be held and
refused by INIT (R158). -/
structure Cfg where
  loopback : Bool
  presc : Nat
  sjw : Nat
  seg1 : Nat
  seg2 : Nat
  nStd : Nat
  nExt : Nat
  txQueueMode : Bool
  deriving DecidableEq, Repr

/-- Which fields of CFG HOST has written since reset: INIT tests it, "a field of `CFG` holds no value" (R158). -/
structure CfgWritten where
  loopback : Bool
  presc : Bool
  sjw : Bool
  seg1 : Bool
  seg2 : Bool
  nStd : Bool
  nExt : Bool
  txQueueMode : Bool
  deriving DecidableEq, Repr

/-- R22: the Message RAM Region Map, `MAP[0]` to `MAP[5]` under their names. -/
structure RegionMap where
  sf : Word
  xf : Word
  rf0 : Word
  rf1 : Word
  tef : Word
  txq : Word
  deriving DecidableEq, Repr

/-- R31: the result ports other than STATUS. -/
structure Results where
  fill : BitVec 4
  rxId : BitVec 11
  rxEsi : Bool
  rxTs : BitVec 16
  rxDlc : BitVec 4
  rxLen : BitVec 7
  rxFidx : BitVec 7
  rxBuf : Vector Byte 64
  deriving DecidableEq, Repr

/-- R50: the message RAM as its listed bytes, by absolute byte address, addresses rising; an unlisted address reads as 0
(notes/assumptions/2.md). The canonical form is `Memory.wf` in Machine/Ops.lean. -/
structure Memory where
  cells : List Host.Cell
  deriving DecidableEq, Repr

/-- One access of the block (R60: one 32-bit word), with the byte address it goes to (R49) and the word moved. -/
inductive Access where
  | regRead (addr : Nat) (v : Word)
  | regWrite (addr : Nat) (v : Word)
  | memRead (addr : Nat) (v : Word)
  | memWrite (addr : Nat) (v : Word)
  deriving DecidableEq, Repr

/-- One step of the environment other than HOST: what HW may do by R51 and R74 to R79 and R252, and what another instance
may do to the shared RAM (R84). DESIGN CHOICE
(notes/assumptions/15.md, 17.md). -/
inductive HwAct where
  /-- TXSTAT will read as `w` (R75). -/
  | txStat (w : Word)
  /-- RXSTAT0 or RXSTAT1 will read as `w` (R75). -/
  | rxStat (f : Bool) (w : Word)
  /-- Reads of `MODE[0]` will return `b` (R79). -/
  | modeAck (b : Bool)
  /-- HW puts its own bits of MODE, TEST, TXCFG or GFILT (R75, R76 e). -/
  | ownBits (r : Reg) (w : Word)
  /-- HW clears pending add-requests (R43, R77). -/
  | clearReq (m : Word)
  /-- HW frees the acknowledged slot of FIFO `f`: get index and fill level advance (R78). -/
  | takeAck (f : Bool)
  /-- HW writes word `j` of RX FIFO `f` slot `slot` (R51 e). -/
  | deliver (f : Bool) (slot j : Nat) (w : Word)
  /-- HW writes word `j` of the TX event FIFO region (R51 e). -/
  | teFifo (j : Nat) (w : Word)
  /-- The loopback delivery of R252: the element of TX slot `slot` goes to the next free slot of FIFO `f` with filter
  index `k`, timestamp `ts` and error-state flag `esi`, which R252 leaves to HW. -/
  | loopback (slot : BitVec 2) (f : Bool) (k : BitVec 7) (ts : BitVec 16) (esi : Bool)
  /-- Another instance writes word `w` at `addr`, in its own part of the RAM (R84, R254). -/
  | other (addr : Nat) (w : Word)
  deriving DecidableEq, Repr

/-- HOST writes one field of CFG (R24). -/
inductive CfgWrite where
  | loopback (b : Bool)
  | presc (n : Nat)
  | sjw (n : Nat)
  | seg1 (n : Nat)
  | seg2 (n : Nat)
  | nStd (n : Nat)
  | nExt (n : Nat)
  | txQueueMode (b : Bool)
  deriving DecidableEq, Repr

/-- One step of HOST (R80): it writes a field of CFG, causes a reset (R260), or presents bytes on the command port with
the operand ports as they then stand. -/
inductive HostAct where
  | setCfg (w : CfgWrite)
  | resetBlock
  | issue (bytes : List Byte) (ports : Ports)
  deriving DecidableEq, Repr

/-- What the launch premises of R266 ask of the past: the CFG that the last INIT which passed its checks was given (P3),
and whether LAYOUT has been issued alone since (P6). The model's own record (DESIGN CHOICE, notes/assumptions/13.md). -/
structure Launch where
  initCfg : Cfg
  loneLayout : Bool
  deriving DecidableEq, Repr

/-- The machine. The first three fields never change (R7, R21); `hw`, `script`, `launch` and `bus` are the model's own
fields: what HW does before each coming access (R74), what HOST does next, what R266 asks of the past, and the accesses
made, newest first (R71). DESIGN
CHOICE (notes/assumptions/1.md, 5.md). -/
@[ext]
structure State where
  params : Params
  inst : Nat
  cfg : Cfg
  cfgWritten : CfgWritten
  map : RegionMap
  lastReq : Word
  seq : Seq
  ready : Bool
  status : Status
  res : Results
  regs : Regs
  mem : Memory
  hw : List (List HwAct)
  script : List HostAct
  launch : Launch
  bus : List Access
  deriving DecidableEq, Repr

/-- The ways the machine stops. -/
inductive Fault where
  /-- Raised by `memRead` and `memWrite` for an address that is misaligned or outside the instance's part of the message
  RAM: "a model gives such an access no step" (R61). Safe: it stops where no rule produces the access. -/
  | badAddress (addr : Nat)
  /-- Raised by INIT built with `T_POLL = none` when HW does nothing more and its last answer is not the awaited one: the
  poll never ends (R160, R168, R277). Safe: a stuck machine. -/
  | pollNeverEnds (poll : Poll)
  deriving DecidableEq, Repr

/-- The situations the spec gives no meaning to. -/
inductive Refusal where
  /-- Raised by `exec` for an instruction that has no meaning in the model yet. No arm raises it now. Safe. -/
  | notModelled (mnemonic : String)
  /-- Raised by `step` when the parameters are not well-formed: "the model is defined only for parameters that meet all
  of these" (R8, R256). Safe. -/
  | illFormedParams
  /-- Raised by `step` when the command port is given anything but one byte: operands outside the port widths are refused
  (R30, R256). Safe. -/
  | operandWidth
  /-- Raised by the data words BTW, REG.NTIM and REG.DTIM when the Mode Sequencer does not have configuration-change
  enabled: "the write itself is only legal while" it has (R150; 93_implementation_defined.md U15: refuse). Safe. -/
  | timingWriteOutsideConfig
  /-- Raised by FILTSET, TXSEND, RXFILL, RXRECV and the data word SFW when the block is ready and CFG is no longer the one
  its INIT was given: "the spec gives no meaning to a run in which `CFG` changes without a following `INIT`"
  (R273, R256; 93_implementation_defined.md U17: refuse). Safe. -/
  | cfgChangedAfterInit
  deriving DecidableEq, Repr

/-- What a step answers. -/
abbrev Out := Host.Outcome State Fault Refusal

/-- No field of CFG written. -/
def CfgWritten.none : CfgWritten :=
  { loopback := false, presc := false, sjw := false, seg1 := false, seg2 := false, nStd := false, nExt := false
    txQueueMode := false }

/-- CFG before HOST writes it: zeros (notes/assumptions/4.md). -/
def Cfg.zero : Cfg :=
  { loopback := false, presc := 0, sjw := 0, seg1 := 0, seg2 := 0, nStd := 0, nExt := 0, txQueueMode := false }

/-- MAP before the first LAYOUT: zeros (notes/assumptions/4.md). -/
def RegionMap.zero : RegionMap := { sf := 0, xf := 0, rf0 := 0, rf1 := 0, tef := 0, txq := 0 }

/-- The launch record before the first INIT (notes/assumptions/13.md). -/
def Launch.none : Launch := { initCfg := Cfg.zero, loneLayout := false }

/-- The result ports before a command writes them: zeros (notes/assumptions/4.md). -/
def Results.zero : Results :=
  { fill := 0, rxId := 0, rxEsi := false, rxTs := 0, rxDlc := 0, rxLen := 0, rxFidx := 0
    rxBuf := Vector.replicate 64 0 }

/-- PRESUMED (notes/assumptions/3.md): the register surface as STM32G4 FDCAN leaves it at its own reset. -/
def Regs.powerOn : Regs :=
  { mode := 0x00000001, modeAck := true, ntim := 0x06000A03, dtim := 0x00000A33, test := 0, txcfg := 0
    txstat := 0x00000003, txadd := 0, rxstat0 := 0, rxstat1 := 0, rxack0 := 0, rxack1 := 0, gfilt := 0
    duty := { putDue := 0, getDue0 := 0, getDue1 := 0, kept := true } }

/-- R261: the machine right after reset. Stated by the spec: `SEQ = Normal`, `READY = 0`. Every other value is named in
notes/assumptions/1.md to 5.md. -/
def State.reset : State :=
  { params := psetG4, inst := 0
    cfg := Cfg.zero, cfgWritten := CfgWritten.none
    map := RegionMap.zero, lastReq := 0, seq := .normal, ready := false, status := .ok, res := Results.zero
    regs := Regs.powerOn, mem := { cells := [] }
    hw := [], script := [], launch := Launch.none, bus := [] }

end Sys2Proof.Machine
end

