-- ==== Sys2Proof/Machine/Regions.lean ====
section
/-! DEFINITION. The pure part of the Layout Calculator (R131 to R135), the addresses of the registers, and the
well-formedness of the parameters (R8). -/

namespace Sys2Proof.Machine

/-- R131: the six region sizes `SZ[0]` to `SZ[5]`, in bytes, in the order the source fixes. -/
def regionSizes (p : Params) : List Nat :=
  [p.nSf * p.esSf, p.nXf * p.esXf, p.nRf0 * p.esRf0, p.nRf1 * p.esRf1, p.nTef * p.esTef, p.nTxq * p.esTxq]

/-- R131: `SZ[k]`. -/
def regionSize (p : Params) (k : Nat) : Nat := (regionSizes p).getD k 0

/-- R131: `TOTAL`. -/
def total (p : Params) : Nat := (regionSizes p).sum

/-- R132: `IBASE(i) = RAM_BASE + i * TOTAL`. -/
def ibase (p : Params) (i : Nat) : Nat := p.ramBase + i * total p

/-- R133: `Layout(i)[k] = IBASE(i) + SZ[0] + ... + SZ[k-1]`. -/
def layoutAt (p : Params) (i k : Nat) : Nat := ibase p i + ((regionSizes p).take k).sum

/-- R135: `OFF[k] = Layout(i)[k] - RAM_BASE`. -/
def layoutOffset (p : Params) (i k : Nat) : Nat := layoutAt p i k - p.ramBase

/-- R134: the six addresses as MAP holds them. DEDUCED for an address of 2^32 (notes/assumptions/16.md). -/
def layoutMap (p : Params) (i : Nat) : RegionMap :=
  { sf := BitVec.ofNat 32 (layoutAt p i 0), xf := BitVec.ofNat 32 (layoutAt p i 1)
    rf0 := BitVec.ofNat 32 (layoutAt p i 2), rf1 := BitVec.ofNat 32 (layoutAt p i 3)
    tef := BitVec.ofNat 32 (layoutAt p i 4), txq := BitVec.ofNat 32 (layoutAt p i 5) }

/-- The row of a register in R36's table. -/
def Reg.row : Reg → Nat
  | .mode => 0
  | .ntim => 1
  | .dtim => 2
  | .test => 3
  | .txcfg => 4
  | .txstat => 5
  | .txadd => 6
  | .rxstat0 => 7
  | .rxstat1 => 8
  | .rxack0 => 9
  | .rxack1 => 10
  | .gfilt => 11

/-- R7: `REG(inst, name)`. With the instance selector out of range, which R21 excludes, DESIGN CHOICE
(notes/assumptions/9.md): address 0, and the access to the one surface in State is made. -/
def regAddress (p : Params) (i : Nat) (r : Reg) : Nat := p.regAddr.getD (12 * i + r.row) 0

/-- `RXSTATf` (R207). -/
def rxStatReg (f : Bool) : Reg := if f then .rxstat1 else .rxstat0

/-- `RXACKf` (R222). -/
def rxAckReg (f : Bool) : Reg := if f then .rxack1 else .rxack0

/-- `N_RFf`. -/
def rxSlots (p : Params) (f : Bool) : Nat := if f then p.nRf1 else p.nRf0

/-- `ES_RFf`. -/
def rxElemSize (p : Params) (f : Bool) : Nat := if f then p.esRf1 else p.esRf0

/-- R22: the number of RX FIFO `f`'s region. -/
def rxRegion (f : Bool) : Nat := if f then 3 else 2

/-- R113: `DlcToLen(dlc)`. -/
def dlcToLen (p : Params) (dlc : BitVec 4) : Nat := p.dlcToLen.toList.getD dlc.toNat 0

/-- R113: `LenToDlc(n)`, the code with `DlcToLen(d) = n` when one exists; `none` where it is undefined. -/
def lenToDlc (p : Params) (n : Nat) : Option (BitVec 4) :=
  ((List.range 16).map (BitVec.ofNat 4)).find? fun d => dlcToLen p d == n

/-- No entry occurs twice. -/
def distinct : List Nat → Bool
  | [] => true
  | a :: l => !l.contains a && distinct l

/-- Each entry is below the next. -/
def strictlyRising : List Nat → Bool
  | [] => true
  | [_] => true
  | a :: b :: l => a < b && strictlyRising (b :: l)

/-- Every check of a list holds. -/
def allHold : List Bool → Bool
  | [] => true
  | b :: l => b && allHold l

/-- A peripheral register address: a multiple of 4, below 2^32, outside the message RAM (R7, R8 g). -/
def regAddressOk (p : Params) (a : Nat) : Bool :=
  a % 4 == 0 && a < 2 ^ 32 && !(p.ramBase ≤ a && a < p.ramBase + p.nInst * total p)

/-- R8, clause by clause, with the ranges of R7 and R168's `T_POLL >= 1`. -/
def paramsWf (p : Params) : Bool :=
  allHold [
    decide (1 ≤ p.nInst),
    [p.esSf, p.esXf, p.esRf0, p.esRf1, p.esTef, p.esTxq].all (fun e => e % 4 == 0),
    decide (4 ≤ p.esSf),
    decide (72 ≤ p.esRf0), decide (72 ≤ p.esRf1), decide (72 ≤ p.esTxq),
    decide (p.nTxq ≤ 32),
    p.ramBase % 4 == 0, decide (p.ramBase < 2 ^ 32),
    decide (p.ramBase + p.nInst * total p ≤ 2 ^ 32),
    p.regAddr.length == 12 * p.nInst, distinct p.regAddr, p.regAddr.all (regAddressOk p),
    p.dlcToLen.toList.all (fun n => n ≤ 64), strictlyRising p.dlcToLen.toList,
    decide (p.gfLsb + p.gfW ≤ 32),
    p.tPoll != some 0 ]

end Sys2Proof.Machine
end

