-- ==== Sys2Proof/Machine/Ops.lean ====
section
/-! DEFINITION. The named operations every meaning is built from: the message RAM, the environment's moves, the four
accesses of the block, raising an outcome, the read-modify-write, the stores and loads of several words, and HOST's own
steps. -/

namespace Sys2Proof.Machine

/-! ### The message RAM -/

/-- What an address no cell lists reads as. The spec gives RAM no reset contents (R50, R261). DESIGN CHOICE
(notes/assumptions/2.md). -/
def unlistedByte : Byte := 0#8

/-- The byte at `a` in a list of cells with rising addresses. -/
def cellsRead : List Host.Cell → Nat → Byte
  | [], _ => unlistedByte
  | (b, v) :: l, a => if a = b then v else cellsRead l a

/-- The list with the byte at `a` replaced; a byte equal to what an unlisted address reads as is not listed. -/
def cellsWrite : List Host.Cell → Nat → Byte → List Host.Cell
  | [], a, v => if v = unlistedByte then [] else [(a, v)]
  | (b, u) :: l, a, v =>
    if a < b then (if v = unlistedByte then (b, u) :: l else (a, v) :: (b, u) :: l)
    else if a = b then (if v = unlistedByte then l else (a, v) :: l)
    else (b, u) :: cellsWrite l a v

/-- The canonical form: addresses strictly rising, no entry equal to what an unlisted address reads as. -/
def cellsWf : List Host.Cell → Bool
  | [] => true
  | (a, v) :: l => v != unlistedByte && l.all (fun c => a < c.1) && cellsWf l

/-- The canonical form of the memory. -/
def Memory.wf (m : Memory) : Bool := cellsWf m.cells

/-- One byte. -/
def Memory.byte (m : Memory) (a : Nat) : Byte := cellsRead m.cells a

/-- Replace one byte. -/
def Memory.setByte (m : Memory) (a : Nat) (v : Byte) : Memory := { cells := cellsWrite m.cells a v }

/-- R61, R62: the word at bytes `a .. a+3`, little-endian. -/
def Memory.word (m : Memory) (a : Nat) : Word :=
  wordOfBytes (m.byte a) (m.byte (a + 1)) (m.byte (a + 2)) (m.byte (a + 3))

/-- R61, R62: replace the word at bytes `a .. a+3`, little-endian. -/
def Memory.setWord (m : Memory) (a : Nat) (w : Word) : Memory :=
  (((m.setByte a (unpackByte w 0)).setByte (a + 1) (unpackByte w 1)).setByte (a + 2) (unpackByte w 2)).setByte (a + 3)
    (unpackByte w 3)

/-- Words at `a`, `a+4`, …. -/
def Memory.setWords (m : Memory) (a : Nat) : List Word → Memory
  | [] => m
  | w :: ws => (m.setWord a w).setWords (a + 4) ws

/-- The `n` words at `a`, `a+4`, …. -/
def Memory.words (m : Memory) (a : Nat) : Nat → List Word
  | 0 => []
  | n + 1 => m.word a :: m.words (a + 4) n

/-! ### The register surface -/

/-- What a read of a register returns (R37 to R46). A read of MODE returns the acknowledged mode in bit 0. -/
def Regs.read (g : Regs) : Reg → Word
  | .mode => putField g.mode 0 1 (bitWord g.modeAck)
  | .ntim => g.ntim
  | .dtim => g.dtim
  | .test => g.test
  | .txcfg => g.txcfg
  | .txstat => g.txstat
  | .txadd => g.txadd
  | .rxstat0 => g.rxstat0
  | .rxstat1 => g.rxstat1
  | .rxack0 => g.rxack0
  | .rxack1 => g.rxack1
  | .gfilt => g.gfilt

/-- R43: how many slots a word written to TXADD submits. -/
def requestCount (w : Word) : Nat := (List.range 32).countP fun k => w.getLsbD k

/-- What a write by the block lets HW do by R76 (d): each add-request one move of the put index, each acknowledge one move
of that FIFO's get index. -/
def Duty.afterWrite (d : Duty) (r : Reg) (v : Word) : Duty :=
  match r with
  | .txadd => { d with putDue := d.putDue + requestCount v }
  | .rxack0 => { d with getDue0 := d.getDue0 + 1 }
  | .rxack1 => { d with getDue1 := d.getDue1 + 1 }
  | _ => d

/-- What a write by the block does to the surface. TXADD is write-one-to-set (R43), PRESUMED (notes/assumptions/12.md).
DEDUCED and DESIGN CHOICE for MODE and the status registers (notes/assumptions/18.md). The three status registers are
read-only for the block (R42, R44): no rule produces such a write, and it changes nothing. -/
def Regs.write (g : Regs) (r : Reg) (v : Word) : Regs :=
  match r with
  | .mode => { g with mode := v }
  | .ntim => { g with ntim := v }
  | .dtim => { g with dtim := v }
  | .test => { g with test := v }
  | .txcfg => { g with txcfg := v }
  | .txstat => g
  | .txadd => { g with txadd := g.txadd ||| v, duty := g.duty.afterWrite .txadd v }
  | .rxstat0 => g
  | .rxstat1 => g
  | .rxack0 => { g with rxack0 := v, duty := g.duty.afterWrite .rxack0 v }
  | .rxack1 => { g with rxack1 := v, duty := g.duty.afterWrite .rxack1 v }
  | .gfilt => { g with gfilt := v }

/-- RXSTATf as presented. -/
def Regs.rxStat (g : Regs) (f : Bool) : Word := if f then g.rxstat1 else g.rxstat0

/-- RXACKf as last written. -/
def Regs.rxAck (g : Regs) (f : Bool) : Word := if f then g.rxack1 else g.rxack0

/-- HW presents `w` in RXSTATf. -/
def Regs.setRxStat (g : Regs) (f : Bool) (w : Word) : Regs :=
  if f then { g with rxstat1 := w } else { g with rxstat0 := w }

/-! ### What HW may do between two accesses (R74 to R79, R252) -/

/-- R76 (e), with DESIGN CHOICE notes/assumptions/15.md: the bits of a register HW may put. In MODE all but bit 0, whose
value on a read is `modeAck`, and, from the block's request of initialization mode to its release, all but CCE too: that
bit the block is then setting (R161, R81). In TEST and TXCFG all but the block's bit; in GFILT all but the count field. -/
def hwBits (p : Params) (g : Regs) : Reg → Word
  | .mode => if g.mode.getLsbD 0 then ~~~(fieldMask 0 2) else ~~~(fieldMask 0 1)
  | .test => ~~~(fieldMask 4 1)
  | .txcfg => ~~~(fieldMask 24 1)
  | .gfilt => ~~~(fieldMask p.gfLsb p.gfW)
  | _ => 0#32

/-- The bits of `m` taken from `w`, the others from `v`. -/
def mixBits (m v w : Word) : Word := (v &&& ~~~m) ||| (w &&& m)

/-- R78: the status word after HW has freed slot `idx`: get index `(idx + 1) mod N`, fill level one less.
PRESUMED (notes/assumptions/10.md). DESIGN CHOICE (same entry): where `N` is above 4, which R8 allows, the next index need
not fit the 2-bit field, the spec is silent, and its low two bits are put. -/
def statAfterAck (v : Word) (idx n : Nat) : Word :=
  putField (putField v 8 2 (BitVec.ofNat 32 ((idx + 1) % n % 4))) 0 4 (BitVec.ofNat 32 ((v.extractLsb' 0 4).toNat - 1))

/-- R252, PRESUMED (notes/assumptions/11.md): whether a loopback delivery from TX slot `slot` to FIFO `f` can happen:
loopback on, the request pending, a free slot in the FIFO. -/
def loopbackReady (p : Params) (g : Regs) (slot : BitVec 2) (f : Bool) : Bool :=
  allHold [g.test.getLsbD 4, g.txadd.getLsbD slot.toNat, decide (slot.toNat < p.nTxq),
    decide ((field (g.rxStat f) 0 4).toNat < rxSlots p f), decide ((field (g.rxStat f) 0 4).toNat < 15)]

/-- One move of HW, on the registers. -/
def hwSurface (p : Params) (x : HwAct) (g : Regs) : Regs :=
  match x with
  | .txStat w => { g with txstat := w }
  | .rxStat f w => g.setRxStat f w
  | .modeAck b => { g with modeAck := b }
  | .ownBits r w =>
    match r with
    | .mode => { g with mode := mixBits (hwBits p g .mode) g.mode w }
    | .test => { g with test := mixBits (hwBits p g .test) g.test w }
    | .txcfg => { g with txcfg := mixBits (hwBits p g .txcfg) g.txcfg w }
    | .gfilt => { g with gfilt := mixBits (hwBits p g .gfilt) g.gfilt w }
    | _ => g
  | .clearReq m => { g with txadd := g.txadd &&& ~~~m }
  | .takeAck f =>
    if rxSlots p f = 0 ∨ field (g.rxStat f) 0 4 = 0 then g
    else g.setRxStat f (statAfterAck (g.rxStat f) (g.rxAck f).toNat (rxSlots p f))
  | .deliver _ _ _ _ => g
  | .teFifo _ _ => g
  | .loopback slot f _ _ _ =>
    if loopbackReady p g slot f then
      ({ g with txadd := g.txadd &&& ~~~(1#32 <<< slot.toNat) }).setRxStat f
        (putField (g.rxStat f) 0 4 (BitVec.ofNat 32 ((field (g.rxStat f) 0 4).toNat + 1)))
    else g
  | .other _ _ => g

/-- R42: the put index HW presents. -/
def Regs.putIndex (g : Regs) : BitVec 2 := field g.txstat 16 2

/-- R44: the get index HW presents for FIFO `f`. -/
def Regs.getIndex (g : Regs) (f : Bool) : BitVec 2 := field (g.rxStat f) 8 2

/-- R76 (b): whether slot `slot` of FIFO `f` is among the `FL` queued elements starting at `GI`. With a presented get index
or fill level that R75 allows and the FIFO does not have (`GI` at or beyond `N_RFf`, `FL` above it), R76 does not say which
slots these are: DESIGN CHOICE (notes/assumptions/24.md), `(GI + j) mod N_RFf` for `j` below `FL`. -/
def queuedSlot (p : Params) (g : Regs) (f : Bool) (slot : Nat) : Bool :=
  (List.range (field (g.rxStat f) 0 4).toNat).any fun j => ((g.getIndex f).toNat + j) % rxSlots p f == slot

/-- R76 (b): the move writes no slot that is queued. -/
def sparesQueued (p : Params) (x : HwAct) (g : Regs) : Bool :=
  match x with
  | .deliver f slot _ _ => !queuedSlot p g f slot
  | _ => true

/-- R76 (d), R77: the put index moves. -/
def putMoves (g h : Regs) : Bool := g.putIndex != h.putIndex

/-- R76 (d), R78: FIFO `f` gives an element up: its get index moves or its fill level falls. That the level too falls only on
an acknowledge is DEDUCED from the reason R76 (b) gives (notes/assumptions/24.md). -/
def getMoves (g h : Regs) (f : Bool) : Bool :=
  g.getIndex f != h.getIndex f || decide ((field (h.rxStat f) 0 4).toNat < (field (g.rxStat f) 0 4).toNat)

/-- The acknowledges of FIFO `f` that HW has not answered. -/
def Duty.getDue (d : Duty) (f : Bool) : Nat := if f then d.getDue1 else d.getDue0

/-- R76 (d): what moves was due to. -/
def onlyWhenDue (moves : Bool) (due : Nat) : Bool := !moves || decide (0 < due)

/-- One move answers one request. -/
def answer (moves : Bool) (due : Nat) : Nat := if moves then due - 1 else due

/-- The record after move `x` has taken the surface from `g` to `h`: R76 (b) and (d). The other clauses no move can break:
(a), (c), (e) by `hwMem`, `loopbackReady`, `hwBits`. -/
def dutyAfter (p : Params) (x : HwAct) (g h : Regs) : Duty :=
  { putDue := answer (putMoves g h) g.duty.putDue
    getDue0 := answer (getMoves g h false) g.duty.getDue0
    getDue1 := answer (getMoves g h true) g.duty.getDue1
    kept := allHold [g.duty.kept, sparesQueued p x g, onlyWhenDue (putMoves g h) g.duty.putDue,
      onlyWhenDue (getMoves g h false) g.duty.getDue0, onlyWhenDue (getMoves g h true) g.duty.getDue1] }

/-- One move of HW, on the register surface and its record. -/
def hwRegs (p : Params) (x : HwAct) (g : Regs) : Regs :=
  { hwSurface p x g with duty := dutyAfter p x g (hwSurface p x g) }

/-- The slot a loopback delivery fills: the first one after the queued elements (R252 "the next free slot"). -/
def nextFreeSlot (p : Params) (g : Regs) (f : Bool) : Nat :=
  ((field (g.rxStat f) 8 2).toNat + (field (g.rxStat f) 0 4).toNat) % rxSlots p f

/-- R252: the words of the TX element at `e` as they appear in a FIFO: word 0 bits 28:18, word 1 bits 19:16 with the filter
index and the timestamp, the payload. DESIGN CHOICE (notes/assumptions/11.md): R252 names no ESI, so the move names it; the
bits the decoder ignores are 0. -/
def loopbackWords (p : Params) (m : Memory) (e : Nat) (k : BitVec 7) (ts : BitVec 16) (esi : Bool) : List Word :=
  let dlc : BitVec 4 := field (m.word (e + 4)) 16 4
  encRxW0 esi (field (m.word e) 18 11) :: encRxW1 k dlc ts :: m.words (e + 8) (ceil4 (dlcToLen p dlc))

/-- One move of HW, or of another instance, on the RAM. A write outside the region the act names is no act. -/
def hwMem (p : Params) (i : Nat) (x : HwAct) (g : Regs) (m : Memory) : Memory :=
  match x with
  | .deliver f slot j w =>
    if slot < rxSlots p f ∧ 4 * j + 4 ≤ rxElemSize p f then
      m.setWord (layoutAt p i (rxRegion f) + slot * rxElemSize p f + 4 * j) w
    else m
  | .teFifo j w => if 4 * j + 4 ≤ regionSize p 4 then m.setWord (layoutAt p i 4 + 4 * j) w else m
  | .loopback slot f k ts esi =>
    if loopbackReady p g slot f then
      m.setWords (layoutAt p i (rxRegion f) + nextFreeSlot p g f * rxElemSize p f)
        (loopbackWords p m (layoutAt p i 5 + slot.toNat * p.esTxq) k ts esi)
    else m
  | .other a w =>
    if a % 4 = 0 ∧ p.ramBase ≤ a ∧ a + 4 ≤ p.ramBase + p.nInst * total p
        ∧ (a + 4 ≤ ibase p i ∨ ibase p i + total p ≤ a) then m.setWord a w
    else m
  | _ => m

/-- One move of the environment (R74: HW has no access to the block's registers or to the ports). -/
def hwAct (s : State) (x : HwAct) : State :=
  { s with regs := hwRegs s.params x s.regs, mem := hwMem s.params s.inst x s.regs s.mem }

/-- R74: HW's moves before the next access of the block. When the schedule is used up HW does nothing more. -/
def hwMoves (s : State) : State :=
  match s.hw with
  | [] => s
  | b :: rest => b.foldl hwAct { s with hw := rest }

/-- The state after HW's moves before the next `n` accesses, as far as HW alone is concerned. -/
def afterMoves : Nat → State → State
  | 0, s => s
  | n + 1, s => afterMoves n (hwMoves s)

/-- Whether a move may write the byte at `a`: the region it is confined to holds it. -/
def HwAct.mayWrite (p : Params) (i : Nat) (a : Nat) : HwAct → Bool
  | .deliver f _ _ _ => layoutAt p i (rxRegion f) ≤ a && a < layoutAt p i (rxRegion f) + regionSize p (rxRegion f)
  | .loopback _ f _ _ _ => layoutAt p i (rxRegion f) ≤ a && a < layoutAt p i (rxRegion f) + regionSize p (rxRegion f)
  | .teFifo _ _ => layoutAt p i 4 ≤ a && a < layoutAt p i 4 + regionSize p 4
  | .other b _ => b ≤ a && a < b + 4 && (b + 4 ≤ ibase p i || ibase p i + total p ≤ b)
  | _ => false

/-- No scheduled move of HW writes the byte at `a`. -/
def State.hwSpares (s : State) (a : Nat) : Bool :=
  s.hw.all fun b => b.all fun x => !x.mayWrite s.params s.inst a

/-- HW makes no move at all during the coming accesses. -/
def State.hwQuiet (s : State) : Bool := s.hw.all fun b => b.isEmpty

/-! ### The block's accesses -/

/-- The access is added to the record. -/
def logAccess (x : Access) (s : State) : State := { s with bus := x :: s.bus }

/-- The register surface replaced. -/
def setRegs (g : Regs) (s : State) : State := { s with regs := g }

/-- The RAM replaced. -/
def setMem (m : Memory) (s : State) : State := { s with mem := m }

/-- R14: `RegRead(name)`, after HW's moves. With the instance selector out of range: DESIGN CHOICE
(notes/assumptions/9.md). -/
def regRead (r : Reg) (s : State) : Word × State :=
  ((hwMoves s).regs.read r,
    logAccess (.regRead (regAddress s.params s.inst r) ((hwMoves s).regs.read r)) (hwMoves s))

/-- R14: `RegWrite(name, v)`, after HW's moves. With the instance selector out of range: DESIGN CHOICE
(notes/assumptions/9.md). -/
def regWrite (r : Reg) (v : Word) (s : State) : State :=
  logAccess (.regWrite (regAddress s.params s.inst r) v) (setRegs ((hwMoves s).regs.write r v) (hwMoves s))

/-- R61, DEDUCED (notes/assumptions/21.md): where an access is defined: a multiple of 4 inside the instance's part of
the message RAM. -/
def accessible (p : Params) (i : Nat) (a : Nat) : Bool :=
  allHold [a % 4 == 0, decide (ibase p i ≤ a), decide (a + 4 ≤ ibase p i + total p), decide (i < p.nInst)]

/-- R14: `MemWrite(addr, 4, v)`, after HW's moves. -/
def memWrite (a : Nat) (v : Word) (s : State) : Out :=
  if accessible s.params s.inst a then
    .next (logAccess (.memWrite a v) (setMem ((hwMoves s).mem.setWord a v) (hwMoves s)))
  else .fault (.badAddress a)

/-- R14: `MemRead(addr, 4)`, after HW's moves. -/
def memRead (a : Nat) (s : State) : Except Fault (Word × State) :=
  if accessible s.params s.inst a then
    .ok ((hwMoves s).mem.word a, logAccess (.memRead a ((hwMoves s).mem.word a)) (hwMoves s))
  else .error (.badAddress a)

/-! ### Sequencing -/

/-- Run `k` on the next state, if there is one. -/
def andThen (o : Out) (k : State → Out) : Out :=
  match o with
  | .next s => k s
  | .fault r => .fault r
  | .refused r => .refused r

/-- R243: what raising an outcome does: STATUS receives it, nothing is saved, nothing else changes, and control is
HOST's again. There is no return from it (R244). -/
def raise (o : Status) (s : State) : State := { s with status := o }

/-- R273: CFG is no longer the one the INIT that made the block ready was given. -/
def cfgChanged (s : State) : Bool := s.ready && s.cfg != s.launch.initCfg

/-- R273, R256: "the spec gives no meaning to a run in which `CFG` changes without a following `INIT`": refused, at the first
use of the block in such a run. DESIGN CHOICE (notes/assumptions/13.md): which steps that refuses, and that an INIT ended with
`BadConfig` does not end the refusal. -/
def whenCfgKept (s : State) (k : State → Out) : Out :=
  if cfgChanged s then .refused .cfgChangedAfterInit else k s

/-- R176, R186, R206, R210: the first check of four commands; a ready block then needs launch premise P3 (R266). -/
def whenReady (s : State) (k : State → Out) : Out :=
  if s.ready then whenCfgKept s k else .next (raise .notInitialised s)

/-- R47: read the register, change only the named bits, write the result back. -/
def readModifyWrite (r : Reg) (change : Word → Word) (s : State) : State :=
  regWrite r (change (regRead r s).1) (regRead r s).2

/-- Stores of words at `a`, `a+4`, …, ascending. -/
def storeWords : Nat → List Word → State → Out
  | _, [], s => .next s
  | a, w :: ws, s => andThen (memWrite a w s) (storeWords (a + 4) ws)

/-- Loads of `n` words from `a`, `a+4`, …, ascending. -/
def loadWords : Nat → Nat → State → Except Fault (List Word × State)
  | _, 0, s => .ok ([], s)
  | a, n + 1, s =>
    match memRead a s with
    | .error e => .error e
    | .ok (w, s1) =>
      match loadWords (a + 4) n s1 with
      | .error e => .error e
      | .ok (ws, s2) => .ok (w :: ws, s2)

/-! ### HOST's own steps -/

/-- R24: HOST writes one field of CFG, at any time: DESIGN CHOICE (notes/assumptions/13.md). -/
def writeCfg (w : CfgWrite) (s : State) : State :=
  match w with
  | .loopback b =>
    { s with cfg := { s.cfg with loopback := b }, cfgWritten := { s.cfgWritten with loopback := true } }
  | .presc n => { s with cfg := { s.cfg with presc := n }, cfgWritten := { s.cfgWritten with presc := true } }
  | .sjw n => { s with cfg := { s.cfg with sjw := n }, cfgWritten := { s.cfgWritten with sjw := true } }
  | .seg1 n => { s with cfg := { s.cfg with seg1 := n }, cfgWritten := { s.cfgWritten with seg1 := true } }
  | .seg2 n => { s with cfg := { s.cfg with seg2 := n }, cfgWritten := { s.cfgWritten with seg2 := true } }
  | .nStd n => { s with cfg := { s.cfg with nStd := n }, cfgWritten := { s.cfgWritten with nStd := true } }
  | .nExt n => { s with cfg := { s.cfg with nExt := n }, cfgWritten := { s.cfgWritten with nExt := true } }
  | .txQueueMode b =>
    { s with cfg := { s.cfg with txQueueMode := b }, cfgWritten := { s.cfgWritten with txQueueMode := true } }

/-- R260 to R262: the reset event sets the block's registers to R261's values, and those the spec leaves without a value
to the ones `State.reset` names (DESIGN CHOICE, notes/assumptions/4.md); it resets neither the peripheral nor the RAM. It comes
between commands only: DESIGN CHOICE (notes/assumptions/19.md). -/
def resetBlock (s : State) : State :=
  { s with cfg := Cfg.zero, cfgWritten := CfgWritten.none, map := RegionMap.zero, lastReq := 0, seq := .normal
           ready := false, status := .ok, res := Results.zero, launch := Launch.none }

/-- R93, R240: what an illegal command word does. -/
def illegalCommand (s : State) : State := raise .illegalCommand s

end Sys2Proof.Machine
end

