-- ==== Sys2Proof/Machine/Operands.lean ====
section
/-! DEFINITION. The operand forms: the effective addresses of R68 (base plus scaled index plus word offset, exact natural
arithmetic, R114) and the timing operands taken from CFG. -/

namespace Sys2Proof.Machine

/-- R68: filter element `FIDX`, `SF_BASE + FIDX * ES_SF`. -/
def filterAddress (s : State) (idx : Nat) : Nat := s.map.sf.toNat + idx * s.params.esSf

/-- R192: `E = TXQ_BASE + idx * ES_TXQ`. -/
def txElement (s : State) (slot : BitVec 2) : Nat := s.map.txq.toNat + slot.toNat * s.params.esTxq

/-- R215: `RFf_BASE`. -/
def rxBase (m : RegionMap) (f : Bool) : Word := if f then m.rf1 else m.rf0

/-- R215: `E = RFf_BASE + idx * ES_RFf`. -/
def rxElement (s : State) (f : Bool) (slot : BitVec 2) : Nat :=
  (rxBase s.map f).toNat + slot.toNat * rxElemSize s.params f

/-- R193, R194: the words TXSEND stores at the element address, in order: the two header words and the payload. -/
def txWords (p : Params) (id : BitVec 11) (dlc : BitVec 4) (buf : Vector Byte 64) : List Word :=
  encTxW0 id :: encTxW1 dlc :: packPayload buf (dlcToLen p dlc)

/-- R220: `RXBUF` with its first bytes replaced, "filled in place"; the others keep their value. -/
def fillBuf (old : Vector Byte 64) (new : List Byte) : Vector Byte 64 :=
  ⟨⟨(new ++ old.toList.drop new.length).take 64⟩, by simp; omega⟩

/-- Bytes `start, start+1, …` of the buffer replaced by `new`. -/
def fillBufFrom (old : Vector Byte 64) (start : Nat) (new : List Byte) : Vector Byte 64 :=
  fillBuf old (old.toList.take start ++ new)

/-- R147: the timing operands of CFG, `none` when one is out of range (R146). -/
def cfgTiming (c : Cfg) : Option Timing := timingOf c.presc c.sjw c.seg1 c.seg2

end Sys2Proof.Machine
end

