-- ==== Sys2Proof/Machine/Flags.lean ====
section
/-! DEFINITION. What plays the part of flags (R29): the fields of the hardware's status registers, the checks on CFG, and
the outcome codes. -/

namespace Sys2Proof.Machine

/-- R42, R188: `TFQF = TXSTAT[21]`. -/
def txFull (v : Word) : Bool := v.getLsbD 21

/-- R42, R189: `TFQPI = TXSTAT[17:16]`. -/
def txPut (v : Word) : BitVec 2 := field v 16 2

/-- R44, R207: `FL = RXSTATf[3:0]`. -/
def rxFillLevel (v : Word) : BitVec 4 := field v 0 4

/-- R44, R213: `GI = RXSTATf[9:8]`. -/
def rxGet (v : Word) : BitVec 2 := field v 8 2

/-- The TXSTAT word with its two named fields replaced. -/
def withTxFields (v : Word) (full : Bool) (put : BitVec 2) : Word :=
  putField (putField v 21 1 (bitWord full)) 16 2 (put.setWidth 32)

/-- The RXSTATf word with its two named fields replaced. -/
def withRxFields (v : Word) (get : BitVec 2) (fill : BitVec 4) : Word :=
  putField (putField v 8 2 (get.setWidth 32)) 0 4 (fill.setWidth 32)

/-- Every field of CFG has been written since reset (R158). -/
def allWritten (w : CfgWritten) : Bool :=
  allHold [w.loopback, w.presc, w.sjw, w.seg1, w.seg2, w.nStd, w.nExt, w.txQueueMode]

/-- R158: the filter-count budgets are in range. -/
def budgetsOk (p : Params) (c : Cfg) : Bool :=
  allHold [decide (c.nStd ≤ p.nSf), decide (c.nStd < 2 ^ p.gfW), decide (c.nExt ≤ p.nXf)]

/-- R158: the configuration check of INIT: the timing operands when every field is written and in range. -/
def checkedTiming (s : State) : Option Timing :=
  if allWritten s.cfgWritten && budgetsOk s.params s.cfg then cfgTiming s.cfg else none

/-- R231: the outcome codes. -/
def Status.code : Status → Nat
  | .ok => 0
  | .queueFull => 1
  | .empty => 2
  | .hwFault _ => 3
  | .invalidHandle => 4
  | .badConfig => 5
  | .notInitialised => 6
  | .indexOutOfRange => 7
  | .slotOutOfRange => 8
  | .illegalCommand => 9

end Sys2Proof.Machine
end

