-- ==== Sys2Proof/Machine/Filter.lean ====
section
/-! DEFINITION. FILTSET, the Filter Configurator (43_filter.md). -/

namespace Sys2Proof.Machine

/-- R177 to R179: the bound, then the one store. -/
def storeFilter (idx : Nat) (w : Word) (s : State) (k : State → Out) : Out :=
  if s.cfg.nStd ≤ idx then .next (raise .indexOutOfRange s)
  else andThen (memWrite (filterAddress s idx) w s) k

/-- FILTSET, R180. -/
def execFiltset (idx : Nat) (ft : BitVec 2) (fc : BitVec 3) (id1 id2 : BitVec 11) (s : State) : Out :=
  whenReady s fun s0 => storeFilter idx (filtPack ft fc id1 id2) s0 fun s1 => .next (raise .ok s1)

end Sys2Proof.Machine
end

