-- ==== Sys2Proof/Machine/Layout.lean ====
section
/-! DEFINITION. LAYOUT, the Message RAM Layout Calculator (40_layout.md). -/

namespace Sys2Proof.Machine

/-- R134 and R136: store the map, then zero every word of the instance's part, ascending. No register is accessed
(R139). -/
def layoutSteps (s : State) : Out :=
  storeWords (ibase s.params s.inst) (List.replicate (total s.params / 4) 0#32)
    { s with map := layoutMap s.params s.inst }

/-- LAYOUT, R130 to R138: no check, always `Ok`. Issued alone it is recorded for launch premise P6 (R266). -/
def execLayout (s : State) : Out :=
  andThen (layoutSteps s) fun s1 => .next (raise .ok { s1 with launch := { s1.launch with loneLayout := true } })

end Sys2Proof.Machine
end

