-- ==== Sys2Proof/Machine/Init.lean ====
section
/-! DEFINITION. INIT, the Mode Sequencer (42_mode_sequencer.md), with the Bit Timing Configurator's internal operation
BTSET (41_bit_timing.md). -/

namespace Sys2Proof.Machine

/-- R159: step 0 and step 1. The record of R266 is made here: an INIT has passed its checks with the CFG that stands (P3), and
LAYOUT has not been issued alone since (P6). -/
def requestInit (s : State) : State :=
  { readModifyWrite .mode (· ||| 0x1#32)
      { s with ready := false, launch := { initCfg := s.cfg, loneLayout := false } } with seq := .requestInit }

/-- R160, R167: read MODE until bit 0 is `want`, at most `n` times: whether it was, and the state after the last read. -/
def pollMode (want : Bool) : Nat → State → Bool × State
  | 0, s => (false, s)
  | n + 1, s =>
    if (regRead .mode s).1.getLsbD 0 = want then (true, (regRead .mode s).2)
    else pollMode want n (regRead .mode s).2

/-- R168: how many reads decide a poll: `T_POLL` when it is a number; without a bound, one more than HW has moves
scheduled, since after its last move every further read returns the same. DEDUCED (notes/assumptions/8.md). -/
def pollReads (s : State) : Nat :=
  match s.params.tPoll with
  | some t => max t 1
  | none => s.hw.length + 1

/-- R160, R167: wait for the acknowledgment. A numeric bound that runs out raises `HwFault`; without a bound the poll
then never ends. -/
def awaitMode (want : Bool) (which : Poll) (s : State) (k : State → Out) : Out :=
  match pollMode want (pollReads s) s with
  | (true, s1) => k s1
  | (false, s1) =>
    match s.params.tPoll with
    | some _ => .next (raise (.hwFault which) s1)
    | none => .fault (.pollNeverEnds which)

/-- R161: step 3a. -/
def enableConfig (s : State) : State :=
  { readModifyWrite .mode (· ||| 0x2#32) s with seq := .configEnabled }

/-- R147 to R149, BTSET: the same word to NTIM, then to DTIM. -/
def btSet (t : Timing) (s : State) : State := regWrite .dtim t.pack (regWrite .ntim t.pack s)

/-- R163: step 3c. A false flag leaves its register alone. -/
def applyFlags (s : State) : State :=
  let s1 := if s.cfg.loopback then readModifyWrite .test (· ||| (1#32 <<< 4)) s else s
  if s1.cfg.txQueueMode then readModifyWrite .txcfg (· ||| (1#32 <<< 24)) s1 else s1

/-- R164: step 3d. -/
def writeFilterCount (s : State) : State :=
  readModifyWrite .gfilt
    (fun v => putField v s.params.gfLsb s.params.gfW (BitVec.ofNat 32 s.cfg.nStd)) s

/-- R161 to R166: step 3 of INIT, in the source's order. -/
def configure (t : Timing) (s : State) : Out :=
  andThen (layoutSteps (writeFilterCount (applyFlags (btSet t (enableConfig s))))) fun s1 =>
    .next { s1 with lastReq := 0#32 }

/-- R167: the write of step 4, which keeps CCE as read. -/
def releaseInit (s : State) : State := readModifyWrite .mode (· &&& ~~~0x1#32) s

/-- R167: the end of step 4. -/
def finishInit (s : State) : State := raise .ok { s with seq := .normal, ready := true }

/-- INIT, R171. -/
def execInit (s : State) : Out :=
  if s.inst < s.params.nInst then
    match checkedTiming s with
    | none => .next (raise .badConfig s)
    | some t =>
      awaitMode true .entry (requestInit s) fun s1 =>
        andThen (configure t { s1 with seq := .initializing }) fun s2 =>
          awaitMode false .exit (releaseInit s2) fun s3 => .next (finishInit s3)
  else .next (raise .invalidHandle s)

end Sys2Proof.Machine
end

