-- ==== Sys2Proof/Machine/Receive.lean ====
section
/-! DEFINITION. RXFILL and RXRECV, the Receive Decoder (45_receive.md). -/

namespace Sys2Proof.Machine

/-- RXFILL, R206 and R207. -/
def execRxfill (f : Bool) (s : State) : Out :=
  whenReady s fun s0 =>
    let s1 := (regRead (rxStatReg f) s0).2
    .next (raise .ok { s1 with res := { s1.res with fill := rxFillLevel (regRead (rxStatReg f) s0).1 } })

/-- R216, R220: what word 0 of an RX element gives the result ports. -/
def takeRxW0 (w : Word) (r : Results) : Results := { r with rxId := rxW0Id w, rxEsi := rxW0Esi w }

/-- R217, R218, R220: what word 1 of an RX element gives the result ports. -/
def takeRxW1 (p : Params) (w : Word) (r : Results) : Results :=
  { r with rxTs := rxW1Ts w, rxDlc := rxW1Dlc w, rxFidx := rxW1Fidx w
           rxLen := BitVec.ofNat 7 (dlcToLen p (rxW1Dlc w)) }

/-- R219, R220: what the payload words give `RXBUF`. -/
def takePayload (ws : List Word) (len : Nat) (r : Results) : Results :=
  { r with rxBuf := fillBuf r.rxBuf (unpackPayload ws len) }

/-- R220: all results of one element. -/
def takeFrame (p : Params) (w0 w1 : Word) (ws : List Word) (r : Results) : Results :=
  takePayload ws (dlcToLen p (rxW1Dlc w1)) (takeRxW1 p w1 (takeRxW0 w0 r))

/-- R216 to R222: read the element at `e`, deliver it, acknowledge slot `slot`. -/
def receiveAt (e : Nat) (f : Bool) (slot : BitVec 2) (s : State) : Out :=
  match memRead e s with
  | .error r => .fault r
  | .ok (w0, s1) =>
    match memRead (e + 4) s1 with
    | .error r => .fault r
    | .ok (w1, s2) =>
      match loadWords (e + 8) (ceil4 (dlcToLen s2.params (rxW1Dlc w1))) s2 with
      | .error r => .fault r
      | .ok (ws, s3) =>
        .next (raise .ok (regWrite (rxAckReg f) (slot.setWidth 32)
          { s3 with res := takeFrame s3.params w0 w1 ws s3.res }))

/-- R212 to R222: from the status word read. -/
def receiveFrom (v : Word) (f : Bool) (s : State) : Out :=
  if rxFillLevel v = 0 then .next (raise .empty s)
  else if rxSlots s.params f ≤ (rxGet v).toNat then .next (raise .slotOutOfRange s)
  else receiveAt (rxElement s f (rxGet v)) f (rxGet v) s

/-- RXRECV, R224. -/
def execRxrecv (f : Bool) (s : State) : Out :=
  whenReady s fun s0 => receiveFrom (regRead (rxStatReg f) s0).1 f (regRead (rxStatReg f) s0).2

end Sys2Proof.Machine
end

