-- ==== Sys2Proof/Machine/Transmit.lean ====
section
/-! DEFINITION. TXSEND, the Transmit Encoder (44_transmit.md). -/

namespace Sys2Proof.Machine

/-- R191: "out-of-range slot indices are rejected before any memory access". -/
def whenTxSlot (slot : BitVec 2) (s : State) (k : State → Out) : Out :=
  if s.params.nTxq ≤ slot.toNat then .next (raise .slotOutOfRange s) else k s

/-- R195, R196: the hand-off and the record of it. -/
def handOff (slot : BitVec 2) (s : State) : State :=
  { regWrite .txadd (1#32 <<< slot.toNat) s with lastReq := 1#32 <<< slot.toNat }

/-- R188 to R196: from the status word read. -/
def sendFrom (v : Word) (id : BitVec 11) (dlc : BitVec 4) (buf : Vector Byte 64) (s : State) : Out :=
  if txFull v then .next (raise .queueFull s)
  else whenTxSlot (txPut v) s fun s1 =>
    andThen (storeWords (txElement s1 (txPut v)) (txWords s1.params id dlc buf) s1) fun s2 =>
      .next (raise .ok (handOff (txPut v) s2))

/-- TXSEND, R197. -/
def execTxsend (id : BitVec 11) (dlc : BitVec 4) (buf : Vector Byte 64) (s : State) : Out :=
  whenReady s fun s0 => sendFrom (regRead .txstat s0).1 id dlc buf (regRead .txstat s0).2

end Sys2Proof.Machine
end

