-- ==== Sys2Proof/Machine/Words.lean ====
section
/-! DEFINITION. The data words of the RAM elements and the bit-timing word, one meaning each: the transfer of one word
of the format (DEDUCED, notes/assumptions/6.md), over the operations the commands use, on MAP and CFG as they stand (DESIGN
CHOICE with READY = 0, notes/assumptions/28.md). No command word selects them
(R90) and they write no outcome but the one a check raises. -/

namespace Sys2Proof.Machine

/-- TXW0, R97 and R193: the encoder stores word 0 of the element. -/
def execTxw0 (slot : BitVec 2) (id : BitVec 11) (s : State) : Out :=
  whenTxSlot slot s fun s1 => memWrite (txElement s1 slot) (encTxW0 id) s1

/-- TXW1, R98 and R193: the encoder stores word 1 of the element. -/
def execTxw1 (slot : BitVec 2) (dlc : BitVec 4) (s : State) : Out :=
  whenTxSlot slot s fun s1 => memWrite (txElement s1 slot + 4) (encTxW1 dlc) s1

/-- PAYW, R99 and R194: the encoder stores payload word `k`; R102 and R219: the decoder copies its bytes below `len` to
`RXBUF[4k ..]`. DESIGN CHOICE (notes/assumptions/25.md): a place R99 and R102 do not give (`PayPlace.wf`) is used as it
stands. -/
def execPayw (pl : PayPlace) (a b c d : Byte) (s : State) : Out :=
  match pl with
  | .tx slot k => whenTxSlot slot s fun s1 => memWrite (txElement s1 slot + 8 + 4 * k) (wordOfBytes a b c d) s1
  | .rx k len =>
    .next { s with res := { s.res with
      rxBuf := fillBufFrom s.res.rxBuf (4 * k) ((bytesOfWord (wordOfBytes a b c d)).take (len - 4 * k)) } }

/-- RXW0, R100: decoded to RXESI and RXID. -/
def execRxw0 (esi : Bool) (id : BitVec 11) (s : State) : Out :=
  .next { s with res := takeRxW0 (encRxW0 esi id) s.res }

/-- RXW1, R101: decoded to RXTS, RXDLC (and with it RXLEN), RXFIDX. -/
def execRxw1 (fidx : BitVec 7) (dlc : BitVec 4) (ts : BitVec 16) (s : State) : Out :=
  .next { s with res := takeRxW1 s.params (encRxW1 fidx dlc ts) s.res }

/-- SFW, R103, R178, R179: the filter word, stored at its element under the bound of R177; refused, as FILTSET is, under a
CFG changed since INIT (R273, notes/assumptions/6.md, 13.md). With READY = 0, where INIT may not have checked the budget:
DESIGN CHOICE (notes/assumptions/28.md). -/
def execSfw (idx : Nat) (ft : BitVec 2) (fc : BitVec 3) (id1 id2 : BitVec 11) (s : State) : Out :=
  whenCfgKept s fun s0 => storeFilter idx (filtPack ft fc id1 id2) s0 fun s1 => .next s1

/-- R150: a timing write is legal only while the Mode Sequencer has configuration-change enabled; elsewhere it is refused.
DESIGN CHOICE (notes/assumptions/14.md): that refusal, and that the gate is SEQ alone where SEQ and `MODE.CCE`, which R38
names, differ. -/
def whenConfig (s : State) (k : State → Out) : Out :=
  if s.seq = .configEnabled then k s else .refused .timingWriteOutsideConfig

/-- BTW, R104 and R147 to R149: the word goes to NTIM, then to DTIM. DESIGN CHOICE (notes/assumptions/22.md): fields no
in-range configuration gives (`Timing.wf`) are written as they stand. -/
def execBtw (t : Timing) (s : State) : Out := whenConfig s fun s1 => .next (btSet t s1)

end Sys2Proof.Machine
end

