-- ==== Sys2Proof/Machine/Registers.lean ====
section
/-! DEFINITION. The twelve register rows (R36), one meaning each, by the row's "block access" (DEDUCED,
notes/assumptions/6.md): a read-modify-write of the named bits (R47), a whole-word write, or one read whose draw has the
given fields (R75). -/

namespace Sys2Proof.Machine

/-- REG.MODE, R37 and R47: both named bits are written, the others keep the value read; in every SEQ, which it leaves as it
is. Outside INIT: DESIGN CHOICE (notes/assumptions/26.md). -/
def execRegMode (cce ini : Bool) (s : State) : Out :=
  .next (readModifyWrite .mode (fun v => putField (putField v 1 1 (bitWord cce)) 0 1 (bitWord ini)) s)

/-- REG.NTIM, R38, R148 and R150. Fields out of range: DESIGN CHOICE (notes/assumptions/22.md). -/
def execRegNtim (t : Timing) (s : State) : Out := whenConfig s fun s1 => .next (regWrite .ntim t.pack s1)

/-- REG.DTIM, R39, R149 and R150. Fields out of range: DESIGN CHOICE (notes/assumptions/22.md). -/
def execRegDtim (t : Timing) (s : State) : Out := whenConfig s fun s1 => .next (regWrite .dtim t.pack s1)

/-- REG.TEST, R40 and R47, in every SEQ. Outside configuration-enabled: DESIGN CHOICE
(notes/assumptions/23.md). -/
def execRegTest (l : Bool) (s : State) : Out :=
  .next (readModifyWrite .test (fun v => putField v 4 1 (bitWord l)) s)

/-- REG.TXCFG, R41 and R47, in every SEQ. Outside configuration-enabled: DESIGN CHOICE
(notes/assumptions/23.md). -/
def execRegTxcfg (q : Bool) (s : State) : Out :=
  .next (readModifyWrite .txcfg (fun v => putField v 24 1 (bitWord q)) s)

/-- One read of a status register by the block: HW, having moved, makes the one move more that `x` gives for the surface it
shows, and the read returns what it then shows (R75). -/
def statusRead (r : Reg) (x : Regs → HwAct) (s : State) : State :=
  logAccess (.regRead (regAddress s.params s.inst r) ((hwAct (hwMoves s) (x (hwMoves s).regs)).regs.read r))
    (hwAct (hwMoves s) (x (hwMoves s).regs))

/-- REG.TXSTAT, R42 and R75: a read that returns these fields. -/
def execRegTxstat (full : Bool) (put : BitVec 2) (s : State) : Out :=
  .next (statusRead .txstat (fun g => .txStat (withTxFields g.txstat full put)) s)

/-- REG.TXADD, R43: bits written 1 ask HW to send, bits written 0 change nothing. A bit of no slot: DESIGN CHOICE
(notes/assumptions/27.md). -/
def execRegTxadd (slots : Word) (s : State) : Out := .next (regWrite .txadd slots s)

/-- REG.RXSTAT0, R44 and R75: a read that returns these fields. -/
def execRegRxstat0 (gi : BitVec 2) (fl : BitVec 4) (s : State) : Out :=
  .next (statusRead .rxstat0 (fun g => .rxStat false (withRxFields g.rxstat0 gi fl)) s)

/-- REG.RXSTAT1, R44 and R75: a read that returns these fields. -/
def execRegRxstat1 (gi : BitVec 2) (fl : BitVec 4) (s : State) : Out :=
  .next (statusRead .rxstat1 (fun g => .rxStat true (withRxFields g.rxstat1 gi fl)) s)

/-- REG.RXACK0, R45. An index of no slot: DESIGN CHOICE (notes/assumptions/27.md). -/
def execRegRxack0 (idx : Word) (s : State) : Out := .next (regWrite .rxack0 idx s)

/-- REG.RXACK1, R45. An index of no slot: DESIGN CHOICE (notes/assumptions/27.md). -/
def execRegRxack1 (idx : Word) (s : State) : Out := .next (regWrite .rxack1 idx s)

/-- REG.GFILT, R46, R47 and R164, in every SEQ. Outside configuration-enabled: DESIGN CHOICE
(notes/assumptions/23.md). A count that does not fit the field: DESIGN CHOICE (notes/assumptions/27.md). -/
def execRegGfilt (n : Word) (s : State) : Out :=
  .next (readModifyWrite .gfilt (fun v => putField v s.params.gfLsb s.params.gfW n) s)

end Sys2Proof.Machine
end

