-- ==== Sys2Proof/Machine/Dispatch.lean ====
section
/-! DEFINITION. The dispatch: one arm per constructor of `Instr`. -/

namespace Sys2Proof.Machine

-- The meaning of each instruction.
def exec (i : Instr) (s : State) : Host.Outcome State Fault Refusal :=
  match i with
  -- the six commands
  | .init => Sys2Proof.Machine.execInit s
  | .layout => Sys2Proof.Machine.execLayout s
  | .filtset idx ft fc a b => Sys2Proof.Machine.execFiltset idx ft fc a b s
  | .txsend id dlc buf => Sys2Proof.Machine.execTxsend id dlc buf s
  | .rxfill f => Sys2Proof.Machine.execRxfill f s
  | .rxrecv f => Sys2Proof.Machine.execRxrecv f s
  -- the words of the RAM elements and the bit-timing word
  | .txw0 slot id => Sys2Proof.Machine.execTxw0 slot id s
  | .txw1 slot dlc => Sys2Proof.Machine.execTxw1 slot dlc s
  | .payw pl a b c d => Sys2Proof.Machine.execPayw pl a b c d s
  | .rxw0 esi id => Sys2Proof.Machine.execRxw0 esi id s
  | .rxw1 fidx dlc ts => Sys2Proof.Machine.execRxw1 fidx dlc ts s
  | .sfw idx ft fc a b => Sys2Proof.Machine.execSfw idx ft fc a b s
  | .btw t => Sys2Proof.Machine.execBtw t s
  -- the peripheral registers
  | .regMode cce ini => Sys2Proof.Machine.execRegMode cce ini s
  | .regNtim t => Sys2Proof.Machine.execRegNtim t s
  | .regDtim t => Sys2Proof.Machine.execRegDtim t s
  | .regTest l => Sys2Proof.Machine.execRegTest l s
  | .regTxcfg q => Sys2Proof.Machine.execRegTxcfg q s
  | .regTxstat full put => Sys2Proof.Machine.execRegTxstat full put s
  | .regTxadd slots => Sys2Proof.Machine.execRegTxadd slots s
  | .regRxstat0 gi fl => Sys2Proof.Machine.execRegRxstat0 gi fl s
  | .regRxstat1 gi fl => Sys2Proof.Machine.execRegRxstat1 gi fl s
  | .regRxack0 idx => Sys2Proof.Machine.execRegRxack0 idx s
  | .regRxack1 idx => Sys2Proof.Machine.execRegRxack1 idx s
  | .regGfilt n => Sys2Proof.Machine.execRegGfilt n s

end Sys2Proof.Machine
end

