-- ==== Sys2Proof/Machine/Step.lean ====
section
/-! DEFINITION. One step: HOST's next act. A command runs to completion in one step (R28, R70); HW moves between its
accesses (R74). DESIGN CHOICE (notes/assumptions/19.md). With nothing left in HOST's script the block waits (R263). -/

namespace Sys2Proof.Machine

/-- What a presentation on the command port does: the decoded instruction runs; an illegal command word ends with
`IllegalCommand` (R93, R240); anything but one byte is outside the port's width (DESIGN CHOICE, notes/assumptions/7.md).
-/
def runDecoded (d : Except Reject Instr) (s : State) : Out :=
  match d with
  | .ok i => exec i s
  | .error .notOneByte => .refused .operandWidth
  | .error _ => .next (illegalCommand s)

/-- One act of HOST. DESIGN CHOICE (notes/assumptions/19.md): a write of CFG or the reset event (R260) comes between two
commands, never in the middle of one. -/
def hostStep (h : HostAct) (s : State) : Out :=
  match h with
  | .setCfg w => .next (writeCfg w s)
  | .resetBlock => .next (resetBlock s)
  | .issue bytes q => runDecoded (decode bytes q) s

/-- One step of the machine. DESIGN CHOICE for ill-formed parameters (notes/assumptions/9.md). -/
def step (s : State) : Host.Outcome State Fault Refusal :=
  if paramsWf s.params then
    match s.script with
    | [] => .next s
    | h :: rest => hostStep h { s with script := rest }
  else .refused .illFormedParams

/-- `s` with the bits `w` presented on the command port as HOST's next act, the operand ports at 0. DESIGN CHOICE
(notes/assumptions/5.md). -/
def State.withFetchWord (s : State) (nbits w : Nat) : State :=
  { s with script := .issue (bytesOfNat (nbits / 8) w) Ports.zero :: s.script }

end Sys2Proof.Machine
end

