-- ==== Sys2Proof/Safety.lean ====
section
/-! DEFINITION. What counts as a good run (R256), the launch premises (R266), and the invariant claims use. -/

namespace Sys2Proof

open Sys2Proof.Machine

/-- R256: the outcomes that are ordinary results; the others are faults of the run. -/
def ordinary : Status → Bool
  | .ok => true
  | .queueFull => true
  | .empty => true
  | .hwFault _ => false
  | .invalidHandle => false
  | .badConfig => false
  | .notInitialised => false
  | .indexOutOfRange => false
  | .slotOutOfRange => false
  | .illegalCommand => false

/-- R256: a good step answers a next state with an ordinary outcome. -/
def GoodStep (s : State) : Prop := ∃ t, step s = .next t ∧ ordinary t.status = true

/-- R266, P1, and the part of P2 that addresses rest on: well-formed parameters, the strap in range (R21),
`MAP = Layout(INST)`. -/
def Mapped (s : State) : Prop :=
  paramsWf s.params = true ∧ s.inst < s.params.nInst ∧ s.map = layoutMap s.params s.inst

/-- R266, P3: CFG is unchanged since the last INIT that passed its checks, and they passed the budget (R158). -/
def CfgKept (s : State) : Prop := s.cfg = s.launch.initCfg ∧ s.launch.initCfg.nStd ≤ s.params.nSf

/-- R266, P1, P2 and P3: the last INIT that passed its checks ended with `Ok`, so `READY = 1`, `SEQ = Normal`,
`MAP = Layout(INST)`, and CFG is unchanged since. What the statements about the four commands need. -/
structure Launched (s : State) : Prop where
  mapped : Mapped s
  ready : s.ready = true
  normal : s.seq = .normal
  cfgKept : CfgKept s

/-- R266: the launch premises. P4, no command in progress, holds between steps. P5 so far: no move of HW has broken R76. A
claim about a step to come takes `t.regs.duty.kept` of the state it answers as its P5. -/
structure LaunchPremises (s : State) : Prop where
  launched : Launched s
  hwKept : s.regs.duty.kept = true
  noLoneLayout : s.launch.loneLayout = false

/-- R231, "raised by" and R172, R138, R199, R208, R225: the outcomes each command can end with. A data word is no command
and raises only the check it carries. -/
def outcomesOf : Instr → List Status
  | .init => [.ok, .hwFault .entry, .hwFault .exit, .invalidHandle, .badConfig]
  | .layout => [.ok]
  | .filtset _ _ _ _ _ => [.ok, .notInitialised, .indexOutOfRange]
  | .txsend _ _ _ => [.ok, .notInitialised, .queueFull, .slotOutOfRange]
  | .rxfill _ => [.ok, .notInitialised]
  | .rxrecv _ => [.ok, .notInitialised, .empty, .slotOutOfRange]
  | _ => []

/-- R93: the illegal command words: `op` is 0 or 7 to 15, `CMD[7:5]` is not 0, or `op` is 1 to 4 with `f = 1`. -/
def illegalWord (cmd : Byte) : Prop :=
  (cmd.extractLsb' 0 4).toNat = 0 ∨ 7 ≤ (cmd.extractLsb' 0 4).toNat ∨ cmd.extractLsb' 5 3 ≠ 0
    ∨ (1 ≤ (cmd.extractLsb' 0 4).toNat ∧ (cmd.extractLsb' 0 4).toNat ≤ 4 ∧ cmd.getLsbD 4 = true)

/-- The access that reads register `r` of this instance and returns `v`; its address where the instance selector is out of
range is the model's choice (notes/assumptions/9.md). -/
def readOf (s : State) (r : Reg) (v : Word) : Access := .regRead (regAddress s.params s.inst r) v

/-- The access that writes `v` to register `r` of this instance; its address where the instance selector is out of range is
the model's choice (notes/assumptions/9.md). -/
def writeOf (s : State) (r : Reg) (v : Word) : Access := .regWrite (regAddress s.params s.inst r) v

/-- R103 with R68: the address of standard filter element `idx`. -/
def filterElement (s : State) (idx : Nat) : Nat := layoutAt s.params s.inst 0 + idx * s.params.esSf

/-- R68, R192: the address of TX element `slot`. -/
def txSlotElement (s : State) (slot : BitVec 2) : Nat := layoutAt s.params s.inst 5 + slot.toNat * s.params.esTxq

/-- R68, R215: the address of element `slot` of RX FIFO `f`. -/
def rxSlotElement (s : State) (f : Bool) (slot : BitVec 2) : Nat :=
  layoutAt s.params s.inst (rxRegion f) + slot.toNat * rxElemSize s.params f

/-- R193, R194: the words of a TX element, header and payload. -/
def txElementWords (p : Params) (id : BitVec 11) (dlc : BitVec 4) (buf : Vector Byte 64) : List Word :=
  (id.setWidth 32 <<< 18) :: (dlc.setWidth 32 <<< 16) ::
    (List.range (ceil4 (dlcToLen p dlc))).map fun k => packWord buf k (dlcToLen p dlc)

/-- The accesses of storing words at `a`, `a+4`, …, in program order. -/
def memWrites : Nat → List Word → List Access
  | _, [] => []
  | a, w :: ws => .memWrite a w :: memWrites (a + 4) ws

/-- The accesses of loading words from `a`, `a+4`, …, in program order, with what each returned. -/
def memReads : Nat → List Word → List Access
  | _, [] => []
  | a, w :: ws => .memRead a w :: memReads (a + 4) ws

/-- The words that loads of `n` words at `a`, `a+4`, … return: each as the RAM holds it after HW's moves before that
access (R71, R74). -/
def loadedWords : Nat → Nat → State → List Word
  | _, 0, _ => []
  | a, n + 1, s => (hwMoves s).mem.word a :: loadedWords (a + 4) n (hwMoves s)

/-- What a read of `MODE[0]` returns when it is the block's `n`-th coming access, counted from 1 (R37, R79): the mode HW
has acknowledged by then, whatever the block writes before. -/
def ackAt (s : State) (n : Nat) : Bool := (afterMoves n s).regs.modeAck

/-- R160, R167: a poll whose first read is access `n + 1` of the block sees `want` at its read number `k + 1` and not
earlier, within `T_POLL` when that is a number (R168). -/
def pollSees (s : State) (want : Bool) (n k : Nat) : Prop :=
  (∀ j, j < k → ackAt s (n + 1 + j) ≠ want) ∧ ackAt s (n + 1 + k) = want
    ∧ (∀ t, s.params.tPoll = some t → k < t)

/-- R158: the configuration INIT accepts, clause by clause: every field written, every value in range. -/
structure ConfigOk (s : State) : Prop where
  written : s.cfgWritten =
    { loopback := true, presc := true, sjw := true, seg1 := true, seg2 := true, nStd := true, nExt := true
      txQueueMode := true }
  presc : 1 ≤ s.cfg.presc ∧ s.cfg.presc ≤ 512
  sjw : 1 ≤ s.cfg.sjw ∧ s.cfg.sjw ≤ 128
  seg1 : 2 ≤ s.cfg.seg1 ∧ s.cfg.seg1 ≤ 256
  seg2 : 2 ≤ s.cfg.seg2 ∧ s.cfg.seg2 ≤ 128
  nStd : s.cfg.nStd ≤ s.params.nSf ∧ s.cfg.nStd < 2 ^ s.params.gfW
  nExt : s.cfg.nExt ≤ s.params.nXf

/-- R112, R147: `BtPack(CFG.presc, CFG.sjw, CFG.seg1, CFG.seg2)` as the rule writes it, on naturals.
Outside the ranges of R112 `BtPack` is undefined (R152): the word this gives there is meaningless, DESIGN CHOICE
(notes/assumptions/22.md), and the statements use it under `ConfigOk` only. The model's own packing, `timingOf`, is `none`
there. -/
def btPack (c : Cfg) : Word :=
  BitVec.ofNat 32 ((c.seg2 - 1) ||| (c.seg1 - 1) <<< 8 ||| (c.presc - 1) <<< 16 ||| (c.sjw - 1) <<< 25)

/-- R159 to R167: how many accesses INIT makes before the first read of its exit poll, when its entry poll sees the
acknowledgment at read `k + 1`: the request, the poll, CCE, the two timing words, the flags, the filter count, the zero
fill, the release. -/
def initAccesses (s : State) (k : Nat) : Nat :=
  2 + (k + 1) + 2 + 2 + (if s.cfg.loopback then 2 else 0) + (if s.cfg.txQueueMode then 2 else 0) + 2
    + total s.params / 4 + 2

/-- R68: the address of the one word a data word stores, by the operand forms its meaning uses; `none` for a word that
stores nothing to the RAM. A payload index of 16 or more is taken as it stands, as the meaning takes it (notes/assumptions/25.md). -/
def storesAt (s : State) : Instr → Option Nat
  | .txw0 slot _ => some (txElement s slot)
  | .txw1 slot _ => some (txElement s slot + 4)
  | .payw (.tx slot k) _ _ _ _ => some (txElement s slot + 8 + 4 * k)
  | .sfw idx _ _ _ _ => some (filterAddress s idx)
  | _ => none

/-- The instructions one after another, each on the state the one before left. -/
def execAll : List Instr → State → Out
  | [], s => .next s
  | i :: is, s => andThen (exec i s) (execAll is)

/-- R23: at most one bit is set. -/
def atMostOneBit (w : Word) : Bool := w == 0 || (List.range 32).any fun k => w == 1#32 <<< k

/-- Every listed cell lies in the shared message RAM (R49). -/
def cellsInRam (p : Params) (m : Memory) : Bool :=
  m.cells.all fun c => p.ramBase ≤ c.1 && c.1 < p.ramBase + p.nInst * total p

/-- The invariant: the strap is in range (R21), the memory is in canonical form and inside the message RAM (R49, R50),
LASTREQ has at most one bit (R23), a ready block is in `Normal` with the map of its instance (R26, R170, R266) and a filter
budget INIT has checked (R158), and the sequencer is never seen in `Initializing` between steps (R170). -/
structure Inv (s : State) : Prop where
  strap : s.inst < s.params.nInst
  memWf : s.mem.wf = true
  memIn : cellsInRam s.params s.mem = true
  lastReqOneBit : atMostOneBit s.lastReq = true
  readyNormal : s.ready = true → s.seq = .normal ∧ s.map = layoutMap s.params s.inst
  readyBudget : s.ready = true → s.launch.initCfg.nStd ≤ s.params.nSf
  notInitializing : s.seq ≠ .initializing

end Sys2Proof
end

