-- ==== Sys2Proof/Certificates/Slice0/Obligations.lean ====
section
/-! DEFINITION. The statements for the provers. HW's moves (R74) are part of every state, so `afterMoves n s` is what HW
alone has made of the registers and the RAM before the block's `n`-th coming access, and a byte of the RAM is spoken of
where HW spares it (`hwSpares`). -/

open Sys2Proof Sys2Proof.Machine

/-! ### Encodings -/

/-- R91, R92: each legal command word is its command, with the operands the ports carry. -/
def Obligations.CommandWordsDecode : Prop :=
  ∀ q : Ports,
    decode [0b00000001#8] q = .ok .init ∧ decode [0b00000010#8] q = .ok .layout
    ∧ decode [0b00000011#8] q = .ok (.filtset q.fIdx q.fType q.fCfg q.fId1 q.fId2)
    ∧ decode [0b00000100#8] q = .ok (.txsend q.txId q.txDlc q.txBuf)
    ∧ decode [0b00000101#8] q = .ok (.rxfill false) ∧ decode [0b00010101#8] q = .ok (.rxfill true)
    ∧ decode [0b00000110#8] q = .ok (.rxrecv false) ∧ decode [0b00010110#8] q = .ok (.rxrecv true)

/-- R97, R98, R99, R100, R101, R103, R104: words written out from the patterns decode to their fields. The filter word
and the second RX header are the spec's own (R184, R227). That a TX word with a bit set where its row fixes 0 is refused
is the model's choice (notes/assumptions/6.md). -/
def Obligations.DataWordsDecode : Prop :=
  ∀ (p : Params) (pl : Place),
    decodeWord p .txw0 pl 0b00000100100011000000000000000000#32 = .ok (.txw0 pl.slot 0x123)
    ∧ decodeWord p .txw0 pl 0b00000100100011000000000000000001#32 = .error .fixedBits
    ∧ decodeWord p .txw1 pl 0b00000000000010000000000000000000#32 = .ok (.txw1 pl.slot 8)
    ∧ decodeWord p .payw pl 0b01000000001100000010000000010000#32 = .ok (.payw pl.pay 0x10 0x20 0x30 0x40)
    ∧ decodeWord p .rxw0 pl 0b10000100100011000000000000000000#32 = .ok (.rxw0 true 0x123)
    ∧ decodeWord p .rxw1 pl 0b00000101000010001011111011101111#32 = .ok (.rxw1 5 8 0xBEEF)
    ∧ decodeWord p .sfw pl 0b01010001001000110000010001010110#32 = .ok (.sfw pl.idx 1 2 0x123 0x456)
    ∧ decodeWord p .btw pl 0b00000110000000000011111000001111#32 =
        .ok (.btw { sjw := 3, presc := 0, seg1 := 62, seg2 := 15 })
    ∧ decodeWord p .txstat pl 0b00000000001000110000000000000000#32 = .ok (.regTxstat true 3)
    ∧ decodeWord p .rxstat0 pl 0b00000000000000000000001000000001#32 = .ok (.regRxstat0 2 1)

/-- R93, R240: an illegal command word ends at once with `IllegalCommand` and changes nothing but STATUS; every other
command word is a command. -/
def Obligations.IllegalCommandWords : Prop :=
  (∀ (s : State) (cmd : Byte) (q : Ports) (rest : List HostAct),
    paramsWf s.params = true → s.script = .issue [cmd] q :: rest → illegalWord cmd →
      step s = .next { s with script := rest, status := .illegalCommand })
  ∧ (∀ (cmd : Byte) (q : Ports), ¬ illegalWord cmd → ∃ i, decode [cmd] q = .ok i ∧ cmdOf i = some cmd)

/-- Every well-formed instruction of every row comes back from its encoding, with every operand at every value, at the
interface its row travels on (`decodeLike`). -/
def Obligations.DecodeEncodeAgree : Prop :=
  ∀ (p : Params) (i : Instr), paramsWf p = true → i.wf p = true → decodeLike p i (encode p i) = .ok i

/-- R107, R110, R113: the two TX header words, and what the RX decoder reads in them; `LenToDlc(n)` is the code with
`DlcToLen(d) = n` when one exists and is undefined otherwise. -/
def Obligations.HeaderWordsRoundTrip : Prop :=
  (∀ id : BitVec 11, (encTxW0 id).toNat = id.toNat * 2 ^ 18 ∧ rxW0Id (encTxW0 id) = id ∧ rxW0Esi (encTxW0 id) = false)
  ∧ (∀ dlc : BitVec 4, (encTxW1 dlc).toNat = dlc.toNat * 2 ^ 16 ∧ rxW1Ts (encTxW1 dlc) = 0
      ∧ rxW1Dlc (encTxW1 dlc) = dlc ∧ rxW1Fidx (encTxW1 dlc) = 0)
  ∧ (∀ (p : Params) (n : Nat), paramsWf p = true →
      (∀ d : BitVec 4, lenToDlc p n = some d ↔ dlcToLen p d = n)
      ∧ (lenToDlc p n = none ↔ ∀ d : BitVec 4, dlcToLen p d ≠ n))
  ∧ [9, 28, 36, 40, 60].all (fun n => lenToDlc psetG4 n == none) = true

/-- R111: the four fields of a filter word do not overlap and come back. -/
def Obligations.FilterWordRoundTrip : Prop :=
  ∀ (ft : BitVec 2) (fc : BitVec 3) (a b : BitVec 11),
    (filtPack ft fc a b).toNat = ft.toNat * 2 ^ 30 + fc.toNat * 2 ^ 27 + a.toNat * 2 ^ 16 + b.toNat
    ∧ field (filtPack ft fc a b) 30 2 = ft ∧ field (filtPack ft fc a b) 27 3 = fc
    ∧ field (filtPack ft fc a b) 16 11 = a ∧ field (filtPack ft fc a b) 0 11 = b

/-- R112: the timing word in the ranges, its four fields back, and no word outside the ranges. -/
def Obligations.TimingWordInvertible : Prop :=
  ∀ presc sjw seg1 seg2 : Nat,
    ((1 ≤ presc ∧ presc ≤ 512 ∧ 1 ≤ sjw ∧ sjw ≤ 128 ∧ 2 ≤ seg1 ∧ seg1 ≤ 256 ∧ 2 ≤ seg2 ∧ seg2 ≤ 128) →
      ∃ t, timingOf presc sjw seg1 seg2 = some t
        ∧ t.pack.toNat = ((seg2 - 1) ||| (seg1 - 1) <<< 8 ||| (presc - 1) <<< 16 ||| (sjw - 1) <<< 25)
        ∧ (field t.pack 16 9).toNat + 1 = presc ∧ (field t.pack 25 7).toNat + 1 = sjw
        ∧ (field t.pack 8 8).toNat + 1 = seg1 ∧ (field t.pack 0 8).toNat + 1 = seg2)
    ∧ (¬ (1 ≤ presc ∧ presc ≤ 512 ∧ 1 ≤ sjw ∧ sjw ≤ 128 ∧ 2 ≤ seg1 ∧ seg1 ≤ 256 ∧ 2 ≤ seg2 ∧ seg2 ≤ 128) →
      timingOf presc sjw seg1 seg2 = none)

/-- R108, R109, R115: a payload byte below the length comes back from its word; the bytes of the last word at or beyond
the length are 0. That bytes in words past the last one, where R108 does not define PackWord, are 0 too is the model's choice
(notes/assumptions/29.md). -/
def Obligations.PayloadBytesRecovered : Prop :=
  ∀ (buf : Vector Byte 64) (len i : Nat),
    (∀ h : i < 64, i < len → unpackByte (packWord buf (i / 4) len) (i % 4) = buf[i])
    ∧ (len ≤ i → unpackByte (packWord buf (i / 4) len) (i % 4) = 0)

/-- R116: what the rows ignore does not matter: the results of a received frame depend on the named fields and the bytes
below the length only, and the commands on the named fields of a status word only. -/
def Obligations.IgnoredBitsDoNotMatter : Prop :=
  (∀ (p : Params) (w0 w0' w1 w1' : Word) (ws ws' : List Word) (r : Results),
    field w0 18 11 = field w0' 18 11 → w0.getLsbD 31 = w0'.getLsbD 31 →
    field w1 0 16 = field w1' 0 16 → field w1 16 4 = field w1' 16 4 → field w1 24 7 = field w1' 24 7 →
    unpackPayload ws (dlcToLen p (field w1 16 4)) = unpackPayload ws' (dlcToLen p (field w1 16 4)) →
      takeFrame p w0 w1 ws r = takeFrame p w0' w1' ws' r)
  ∧ (∀ (v v' : Word) (id : BitVec 11) (dlc : BitVec 4) (buf : Vector Byte 64) (s : State),
    v.getLsbD 21 = v'.getLsbD 21 → field v 16 2 = field v' 16 2 → sendFrom v id dlc buf s = sendFrom v' id dlc buf s)
  ∧ (∀ (v v' : Word) (f : Bool) (s : State),
    field v 0 4 = field v' 0 4 → field v 8 2 = field v' 8 2 → receiveFrom v f s = receiveFrom v' f s)

/-! ### A step -/

/-- When the bytes on the command port decode to `i`, a step is `exec i`, with the presentation taken off HOST's script
and nothing else around it. There is no program counter to move (R28). -/
def Obligations.StepRunsDecodedInstruction : Prop :=
  ∀ (s : State) (bytes : List Byte) (q : Ports) (rest : List HostAct) (i : Instr),
    paramsWf s.params = true → s.script = .issue bytes q :: rest → decode bytes q = .ok i →
      step s = exec i { s with script := rest }

/-- R261, R262: the reset event leaves `SEQ = Normal` and `READY = 0` and touches neither the parameters and the strap nor
the peripheral nor the RAM; the state of a machine just reset has both values too. -/
def Obligations.ResetEventLeavesPeripheralAndRam : Prop :=
  State.reset.seq = .normal ∧ State.reset.ready = false
  ∧ ∀ (s : State) (rest : List HostAct), paramsWf s.params = true → s.script = .resetBlock :: rest →
      ∃ t, step s = .next t ∧ t.seq = .normal ∧ t.ready = false ∧ t.params = s.params ∧ t.inst = s.inst
        ∧ t.regs = s.regs ∧ t.mem = s.mem ∧ t.script = rest

/-! ### LAYOUT -/

/-- R133, R135, R140: the regions are contiguous and disjoint, their offsets rise with a strict step exactly where the
region is not empty, and their span is the sum of the sizes. -/
def Obligations.RegionsContiguous : Prop :=
  ∀ (p : Params) (i : Nat),
    layoutAt p i 0 = ibase p i
    ∧ (∀ k, k < 5 → layoutOffset p i (k + 1) = layoutOffset p i k + regionSize p k
        ∧ (layoutOffset p i k < layoutOffset p i (k + 1) ↔ 0 < regionSize p k))
    ∧ layoutOffset p i 5 + regionSize p 5 = (i + 1) * total p
    ∧ layoutOffset p i 5 + regionSize p 5 - layoutOffset p i 0 = total p
    ∧ (∀ j k, j < k → k < 6 → layoutAt p i j + regionSize p j ≤ layoutAt p i k)

/-- R141: the parts of two instances are disjoint, and so are any two of their regions. -/
def Obligations.InstancesDisjoint : Prop :=
  ∀ (p : Params) (i j : Nat), i < j →
    ibase p i + total p ≤ ibase p j
    ∧ (∀ k l, k < 6 → l < 6 → layoutAt p i k + regionSize p k ≤ layoutAt p j l)

/-- R134: MAP holds the six addresses of `Layout(INST)`, each exactly where it is below 2^32. R134 says all six are; an
empty last region whose start is 2^32 itself is the one exception (notes/assumptions/16.md). -/
def Obligations.MapHoldsLayoutAddresses : Prop :=
  ∀ (s t : State), paramsWf s.params = true → s.inst < s.params.nInst → exec .layout s = .next t →
    layoutAt s.params s.inst 5 < 2 ^ 32 →
      t.map.sf.toNat = layoutAt s.params s.inst 0 ∧ t.map.xf.toNat = layoutAt s.params s.inst 1
      ∧ t.map.rf0.toNat = layoutAt s.params s.inst 2 ∧ t.map.rf1.toNat = layoutAt s.params s.inst 3
      ∧ t.map.tef.toNat = layoutAt s.params s.inst 4 ∧ t.map.txq.toNat = layoutAt s.params s.inst 5

/-- R136, R137, R138: LAYOUT ends with `Ok` in every state: MAP stored, then every word of the instance's part written 0,
ascending; no register accessed; nothing else changed, and every byte outside the part as before. That the
model's own launch record then says, for premise P6, that LAYOUT was issued alone is the model's choice
(notes/assumptions/13.md). -/
def Obligations.LayoutResult : Prop :=
  ∀ s : State, paramsWf s.params = true → s.inst < s.params.nInst →
    ∃ t, exec .layout s = .next t
      ∧ t = { s with
          map := layoutMap s.params s.inst, status := .ok, launch := { s.launch with loneLayout := true }
          regs := (afterMoves (total s.params / 4) s).regs, mem := t.mem, hw := s.hw.drop (total s.params / 4)
          bus := (memWrites (ibase s.params s.inst) (List.replicate (total s.params / 4) 0#32)).reverse ++ s.bus }
      ∧ (∀ b, s.mem.wf = true → s.hwSpares b = true → t.mem.byte b =
          if ibase s.params s.inst ≤ b ∧ b < ibase s.params s.inst + total s.params then 0 else s.mem.byte b)

/-! ### INIT -/

/-- R157: an instance selector out of range. -/
def Obligations.InitInvalidHandle : Prop :=
  ∀ s : State, s.params.nInst ≤ s.inst → exec .init s = .next { s with status := .invalidHandle }

/-- R158: a configuration with a field unwritten or out of range. -/
def Obligations.InitBadConfig : Prop :=
  ∀ s : State, s.inst < s.params.nInst → ¬ ConfigOk s → exec .init s = .next { s with status := .badConfig }

/-- R157 to R171: where both polls see what they wait for, INIT ends with `Ok` and everything R171 lists is done; every byte
outside the instance's part, and every block register R171 does not name, is as before. Two things
are the model's choice: that HW's moves do not change NTIM, DTIM, RXACK0 and RXACK1 (notes/assumptions/15.md), and the
model's own launch record (notes/assumptions/13.md), which then says that CFG is the one INIT was given and that LAYOUT has
not been issued alone since. -/
def Obligations.InitCompletes : Prop :=
  ∀ (s : State) (k m : Nat), paramsWf s.params = true → s.inst < s.params.nInst → ConfigOk s →
    pollSees s true 2 k → pollSees s false (initAccesses s k) m →
    ∃ t, exec .init s = .next t
      ∧ t = { s with
          map := layoutMap s.params s.inst, lastReq := 0, seq := .normal, ready := true, status := .ok
          launch := { initCfg := s.cfg, loneLayout := false }
          regs := t.regs, mem := t.mem, hw := s.hw.drop (initAccesses s k + (m + 1)), bus := t.bus }
      ∧ t.regs.ntim = btPack s.cfg ∧ t.regs.dtim = btPack s.cfg ∧ t.regs.mode.getLsbD 0 = false
      ∧ t.regs.test.getLsbD 4 = (s.cfg.loopback || s.regs.test.getLsbD 4)
      ∧ t.regs.txcfg.getLsbD 24 = (s.cfg.txQueueMode || s.regs.txcfg.getLsbD 24)
      ∧ (∀ i, i < s.params.gfW → t.regs.gfilt.getLsbD (s.params.gfLsb + i) = s.cfg.nStd.testBit i)
      ∧ t.regs.rxack0 = s.regs.rxack0 ∧ t.regs.rxack1 = s.regs.rxack1
      ∧ (∀ b, s.mem.wf = true → s.hwSpares b = true → t.mem.byte b =
          if ibase s.params s.inst ≤ b ∧ b < ibase s.params s.inst + total s.params then 0 else s.mem.byte b)

/-- R159 to R167: the accesses of a completed INIT, in order, with the addresses and every word written; a
read-modify-write writes back the word read with the named bits changed. -/
def Obligations.InitAccessOrder : Prop :=
  ∀ (s t : State) (k m : Nat), paramsWf s.params = true → s.inst < s.params.nInst → ConfigOk s →
    pollSees s true 2 k → pollSees s false (initAccesses s k) m → exec .init s = .next t →
    ∃ (v0 v1 v2 v3 v4 v5 : Word) (es xs : List Word), es.length = k + 1 ∧ xs.length = m + 1
      ∧ t.bus.reverse = s.bus.reverse
        ++ [readOf s .mode v0, writeOf s .mode (v0 ||| 0x1)] ++ es.map (readOf s .mode)
        ++ [readOf s .mode v1, writeOf s .mode (v1 ||| 0x2)]
        ++ [writeOf s .ntim (btPack s.cfg), writeOf s .dtim (btPack s.cfg)]
        ++ (if s.cfg.loopback then [readOf s .test v2, writeOf s .test (v2 ||| 1#32 <<< 4)] else [])
        ++ (if s.cfg.txQueueMode then [readOf s .txcfg v3, writeOf s .txcfg (v3 ||| 1#32 <<< 24)] else [])
        ++ [readOf s .gfilt v4, writeOf s .gfilt
            ((v4 &&& ~~~(((1#32 <<< s.params.gfW) - 1#32) <<< s.params.gfLsb))
              ||| (BitVec.ofNat 32 s.cfg.nStd <<< s.params.gfLsb))]
        ++ memWrites (ibase s.params s.inst) (List.replicate (total s.params / 4) 0#32)
        ++ [readOf s .mode v5, writeOf s .mode (v5 &&& ~~~0x1)] ++ xs.map (readOf s .mode)

/-- R160, R168, R169: an entry that is not acknowledged within `T_POLL` reads. `MODE[0]` is requested 1, `SEQ` is
`RequestInit`, `READY` is 0, and the block has changed nothing else: with HW quiet only MODE differs. The
model's choice: the launch record, which takes the CFG given (notes/assumptions/13.md), and that HW does not change NTIM and
DTIM (notes/assumptions/15.md). -/
def Obligations.InitEntryTimeout : Prop :=
  ∀ (s : State) (n : Nat), paramsWf s.params = true → s.inst < s.params.nInst → ConfigOk s →
    s.params.tPoll = some n → (∀ j, j < n → ackAt s (3 + j) = false) →
    ∃ t, exec .init s = .next t
      ∧ t = { s with
          seq := .requestInit, ready := false, status := .hwFault .entry
          launch := { initCfg := s.cfg, loneLayout := false }
          regs := t.regs, mem := t.mem, hw := s.hw.drop (2 + n), bus := t.bus }
      ∧ t.regs.mode.getLsbD 0 = true ∧ t.regs.ntim = s.regs.ntim ∧ t.regs.dtim = s.regs.dtim
      ∧ t.regs.test.getLsbD 4 = s.regs.test.getLsbD 4 ∧ t.regs.txcfg.getLsbD 24 = s.regs.txcfg.getLsbD 24
      ∧ (∀ b, s.mem.wf = true → s.hwSpares b = true → t.mem.byte b = s.mem.byte b)
      ∧ (s.hwQuiet = true → t.regs = { s.regs with mode := s.regs.read .mode ||| 0x1 } ∧ t.mem = s.mem)

/-- R167, R168, R169: an exit that is not acknowledged within `T_POLL` reads. The model's choice: the launch record
(notes/assumptions/13.md), and that HW does not change NTIM and DTIM (notes/assumptions/15.md). -/
def Obligations.InitExitTimeout : Prop :=
  ∀ (s : State) (n k : Nat), paramsWf s.params = true → s.inst < s.params.nInst → ConfigOk s →
    s.params.tPoll = some n → pollSees s true 2 k → (∀ j, j < n → ackAt s (initAccesses s k + 1 + j) = true) →
    ∃ t, exec .init s = .next t
      ∧ t = { s with
          map := layoutMap s.params s.inst, lastReq := 0, seq := .configEnabled, ready := false
          status := .hwFault .exit, launch := { initCfg := s.cfg, loneLayout := false }
          regs := t.regs, mem := t.mem, hw := s.hw.drop (initAccesses s k + n), bus := t.bus }
      ∧ t.regs.ntim = btPack s.cfg ∧ t.regs.dtim = btPack s.cfg ∧ t.regs.mode.getLsbD 0 = false
      ∧ t.regs.test.getLsbD 4 = (s.cfg.loopback || s.regs.test.getLsbD 4)
      ∧ t.regs.txcfg.getLsbD 24 = (s.cfg.txQueueMode || s.regs.txcfg.getLsbD 24)
      ∧ (∀ i, i < s.params.gfW → t.regs.gfilt.getLsbD (s.params.gfLsb + i) = s.cfg.nStd.testBit i)
      ∧ (∀ b, s.mem.wf = true → s.hwSpares b = true → t.mem.byte b =
          if ibase s.params s.inst ≤ b ∧ b < ibase s.params s.inst + total s.params then 0 else s.mem.byte b)

/-- R160, R167, R277: without a bound, a handshake HW never acknowledges never ends: INIT has no next state (U5: stuck).
That the model says so by a fault of its own name is its rendering (notes/assumptions/8.md). -/
def Obligations.UnboundedPollNeverEnds : Prop :=
  (∀ s : State, s.inst < s.params.nInst → ConfigOk s → s.params.tPoll = none → (∀ j, ackAt s (3 + j) = false) →
    exec .init s = .fault (.pollNeverEnds .entry))
  ∧ (∀ (s : State) (k : Nat), paramsWf s.params = true → s.inst < s.params.nInst → ConfigOk s →
    s.params.tPoll = none → pollSees s true 2 k → (∀ j, ackAt s (initAccesses s k + 1 + j) = true) →
    exec .init s = .fault (.pollNeverEnds .exit))

/-! ### FILTSET, TXSEND, RXFILL, RXRECV -/

/-- R237 (R176, R186, R206, R210): with `READY = 0` the four commands end with `NotInitialised` and touch nothing. -/
def Obligations.NotReadyRejected : Prop :=
  ∀ s : State, s.ready = false →
    (∀ idx ft fc a b, exec (.filtset idx ft fc a b) s = .next { s with status := .notInitialised })
    ∧ (∀ id dlc buf, exec (.txsend id dlc buf) s = .next { s with status := .notInitialised })
    ∧ (∀ f, exec (.rxfill f) s = .next { s with status := .notInitialised })
    ∧ (∀ f, exec (.rxrecv f) s = .next { s with status := .notInitialised })

/-- R273, R256: a ready block whose CFG has changed since INIT: the spec gives such a run no meaning, and the four commands
are refused by name; that the refusal falls on them is the model's choice (notes/assumptions/13.md). R177: otherwise a
filter index at or beyond the budget ends with `IndexOutOfRange`, `CFG.nStd` itself included (R183). -/
def Obligations.ChangedCfgAndFiltsetIndexChecked : Prop :=
  ∀ s : State, s.ready = true →
    (s.cfg ≠ s.launch.initCfg →
      (∀ idx ft fc a b, exec (.filtset idx ft fc a b) s = .refused .cfgChangedAfterInit)
      ∧ (∀ id dlc buf, exec (.txsend id dlc buf) s = .refused .cfgChangedAfterInit)
      ∧ (∀ f, exec (.rxfill f) s = .refused .cfgChangedAfterInit)
      ∧ (∀ f, exec (.rxrecv f) s = .refused .cfgChangedAfterInit))
    ∧ (s.cfg = s.launch.initCfg → ∀ idx ft fc a b, s.cfg.nStd ≤ idx →
      exec (.filtset idx ft fc a b) s = .next { s with status := .indexOutOfRange })

/-- R178, R179, R180: the filter word at `SF_BASE + FIDX * ES_SF`, one word, and nothing else. -/
def Obligations.FiltsetStores : Prop :=
  ∀ (s : State) (idx : Nat) (ft : BitVec 2) (fc : BitVec 3) (a b : BitVec 11),
    Launched s → idx < s.cfg.nStd →
    ∃ t, exec (.filtset idx ft fc a b) s = .next t
      ∧ t = { s with
          status := .ok, regs := (hwMoves s).regs, hw := s.hw.tail
          mem := (hwMoves s).mem.setWord (filterElement s idx) (filtPack ft fc a b)
          bus := .memWrite (filterElement s idx) (filtPack ft fc a b) :: s.bus }
      ∧ (s.mem.wf = true → t.mem.word (filterElement s idx) = filtPack ft fc a b)
      ∧ (∀ c, s.mem.wf = true → s.hwSpares c = true → ¬ (filterElement s idx ≤ c ∧ c < filterElement s idx + 4) →
          t.mem.byte c = s.mem.byte c)

/-- R187, R188, under P3 of R266: the full flag in the one TXSTAT word read, whatever the put index. -/
def Obligations.TxsendQueueFull : Prop :=
  ∀ (s : State) (id : BitVec 11) (dlc : BitVec 4) (buf : Vector Byte 64), s.ready = true → s.cfg = s.launch.initCfg →
    (hwMoves s).regs.txstat.getLsbD 21 = true →
    exec (.txsend id dlc buf) s = .next { s with
      status := .queueFull, regs := (hwMoves s).regs, mem := (hwMoves s).mem, hw := s.hw.tail
      bus := readOf s .txstat (hwMoves s).regs.txstat :: s.bus }

/-- R191, under P3 of R266: a put index at or beyond the slot count, the queue not full. -/
def Obligations.TxsendSlotChecked : Prop :=
  ∀ (s : State) (id : BitVec 11) (dlc : BitVec 4) (buf : Vector Byte 64), s.ready = true → s.cfg = s.launch.initCfg →
    (hwMoves s).regs.txstat.getLsbD 21 = false → s.params.nTxq ≤ (field (hwMoves s).regs.txstat 16 2).toNat →
    exec (.txsend id dlc buf) s = .next { s with
      status := .slotOutOfRange, regs := (hwMoves s).regs, mem := (hwMoves s).mem, hw := s.hw.tail
      bus := readOf s .txstat (hwMoves s).regs.txstat :: s.bus }

/-- R187 to R198: TXSEND on a free slot: the accesses in order, the words stored, the one-hot hand-off and its record;
every other byte, register and block register as before. What the write does to TXADD and to the record of what HW is due is
the model's choice (notes/assumptions/12.md, 24.md). -/
def Obligations.TxsendResult : Prop :=
  ∀ (s : State) (id : BitVec 11) (dlc : BitVec 4) (buf : Vector Byte 64) (put : BitVec 2) (ws : List Word),
    Launched s → (hwMoves s).regs.txstat.getLsbD 21 = false → put = field (hwMoves s).regs.txstat 16 2 →
    put.toNat < s.params.nTxq → ws = txElementWords s.params id dlc buf →
    ∃ t, exec (.txsend id dlc buf) s = .next t
      ∧ t = { s with
          status := .ok, lastReq := 1#32 <<< put.toNat
          regs := (afterMoves (ws.length + 2) s).regs.write .txadd (1#32 <<< put.toNat), mem := t.mem
          hw := s.hw.drop (ws.length + 2)
          bus := writeOf s .txadd (1#32 <<< put.toNat) :: (memWrites (txSlotElement s put) ws).reverse
            ++ readOf s .txstat (hwMoves s).regs.txstat :: s.bus }
      ∧ (∀ b, s.mem.wf = true → s.hwSpares b = true →
          ¬ (txSlotElement s put ≤ b ∧ b < txSlotElement s put + 4 * ws.length) → t.mem.byte b = s.mem.byte b)

/-- R193, R194: after TXSEND the element's words are in the RAM: HW cannot have written them (R76 a). -/
def Obligations.TxsendElementInRam : Prop :=
  ∀ (s t : State) (id : BitVec 11) (dlc : BitVec 4) (buf : Vector Byte 64) (put : BitVec 2) (ws : List Word),
    Launched s → s.mem.wf = true → (hwMoves s).regs.txstat.getLsbD 21 = false →
    put = field (hwMoves s).regs.txstat 16 2 → put.toNat < s.params.nTxq → ws = txElementWords s.params id dlc buf →
    exec (.txsend id dlc buf) s = .next t →
      t.mem.words (txSlotElement s put) ws.length = ws

/-- R207, under P3 of R266: RXFILL is one read of RXSTATf; FILL receives its fill level. -/
def Obligations.RxfillResult : Prop :=
  ∀ (s : State) (f : Bool), s.ready = true → s.cfg = s.launch.initCfg →
    exec (.rxfill f) s = .next { s with
      status := .ok, res := { s.res with fill := field ((hwMoves s).regs.rxStat f) 0 4 }
      regs := (hwMoves s).regs, mem := (hwMoves s).mem, hw := s.hw.tail
      bus := readOf s (rxStatReg f) ((hwMoves s).regs.rxStat f) :: s.bus }

/-- R211, R212, under P3 of R266: fill level 0 in the one RXSTATf word read, whatever the get index. -/
def Obligations.RxrecvEmpty : Prop :=
  ∀ (s : State) (f : Bool), s.ready = true → s.cfg = s.launch.initCfg → field ((hwMoves s).regs.rxStat f) 0 4 = 0 →
    exec (.rxrecv f) s = .next { s with
      status := .empty, regs := (hwMoves s).regs, mem := (hwMoves s).mem, hw := s.hw.tail
      bus := readOf s (rxStatReg f) ((hwMoves s).regs.rxStat f) :: s.bus }

/-- R214, under P3 of R266: a get index at or beyond the slot count, the FIFO not empty. -/
def Obligations.RxrecvSlotChecked : Prop :=
  ∀ (s : State) (f : Bool), s.ready = true → s.cfg = s.launch.initCfg → field ((hwMoves s).regs.rxStat f) 0 4 ≠ 0 →
    rxSlots s.params f ≤ (field ((hwMoves s).regs.rxStat f) 8 2).toNat →
    exec (.rxrecv f) s = .next { s with
      status := .slotOutOfRange, regs := (hwMoves s).regs, mem := (hwMoves s).mem, hw := s.hw.tail
      bus := readOf s (rxStatReg f) ((hwMoves s).regs.rxStat f) :: s.bus }

/-- R211 to R224: RXRECV on a queued element: the words read in order after HW's moves, every result port, the
acknowledge. The block stores nothing to the RAM: it is what HW alone has made of it. The record of what HW is due, which the
acknowledge raises, is the model's choice (notes/assumptions/24.md). -/
def Obligations.RxrecvResult : Prop :=
  ∀ (s : State) (f : Bool) (get : BitVec 2) (w0 w1 : Word) (ws : List Word) (len : Nat),
    Launched s → field ((hwMoves s).regs.rxStat f) 0 4 ≠ 0 → get = field ((hwMoves s).regs.rxStat f) 8 2 →
    get.toNat < rxSlots s.params f →
    w0 = (afterMoves 2 s).mem.word (rxSlotElement s f get) →
    w1 = (afterMoves 3 s).mem.word (rxSlotElement s f get + 4) → len = dlcToLen s.params (field w1 16 4) →
    ws = loadedWords (rxSlotElement s f get + 8) ((len + 3) / 4) (afterMoves 3 s) →
    exec (.rxrecv f) s = .next { s with
      status := .ok
      res := { s.res with
        rxId := field w0 18 11, rxEsi := w0.getLsbD 31, rxTs := field w1 0 16, rxDlc := field w1 16 4
        rxLen := BitVec.ofNat 7 len, rxFidx := field w1 24 7, rxBuf := fillBuf s.res.rxBuf (unpackPayload ws len) }
      regs := (afterMoves ((len + 3) / 4 + 4) s).regs.write (rxAckReg f) (get.setWidth 32)
      mem := (afterMoves ((len + 3) / 4 + 4) s).mem, hw := s.hw.drop ((len + 3) / 4 + 4)
      bus := writeOf s (rxAckReg f) (get.setWidth 32) :: (memReads (rxSlotElement s f get) (w0 :: w1 :: ws)).reverse
        ++ readOf s (rxStatReg f) ((hwMoves s).regs.rxStat f) :: s.bus }

/-- R219, R220: `RXBUF` byte for byte: below the length the payload byte as the RAM holds it when its word is read, the
others as before. -/
def Obligations.RxrecvFillsBuffer : Prop :=
  ∀ (s t : State) (f : Bool) (get : BitVec 2) (len j : Nat) (hj : j < 64),
    Launched s → field ((hwMoves s).regs.rxStat f) 0 4 ≠ 0 → get = field ((hwMoves s).regs.rxStat f) 8 2 →
    get.toNat < rxSlots s.params f →
    len = dlcToLen s.params (field ((afterMoves 3 s).mem.word (rxSlotElement s f get + 4)) 16 4) →
    exec (.rxrecv f) s = .next t →
      t.res.rxBuf[j] = if j < len then (afterMoves (4 + j / 4) s).mem.byte (rxSlotElement s f get + 8 + j)
        else s.res.rxBuf[j]

/-- R203: the round trip. The words TXSEND leaves in its element, copied unchanged to an RX FIFO element and left alone by
HW until they are read, come back from RXRECV as the frame that was sent, with ESI, timestamp and filter index 0. -/
def Obligations.SendReceiveRoundTrip : Prop :=
  ∀ (s t u : State) (id : BitVec 11) (dlc : BitVec 4) (buf : Vector Byte 64) (put get : BitVec 2) (f : Bool) (n : Nat),
    Launched s → s.mem.wf = true → (hwMoves s).regs.txstat.getLsbD 21 = false →
    put = field (hwMoves s).regs.txstat 16 2 → put.toNat < s.params.nTxq → exec (.txsend id dlc buf) s = .next t →
    Launched u → u.mem.wf = true → u.params = s.params → field ((hwMoves u).regs.rxStat f) 0 4 ≠ 0 →
    get = field ((hwMoves u).regs.rxStat f) 8 2 → get.toNat < rxSlots u.params f →
    n = 2 + (dlcToLen s.params dlc + 3) / 4 →
    u.mem.words (rxSlotElement u f get) n = t.mem.words (txSlotElement s put) n →
    (∀ b, rxSlotElement u f get ≤ b → b < rxSlotElement u f get + 4 * n → u.hwSpares b = true) →
    ∃ v, exec (.rxrecv f) u = .next v ∧ v.status = .ok
      ∧ v.res.rxId = id ∧ v.res.rxDlc = dlc ∧ v.res.rxLen.toNat = dlcToLen s.params dlc
      ∧ v.res.rxEsi = false ∧ v.res.rxTs = 0 ∧ v.res.rxFidx = 0
      ∧ ∀ (i : Nat) (h : i < 64), i < dlcToLen s.params dlc → v.res.rxBuf[i] = buf[i]

/-! ### The data formats -/

/-- R97, R98, R99 with R192 to R194: the three TX words, each stored at its place in element `slot`. That a word checks no
READY, where R186 has TXSEND check it, and so is stored with READY = 0 too, is the model's choice (notes/assumptions/6.md,
28.md). -/
def Obligations.TxWordsStored : Prop :=
  ∀ (s : State) (slot : BitVec 2), Mapped s → slot.toNat < s.params.nTxq →
    (∀ id : BitVec 11, exec (.txw0 slot id) s = .next { s with
      regs := (hwMoves s).regs, hw := s.hw.tail
      mem := (hwMoves s).mem.setWord (txSlotElement s slot) (encTxW0 id)
      bus := .memWrite (txSlotElement s slot) (encTxW0 id) :: s.bus })
    ∧ (∀ dlc : BitVec 4, exec (.txw1 slot dlc) s = .next { s with
      regs := (hwMoves s).regs, hw := s.hw.tail
      mem := (hwMoves s).mem.setWord (txSlotElement s slot + 4) (encTxW1 dlc)
      bus := .memWrite (txSlotElement s slot + 4) (encTxW1 dlc) :: s.bus })
    ∧ (∀ (k : Nat) (a b c d : Byte), k < 16 → exec (.payw (.tx slot k) a b c d) s = .next { s with
      regs := (hwMoves s).regs, hw := s.hw.tail
      mem := (hwMoves s).mem.setWord (txSlotElement s slot + 8 + 4 * k) (wordOfBytes a b c d)
      bus := .memWrite (txSlotElement s slot + 8 + 4 * k) (wordOfBytes a b c d) :: s.bus })

/-- R61, R62: what a word store does to the RAM, byte by byte, and what the word reads as: little-endian. -/
def Obligations.WordStoreLittleEndian : Prop :=
  ∀ (m : Memory) (a : Nat) (w : Word), m.wf = true →
    (m.setWord a w).wf = true ∧ (m.setWord a w).word a = w
    ∧ (∀ j, j < 4 → (m.setWord a w).byte (a + j) = field w (8 * j) 8)
    ∧ (∀ b, ¬ (a ≤ b ∧ b < a + 4) → (m.setWord a w).byte b = m.byte b)

/-- R191: a TX word for a slot the queue does not have is rejected before any access. That a single word carries this check
of TXSEND, and not that of READY (R186), is the model's choice (notes/assumptions/6.md). -/
def Obligations.TxWordsSlotChecked : Prop :=
  ∀ (s : State) (slot : BitVec 2), s.params.nTxq ≤ slot.toNat →
    (∀ id : BitVec 11, exec (.txw0 slot id) s = .next { s with status := .slotOutOfRange })
    ∧ (∀ dlc : BitVec 4, exec (.txw1 slot dlc) s = .next { s with status := .slotOutOfRange })
    ∧ (∀ (k : Nat) (a b c d : Byte), exec (.payw (.tx slot k) a b c d) s = .next { s with status := .slotOutOfRange })

/-- R100, R101, R102: the RX words go to their result ports and change nothing else: a payload word's bytes below the
length to `RXBUF[4k ..]`. That a word alone does this, with no check of READY (R210), is the model's choice
(notes/assumptions/6.md). -/
def Obligations.RxWordsDecoded : Prop :=
  ∀ s : State,
    (∀ (esi : Bool) (id : BitVec 11),
      exec (.rxw0 esi id) s = .next { s with res := { s.res with rxId := id, rxEsi := esi } })
    ∧ (∀ (fidx : BitVec 7) (dlc : BitVec 4) (ts : BitVec 16),
      exec (.rxw1 fidx dlc ts) s = .next { s with res := { s.res with
        rxTs := ts, rxDlc := dlc, rxFidx := fidx, rxLen := BitVec.ofNat 7 (dlcToLen s.params dlc) } })
    ∧ (∀ (k len : Nat) (a b c d : Byte), len ≤ 64 → k < (len + 3) / 4 →
      ∃ t, exec (.payw (.rx k len) a b c d) s = .next t
        ∧ t = { s with res := { s.res with rxBuf := t.res.rxBuf } }
        ∧ ∀ (j : Nat) (h : j < 64), t.res.rxBuf[j] =
            if 4 * k ≤ j ∧ j < 4 * k + 4 ∧ j < len then [a, b, c, d].getD (j - 4 * k) 0 else s.res.rxBuf[j])

/-- R103, R179: the filter word alone, stored at its element under the budget. That the word alone carries FILTSET's checks,
`IndexOutOfRange` at or beyond the budget and the refusal under a CFG changed since INIT, and not that of READY (R176), is the
model's choice (notes/assumptions/6.md, 13.md, 28.md). -/
def Obligations.FilterWordStored : Prop :=
  ∀ (s : State) (idx : Nat) (ft : BitVec 2) (fc : BitVec 3) (a b : BitVec 11),
    ((s.ready = true → s.cfg = s.launch.initCfg) → s.cfg.nStd ≤ idx →
        exec (.sfw idx ft fc a b) s = .next { s with status := .indexOutOfRange })
    ∧ (s.ready = true → s.cfg ≠ s.launch.initCfg → exec (.sfw idx ft fc a b) s = .refused .cfgChangedAfterInit)
    ∧ (Launched s → idx < s.cfg.nStd →
        exec (.sfw idx ft fc a b) s = .next { s with
          regs := (hwMoves s).regs, hw := s.hw.tail
          mem := (hwMoves s).mem.setWord (filterElement s idx) (filtPack ft fc a b)
          bus := .memWrite (filterElement s idx) (filtPack ft fc a b) :: s.bus })

/-- R147, R148, R149: the timing word goes whole to NTIM, then the same to DTIM; each register row alone writes its own
register. For a word whose fields no configuration in range gives, where R152 leaves BtPack undefined, that it is written as
it stands is the model's choice (notes/assumptions/22.md), and so are that HW does not change NTIM before the write of DTIM
(notes/assumptions/15.md), that SEQ alone says whether configuration-change is enabled, whatever MODE.CCE (R38) is
(notes/assumptions/14.md), and what a register access does with the instance selector out of range (notes/assumptions/9.md). -/
def Obligations.TimingWordsWritten : Prop :=
  ∀ (s : State) (t : Timing), s.seq = .configEnabled →
    exec (.btw t) s = .next { s with
      regs := { (afterMoves 2 s).regs with ntim := t.pack, dtim := t.pack }, mem := (afterMoves 2 s).mem
      hw := s.hw.drop 2, bus := writeOf s .dtim t.pack :: writeOf s .ntim t.pack :: s.bus }
    ∧ exec (.regNtim t) s = .next { s with
      regs := { (hwMoves s).regs with ntim := t.pack }, mem := (hwMoves s).mem, hw := s.hw.tail
      bus := writeOf s .ntim t.pack :: s.bus }
    ∧ exec (.regDtim t) s = .next { s with
      regs := { (hwMoves s).regs with dtim := t.pack }, mem := (hwMoves s).mem, hw := s.hw.tail
      bus := writeOf s .dtim t.pack :: s.bus }

/-- A timing write outside configuration-enabled is not legal (R150) and the spec gives it no effect (R247, U15: refuse).
That the three rows are refused by name there, and that SEQ alone says where that is, whatever MODE.CCE (R38) is, is the
model's choice (notes/assumptions/14.md). -/
def Obligations.TimingWriteOutsideConfigRefused : Prop :=
  ∀ (s : State) (t : Timing), s.seq ≠ .configEnabled →
    exec (.btw t) s = .refused .timingWriteOutsideConfig
    ∧ exec (.regNtim t) s = .refused .timingWriteOutsideConfig
    ∧ exec (.regDtim t) s = .refused .timingWriteOutsideConfig

/-- R47, R37, R40, R41, R46: the four registers written by read-modify-write: one read, then the word read with the named
bits replaced and every other bit as read. That the four rows act in every SEQ is the model's choice: R246 has the modes of
MODE entered and left by INIT only (notes/assumptions/26.md), and R247 does not state what setting the others does outside
configuration-enabled (notes/assumptions/23.md). So is a register access with the instance selector out of range
(notes/assumptions/9.md). -/
def Obligations.FieldRegistersWritten : Prop :=
  ∀ (s : State) (v : Word),
    (∀ cce ini : Bool, v = (hwMoves s).regs.read .mode →
      ∃ w, exec (.regMode cce ini) s = .next { s with
          regs := { (afterMoves 2 s).regs with mode := w }, mem := (afterMoves 2 s).mem, hw := s.hw.drop 2
          bus := writeOf s .mode w :: readOf s .mode v :: s.bus }
        ∧ ∀ i, w.getLsbD i = if i = 0 then ini else if i = 1 then cce else v.getLsbD i)
    ∧ (∀ l : Bool, v = (hwMoves s).regs.test →
      ∃ w, exec (.regTest l) s = .next { s with
          regs := { (afterMoves 2 s).regs with test := w }, mem := (afterMoves 2 s).mem, hw := s.hw.drop 2
          bus := writeOf s .test w :: readOf s .test v :: s.bus }
        ∧ ∀ i, w.getLsbD i = if i = 4 then l else v.getLsbD i)
    ∧ (∀ q : Bool, v = (hwMoves s).regs.txcfg →
      ∃ w, exec (.regTxcfg q) s = .next { s with
          regs := { (afterMoves 2 s).regs with txcfg := w }, mem := (afterMoves 2 s).mem, hw := s.hw.drop 2
          bus := writeOf s .txcfg w :: readOf s .txcfg v :: s.bus }
        ∧ ∀ i, w.getLsbD i = if i = 24 then q else v.getLsbD i)
    ∧ (∀ n : Word, v = (hwMoves s).regs.gfilt → s.params.gfLsb + s.params.gfW ≤ 32 → n.toNat < 2 ^ s.params.gfW →
      ∃ w, exec (.regGfilt n) s = .next { s with
          regs := { (afterMoves 2 s).regs with gfilt := w }, mem := (afterMoves 2 s).mem, hw := s.hw.drop 2
          bus := writeOf s .gfilt w :: readOf s .gfilt v :: s.bus }
        ∧ ∀ i, w.getLsbD i =
            if s.params.gfLsb ≤ i ∧ i < s.params.gfLsb + s.params.gfW then n.getLsbD (i - s.params.gfLsb)
            else v.getLsbD i)

/-- R43, R45: the add-request register sets the bits written 1 and leaves the others; the acknowledge registers take the
whole word. Each leaves HW due to answer it (R76 d), in the model's own record (notes/assumptions/24.md). The model's
choice: write-one-to-set (notes/assumptions/12.md), that bits and indexes of no slot are taken as they stand
(notes/assumptions/27.md), and a register access with the instance selector out of range (notes/assumptions/9.md). -/
def Obligations.HandOverRegistersWritten : Prop :=
  ∀ (s : State) (w : Word),
    exec (.regTxadd w) s = .next { s with
      regs := { (hwMoves s).regs with
        txadd := (hwMoves s).regs.txadd ||| w
        duty := { (hwMoves s).regs.duty with putDue := (hwMoves s).regs.duty.putDue + requestCount w } }
      mem := (hwMoves s).mem, hw := s.hw.tail, bus := writeOf s .txadd w :: s.bus }
    ∧ exec (.regRxack0 w) s = .next { s with
      regs := { (hwMoves s).regs with
        rxack0 := w, duty := { (hwMoves s).regs.duty with getDue0 := (hwMoves s).regs.duty.getDue0 + 1 } }
      mem := (hwMoves s).mem, hw := s.hw.tail
      bus := writeOf s .rxack0 w :: s.bus }
    ∧ exec (.regRxack1 w) s = .next { s with
      regs := { (hwMoves s).regs with
        rxack1 := w, duty := { (hwMoves s).regs.duty with getDue1 := (hwMoves s).regs.duty.getDue1 + 1 } }
      mem := (hwMoves s).mem, hw := s.hw.tail
      bus := writeOf s .rxack1 w :: s.bus }

/-- R42, R44, R75: one read of a status register that returns the given fields, the bits the row does not name as HW
has them; the block changes nothing. `d` is the model's record of what R76 lets HW do (notes/assumptions/24.md).
The model's choice: that HW presents the row's fields at this read (notes/assumptions/6.md), and a register access with the
instance selector out of range (notes/assumptions/9.md). -/
def Obligations.StatusRegistersRead : Prop :=
  ∀ s : State,
    (∀ (full : Bool) (put : BitVec 2), ∃ w d,
      exec (.regTxstat full put) s = .next { s with
        regs := { (hwMoves s).regs with txstat := w, duty := d }, mem := (hwMoves s).mem, hw := s.hw.tail
        bus := readOf s .txstat w :: s.bus }
      ∧ w.getLsbD 21 = full ∧ field w 16 2 = put
      ∧ ∀ i, i ≠ 21 → ¬ (16 ≤ i ∧ i < 18) → w.getLsbD i = (hwMoves s).regs.txstat.getLsbD i)
    ∧ (∀ (get : BitVec 2) (fill : BitVec 4), ∃ w d,
      exec (.regRxstat0 get fill) s = .next { s with
        regs := { (hwMoves s).regs with rxstat0 := w, duty := d }, mem := (hwMoves s).mem, hw := s.hw.tail
        bus := readOf s .rxstat0 w :: s.bus }
      ∧ field w 8 2 = get ∧ field w 0 4 = fill
      ∧ ∀ i, ¬ (8 ≤ i ∧ i < 10) → ¬ i < 4 → w.getLsbD i = (hwMoves s).regs.rxstat0.getLsbD i)
    ∧ (∀ (get : BitVec 2) (fill : BitVec 4), ∃ w d,
      exec (.regRxstat1 get fill) s = .next { s with
        regs := { (hwMoves s).regs with rxstat1 := w, duty := d }, mem := (hwMoves s).mem, hw := s.hw.tail
        bus := readOf s .rxstat1 w :: s.bus }
      ∧ field w 8 2 = get ∧ field w 0 4 = fill
      ∧ ∀ i, ¬ (8 ≤ i ∧ i < 10) → ¬ i < 4 → w.getLsbD i = (hwMoves s).regs.rxstat1.getLsbD i)

/-- The RAM frame of the nineteen data words: a word that stores changes the four bytes at its own address only, the
others change no byte, wherever HW lets the byte be. Where a payload word with an index above 15 goes, and where a word goes with
READY = 0, is the model's choice (notes/assumptions/25.md, 28.md). -/
def Obligations.DataWordFrames : Prop :=
  ∀ (i : Instr) (s t : State) (b : Nat), (formatOf i).isSome = true → paramsWf s.params = true → s.mem.wf = true →
    s.hwSpares b = true → exec i s = .next t → (∀ a, storesAt s i = some a → ¬ (a ≤ b ∧ b < a + 4)) →
      t.mem.byte b = s.mem.byte b

/-! ### The commands are their words -/

/-- R197: TXSEND on a free slot is the read of TXSTAT, the words TXW0, TXW1, PAYW ascending and the write of TXADD, one
after another, and then the record in LASTREQ and the outcome. -/
def Obligations.TxsendIsItsWords : Prop :=
  ∀ (s : State) (id : BitVec 11) (dlc : BitVec 4) (buf : Vector Byte 64) (put : BitVec 2) (len : Nat),
    Launched s → (hwMoves s).regs.txstat.getLsbD 21 = false → put = field (hwMoves s).regs.txstat 16 2 →
    put.toNat < s.params.nTxq → len = dlcToLen s.params dlc →
    ∃ t, execAll (.regTxstat false put :: .txw0 put id :: .txw1 put dlc ::
          ((List.range (ceil4 len)).map fun k => Instr.payw (.tx put k) (paddedByte buf len (4 * k))
            (paddedByte buf len (4 * k + 1)) (paddedByte buf len (4 * k + 2)) (paddedByte buf len (4 * k + 3)))
          ++ [.regTxadd (1#32 <<< put.toNat)]) s = .next t
      ∧ exec (.txsend id dlc buf) s = .next { t with lastReq := 1#32 <<< put.toNat, status := .ok }

/-- R224: what RXRECV delivers is what the words RXW0, RXW1, PAYW of the element deliver one after another. -/
def Obligations.RxrecvIsItsWords : Prop :=
  ∀ (s t u : State) (f : Bool) (get : BitVec 2) (w0 w1 : Word) (ws : List Word) (len : Nat),
    Launched s → field ((hwMoves s).regs.rxStat f) 0 4 ≠ 0 → get = field ((hwMoves s).regs.rxStat f) 8 2 →
    get.toNat < rxSlots s.params f → w0 = (afterMoves 2 s).mem.word (rxSlotElement s f get) →
    w1 = (afterMoves 3 s).mem.word (rxSlotElement s f get + 4) → len = dlcToLen s.params (field w1 16 4) →
    ws = loadedWords (rxSlotElement s f get + 8) (ceil4 len) (afterMoves 3 s) →
    exec (.rxrecv f) s = .next t →
    execAll (.rxw0 (w0.getLsbD 31) (field w0 18 11) :: .rxw1 (field w1 24 7) (field w1 16 4) (field w1 0 16) ::
      (List.range (ceil4 len)).map fun k => Instr.payw (.rx k len) (unpackByte (ws.getD k 0) 0)
        (unpackByte (ws.getD k 0) 1) (unpackByte (ws.getD k 0) 2) (unpackByte (ws.getD k 0) 3)) s = .next u →
      t.res = u.res

/-- R162, R178: step 3b of INIT is the word BTW, which is the word NTIM and then the word DTIM; FILTSET on an admitted
index is the word SFW and then the outcome. For a timing word with fields out of range that both sides run is the model's
choice (notes/assumptions/22.md, R152), and so is that SEQ alone gates the timing words (notes/assumptions/14.md). -/
def Obligations.TimingAndFilterAreTheirWords : Prop :=
  (∀ (s : State) (t : Timing), s.seq = .configEnabled →
    exec (.btw t) s = .next (btSet t s) ∧ execAll [.regNtim t, .regDtim t] s = .next (btSet t s))
  ∧ (∀ (s u : State) (idx : Nat) (ft : BitVec 2) (fc : BitVec 3) (a b : BitVec 11), s.ready = true →
    idx < s.cfg.nStd → exec (.sfw idx ft fc a b) s = .next u →
      exec (.filtset idx ft fc a b) s = .next { u with status := .ok })

/-! ### The environment -/

/-- R74: HW has no access to the block's registers, to the ports or to HOST's script: its moves change the register
surface, the RAM and its own schedule. -/
def Obligations.HardwareKeepsBlockState : Prop :=
  ∀ (n : Nat) (s : State),
    afterMoves n s = { s with regs := (afterMoves n s).regs, mem := (afterMoves n s).mem, hw := s.hw.drop n }

/-- R76. (a), (e): no move of HW writes the filter lists or the TX region of the instance, or changes the block's bit of
MODE, TEST, TXCFG, the count field of GFILT, or CCE while the block requests initialization mode. That HW never changes a
timing or an acknowledge register is the model's choice (notes/assumptions/15.md, 18.md). (d): a move that keeps R76 moves an
index, or lowers a fill level, only where a request is due, and answers one. (b): from a state in which no acknowledge of
FIFO `f` is due, while HW keeps R76 the element at the get index is stable. The record `duty` by which this is said is the
model's own (notes/assumptions/24.md). -/
def Obligations.HardwareSparesBlockRegions : Prop :=
  ∀ (s : State), paramsWf s.params = true →
    (∀ b, (layoutAt s.params s.inst 0 ≤ b ∧ b < layoutAt s.params s.inst 2)
        ∨ (layoutAt s.params s.inst 5 ≤ b ∧ b < ibase s.params s.inst + total s.params) → s.hwSpares b = true)
    ∧ (∀ b n, s.mem.wf = true → s.hwSpares b = true → (afterMoves n s).mem.byte b = s.mem.byte b)
    ∧ (∀ n, (afterMoves n s).regs.mode.getLsbD 0 = s.regs.mode.getLsbD 0
        ∧ (s.regs.mode.getLsbD 0 = true → (afterMoves n s).regs.mode.getLsbD 1 = s.regs.mode.getLsbD 1)
        ∧ (afterMoves n s).regs.test.getLsbD 4 = s.regs.test.getLsbD 4
        ∧ (afterMoves n s).regs.txcfg.getLsbD 24 = s.regs.txcfg.getLsbD 24
        ∧ (afterMoves n s).regs.ntim = s.regs.ntim ∧ (afterMoves n s).regs.dtim = s.regs.dtim
        ∧ (afterMoves n s).regs.rxack0 = s.regs.rxack0 ∧ (afterMoves n s).regs.rxack1 = s.regs.rxack1
        ∧ ∀ i, s.params.gfLsb ≤ i → i < s.params.gfLsb + s.params.gfW →
            (afterMoves n s).regs.gfilt.getLsbD i = s.regs.gfilt.getLsbD i)
    ∧ (∀ (x : HwAct) (t : State), t = hwAct s x → t.regs.duty.kept = true → s.regs.duty.kept = true
        ∧ (field t.regs.txstat 16 2 ≠ field s.regs.txstat 16 2 → t.regs.duty.putDue + 1 = s.regs.duty.putDue)
        ∧ ∀ f : Bool, (field (t.regs.rxStat f) 8 2 ≠ field (s.regs.rxStat f) 8 2
            ∨ (field (t.regs.rxStat f) 0 4).toNat < (field (s.regs.rxStat f) 0 4).toNat) →
              t.regs.duty.getDue f + 1 = s.regs.duty.getDue f)
    ∧ (∀ (n : Nat) (f : Bool) (get : BitVec 2) (b : Nat), s.inst < s.params.nInst → s.mem.wf = true →
        get = field (s.regs.rxStat f) 8 2 → get.toNat < rxSlots s.params f → field (s.regs.rxStat f) 0 4 ≠ 0 →
        s.regs.duty.getDue f = 0 → (afterMoves n s).regs.duty.kept = true →
        rxSlotElement s f get ≤ b → b < rxSlotElement s f get + rxElemSize s.params f →
          field ((afterMoves n s).regs.rxStat f) 8 2 = get ∧ (afterMoves n s).mem.byte b = s.mem.byte b)

/-- R78 (the spec's general knowledge, notes/assumptions/10.md): when HW frees the acknowledged slot `idx` of a FIFO that
holds an element, the get index becomes `(idx + 1) mod N` and the fill level drops by 1; nothing else changes but the
model's record `d` of what R76 lets HW do. -/
def Obligations.AcknowledgeAdvancesFifo : Prop :=
  ∀ (s : State) (f : Bool), paramsWf s.params = true → 0 < rxSlots s.params f → rxSlots s.params f ≤ 4 →
    field (s.regs.rxStat f) 0 4 ≠ 0 → (s.regs.rxAck f).toNat < rxSlots s.params f →
    ∃ w d, hwAct s (.takeAck f) = { s with regs := { s.regs.setRxStat f w with duty := d } }
      ∧ (field w 8 2).toNat = ((s.regs.rxAck f).toNat + 1) % rxSlots s.params f
      ∧ (field w 0 4).toNat + 1 = (field (s.regs.rxStat f) 0 4).toNat
      ∧ ∀ i, ¬ (8 ≤ i ∧ i < 10) → ¬ i < 4 → w.getLsbD i = (s.regs.rxStat f).getLsbD i

/-- R252 (the spec's reading of the loopback scenario, notes/assumptions/11.md): under loopback a pending TX element is
copied to the next free slot of FIFO `f` with filter index `k`, the fill level rises by 1 and the request is cleared. R252
names no timestamp and no error-state flag: they are whatever the move gives. -/
def Obligations.LoopbackDelivers : Prop :=
  ∀ (s : State) (slot : BitVec 2) (f : Bool) (k : BitVec 7) (ts : BitVec 16) (esi : Bool) (e d : Nat),
    paramsWf s.params = true → s.mem.wf = true → s.regs.test.getLsbD 4 = true →
    s.regs.txadd.getLsbD slot.toNat = true → slot.toNat < s.params.nTxq →
    (field (s.regs.rxStat f) 0 4).toNat < rxSlots s.params f → (field (s.regs.rxStat f) 0 4).toNat < 15 →
    e = txSlotElement s slot →
    d = layoutAt s.params s.inst (rxRegion f)
      + ((field (s.regs.rxStat f) 8 2).toNat + (field (s.regs.rxStat f) 0 4).toNat) % rxSlots s.params f
        * rxElemSize s.params f →
    ∃ t, hwAct s (.loopback slot f k ts esi) = t
      ∧ (t.mem.word d).getLsbD 31 = esi
      ∧ field (t.mem.word d) 18 11 = field (s.mem.word e) 18 11
      ∧ field (t.mem.word (d + 4)) 16 4 = field (s.mem.word (e + 4)) 16 4
      ∧ field (t.mem.word (d + 4)) 24 7 = k ∧ field (t.mem.word (d + 4)) 0 16 = ts
      ∧ (∀ j, j < ceil4 (dlcToLen s.params (field (s.mem.word (e + 4)) 16 4)) →
          t.mem.word (d + 8 + 4 * j) = s.mem.word (e + 8 + 4 * j))
      ∧ (field (t.regs.rxStat f) 0 4).toNat = (field (s.regs.rxStat f) 0 4).toNat + 1
      ∧ t.regs.txadd = s.regs.txadd &&& ~~~(1#32 <<< slot.toNat)

/-! ### The whole machine -/

/-- The invariant holds right after reset. The strap, the empty memory and LASTREQ = 0 are the model's choice
(notes/assumptions/1.md, 2.md, 4.md); SEQ and READY are R261's. -/
def Obligations.ResetMeetsInv : Prop := Inv State.reset

/-- The invariant is kept by every step, from every state that meets it, whatever HOST presents and HW does: the memory
stays canonical and inside the message RAM (R49, R50), LASTREQ has at most one bit (R23), a ready block is in `Normal`
with its own map (R26, R170) and a filter budget within the region (R158), `Initializing` is never seen between steps. -/
def Obligations.StepKeepsInv : Prop :=
  ∀ s t : State, Inv s → step s = .next t → Inv t

/-- R27, R21, R7: who writes the block's registers: no command writes the strap, the parameters or CFG; MAP only LAYOUT
and INIT; LASTREQ only TXSEND and INIT; SEQ and READY only INIT. R24, R80: CFG is HOST's: its act sets the one field it
names, which then counts as written, and changes nothing else. The model's own launch record (notes/assumptions/13.md)
only LAYOUT and INIT. -/
def Obligations.BlockRegisterWriters : Prop :=
  (∀ (i : Instr) (s t : State), exec i s = .next t →
    t.params = s.params ∧ t.inst = s.inst ∧ t.cfg = s.cfg ∧ t.cfgWritten = s.cfgWritten ∧ t.script = s.script
    ∧ (i ≠ .layout → i ≠ .init → t.map = s.map ∧ t.launch = s.launch)
    ∧ ((∀ id dlc buf, i ≠ .txsend id dlc buf) → i ≠ .init → t.lastReq = s.lastReq)
    ∧ (i ≠ .init → t.seq = s.seq ∧ t.ready = s.ready))
  ∧ (∀ (s : State) (w : CfgWrite) (rest : List HostAct), paramsWf s.params = true → s.script = .setCfg w :: rest →
    ∃ c d, step s = .next { s with script := rest, cfg := c, cfgWritten := d }
      ∧ (∀ b, w = .loopback b →
          c = { s.cfg with loopback := b } ∧ d = { s.cfgWritten with loopback := true })
      ∧ (∀ n, w = .presc n → c = { s.cfg with presc := n } ∧ d = { s.cfgWritten with presc := true })
      ∧ (∀ n, w = .sjw n → c = { s.cfg with sjw := n } ∧ d = { s.cfgWritten with sjw := true })
      ∧ (∀ n, w = .seg1 n → c = { s.cfg with seg1 := n } ∧ d = { s.cfgWritten with seg1 := true })
      ∧ (∀ n, w = .seg2 n → c = { s.cfg with seg2 := n } ∧ d = { s.cfgWritten with seg2 := true })
      ∧ (∀ n, w = .nStd n → c = { s.cfg with nStd := n } ∧ d = { s.cfgWritten with nStd := true })
      ∧ (∀ n, w = .nExt n → c = { s.cfg with nExt := n } ∧ d = { s.cfgWritten with nExt := true })
      ∧ (∀ b, w = .txQueueMode b →
          c = { s.cfg with txQueueMode := b } ∧ d = { s.cfgWritten with txQueueMode := true }))

/-- R31: who writes the result ports, of the commands: FILL only RXFILL, the others only RXRECV; R225, R243: an outcome
other than `Ok` writes none of them; R231, R138, R172, R199, R225: STATUS is one of the outcomes the table lets that
command raise (`outcomesOf`). -/
def Obligations.ResultPortWriters : Prop :=
  ∀ (i : Instr) (s t : State), (cmdOf i).isSome = true → exec i s = .next t →
    ((∀ f, i ≠ .rxfill f) → t.res.fill = s.res.fill)
    ∧ ((∀ f, i ≠ .rxrecv f) → t.res = { s.res with fill := t.res.fill })
    ∧ (t.status ≠ .ok → t.res = s.res)
    ∧ t.status ∈ outcomesOf i

/-- R150, R247: the timing registers are written by INIT and by no other command. That they then keep their values while HW
moves is the model's choice: HW never changes NTIM or DTIM (notes/assumptions/15.md). -/
def Obligations.TimingRegistersOnlyByInit : Prop :=
  ∀ (i : Instr) (s t : State), (cmdOf i).isSome = true → i ≠ .init → exec i s = .next t →
    t.regs.ntim = s.regs.ntim ∧ t.regs.dtim = s.regs.dtim

/-- R84: no instruction of this instance, and no move of its HW, changes a byte of another instance's part of the RAM: a
byte changes there only where a scheduled move of that other instance writes it. -/
def Obligations.InstanceIsolation : Prop :=
  ∀ (i : Instr) (s t : State) (b : Nat), paramsWf s.params = true → s.inst < s.params.nInst → s.mem.wf = true →
    ¬ (ibase s.params s.inst ≤ b ∧ b < ibase s.params s.inst + total s.params) →
    (∀ x ∈ s.hw, ∀ y ∈ x, ∀ a w, y = .other a w → ¬ (a ≤ b ∧ b < a + 4)) →
    exec i s = .next t → t.mem.byte b = s.mem.byte b

/-- R243: an outcome other than `Ok` and `HwFault` is precise: the block, the registers and the RAM are as HW alone has
left them, apart from STATUS, and every access made was a read. -/
def Obligations.OutcomesPrecise : Prop :=
  ∀ (i : Instr) (s t : State), (cmdOf i).isSome = true → exec i s = .next t → t.status ≠ .ok →
    (∀ w, t.status ≠ .hwFault w) →
    ∃ (n : Nat) (xs : List Access), t = { afterMoves n s with status := t.status, bus := xs ++ s.bus }
      ∧ xs.length = n ∧ ∀ x ∈ xs, ∃ a v, x = .regRead a v
end

