-- ==== Sys2Proof/Laws/State.lean ====
section
/-! SUPPORT. One lemma per field per update: what each shared operation leaves of each field of `State`, so that no later
proof unfolds a record update. -/

namespace Sys2Proof.Machine

/-! ### One move of HW -/

@[simp] theorem hwAct_params (s : State) (x : HwAct) : (hwAct s x).params = s.params := rfl
@[simp] theorem hwAct_inst (s : State) (x : HwAct) : (hwAct s x).inst = s.inst := rfl
@[simp] theorem hwAct_cfg (s : State) (x : HwAct) : (hwAct s x).cfg = s.cfg := rfl
@[simp] theorem hwAct_cfgWritten (s : State) (x : HwAct) : (hwAct s x).cfgWritten = s.cfgWritten := rfl
@[simp] theorem hwAct_map (s : State) (x : HwAct) : (hwAct s x).map = s.map := rfl
@[simp] theorem hwAct_lastReq (s : State) (x : HwAct) : (hwAct s x).lastReq = s.lastReq := rfl
@[simp] theorem hwAct_launch (s : State) (x : HwAct) : (hwAct s x).launch = s.launch := rfl
@[simp] theorem hwAct_seq (s : State) (x : HwAct) : (hwAct s x).seq = s.seq := rfl
@[simp] theorem hwAct_ready (s : State) (x : HwAct) : (hwAct s x).ready = s.ready := rfl
@[simp] theorem hwAct_status (s : State) (x : HwAct) : (hwAct s x).status = s.status := rfl
@[simp] theorem hwAct_res (s : State) (x : HwAct) : (hwAct s x).res = s.res := rfl
@[simp] theorem hwAct_script (s : State) (x : HwAct) : (hwAct s x).script = s.script := rfl
@[simp] theorem hwAct_hw (s : State) (x : HwAct) : (hwAct s x).hw = s.hw := rfl
@[simp] theorem hwAct_bus (s : State) (x : HwAct) : (hwAct s x).bus = s.bus := rfl
@[simp] theorem hwAct_regs (s : State) (x : HwAct) : (hwAct s x).regs = hwRegs s.params x s.regs := rfl
@[simp] theorem hwAct_mem (s : State) (x : HwAct) : (hwAct s x).mem = hwMem s.params s.inst x s.regs s.mem := rfl

/-! ### HW's moves before one access -/

/-- A batch of HW's moves changes the register surface and the RAM and nothing else (R74). -/
theorem foldl_hwAct_eq (b : List HwAct) (s : State) :
    b.foldl hwAct s = { s with regs := (b.foldl hwAct s).regs, mem := (b.foldl hwAct s).mem } := by
  induction b generalizing s with
  | nil => rfl
  | cons x b ih => rw [List.foldl_cons, ih]; rfl

/-- HW's moves change the register surface, the RAM and the schedule and nothing else (R74). -/
theorem hwMoves_eq (s : State) :
    hwMoves s = { s with regs := (hwMoves s).regs, mem := (hwMoves s).mem, hw := s.hw.tail } := by
  unfold hwMoves
  split
  · rename_i h; cases s; simp_all
  · rename_i b rest h
    rw [foldl_hwAct_eq]; simp [h]

@[simp] theorem hwMoves_hw (s : State) : (hwMoves s).hw = s.hw.tail := by rw [hwMoves_eq]
@[simp] theorem hwMoves_params (s : State) : (hwMoves s).params = s.params := by rw [hwMoves_eq]
@[simp] theorem hwMoves_inst (s : State) : (hwMoves s).inst = s.inst := by rw [hwMoves_eq]
@[simp] theorem hwMoves_cfg (s : State) : (hwMoves s).cfg = s.cfg := by rw [hwMoves_eq]
@[simp] theorem hwMoves_cfgWritten (s : State) : (hwMoves s).cfgWritten = s.cfgWritten := by rw [hwMoves_eq]
@[simp] theorem hwMoves_map (s : State) : (hwMoves s).map = s.map := by rw [hwMoves_eq]
@[simp] theorem hwMoves_lastReq (s : State) : (hwMoves s).lastReq = s.lastReq := by rw [hwMoves_eq]
@[simp] theorem hwMoves_launch (s : State) : (hwMoves s).launch = s.launch := by rw [hwMoves_eq]
@[simp] theorem hwMoves_seq (s : State) : (hwMoves s).seq = s.seq := by rw [hwMoves_eq]
@[simp] theorem hwMoves_ready (s : State) : (hwMoves s).ready = s.ready := by rw [hwMoves_eq]
@[simp] theorem hwMoves_status (s : State) : (hwMoves s).status = s.status := by rw [hwMoves_eq]
@[simp] theorem hwMoves_res (s : State) : (hwMoves s).res = s.res := by rw [hwMoves_eq]
@[simp] theorem hwMoves_script (s : State) : (hwMoves s).script = s.script := by rw [hwMoves_eq]
@[simp] theorem hwMoves_bus (s : State) : (hwMoves s).bus = s.bus := by rw [hwMoves_eq]

/-! ### HW's moves before several accesses -/

@[simp] theorem afterMoves_zero (s : State) : afterMoves 0 s = s := rfl
theorem afterMoves_succ (n : Nat) (s : State) : afterMoves (n + 1) s = afterMoves n (hwMoves s) := rfl

@[simp] theorem afterMoves_hw (n : Nat) (s : State) : (afterMoves n s).hw = s.hw.drop n := by
  induction n generalizing s with
  | zero => rfl
  | succ n ih => simp [afterMoves_succ, ih]
@[simp] theorem afterMoves_params (n : Nat) (s : State) : (afterMoves n s).params = s.params := by
  induction n generalizing s with
  | zero => rfl
  | succ n ih => simp [afterMoves_succ, ih]
@[simp] theorem afterMoves_inst (n : Nat) (s : State) : (afterMoves n s).inst = s.inst := by
  induction n generalizing s with
  | zero => rfl
  | succ n ih => simp [afterMoves_succ, ih]
@[simp] theorem afterMoves_cfg (n : Nat) (s : State) : (afterMoves n s).cfg = s.cfg := by
  induction n generalizing s with
  | zero => rfl
  | succ n ih => simp [afterMoves_succ, ih]
@[simp] theorem afterMoves_cfgWritten (n : Nat) (s : State) : (afterMoves n s).cfgWritten = s.cfgWritten := by
  induction n generalizing s with
  | zero => rfl
  | succ n ih => simp [afterMoves_succ, ih]
@[simp] theorem afterMoves_map (n : Nat) (s : State) : (afterMoves n s).map = s.map := by
  induction n generalizing s with
  | zero => rfl
  | succ n ih => simp [afterMoves_succ, ih]
@[simp] theorem afterMoves_lastReq (n : Nat) (s : State) : (afterMoves n s).lastReq = s.lastReq := by
  induction n generalizing s with
  | zero => rfl
  | succ n ih => simp [afterMoves_succ, ih]
@[simp] theorem afterMoves_launch (n : Nat) (s : State) : (afterMoves n s).launch = s.launch := by
  induction n generalizing s with
  | zero => rfl
  | succ n ih => simp [afterMoves_succ, ih]
@[simp] theorem afterMoves_seq (n : Nat) (s : State) : (afterMoves n s).seq = s.seq := by
  induction n generalizing s with
  | zero => rfl
  | succ n ih => simp [afterMoves_succ, ih]
@[simp] theorem afterMoves_ready (n : Nat) (s : State) : (afterMoves n s).ready = s.ready := by
  induction n generalizing s with
  | zero => rfl
  | succ n ih => simp [afterMoves_succ, ih]
@[simp] theorem afterMoves_status (n : Nat) (s : State) : (afterMoves n s).status = s.status := by
  induction n generalizing s with
  | zero => rfl
  | succ n ih => simp [afterMoves_succ, ih]
@[simp] theorem afterMoves_res (n : Nat) (s : State) : (afterMoves n s).res = s.res := by
  induction n generalizing s with
  | zero => rfl
  | succ n ih => simp [afterMoves_succ, ih]
@[simp] theorem afterMoves_script (n : Nat) (s : State) : (afterMoves n s).script = s.script := by
  induction n generalizing s with
  | zero => rfl
  | succ n ih => simp [afterMoves_succ, ih]
@[simp] theorem afterMoves_bus (n : Nat) (s : State) : (afterMoves n s).bus = s.bus := by
  induction n generalizing s with
  | zero => rfl
  | succ n ih => simp [afterMoves_succ, ih]

/-! ### The setters -/

@[simp] theorem logAccess_params (x : Access) (s : State) : (logAccess x s).params = s.params := rfl
@[simp] theorem logAccess_inst (x : Access) (s : State) : (logAccess x s).inst = s.inst := rfl
@[simp] theorem logAccess_cfg (x : Access) (s : State) : (logAccess x s).cfg = s.cfg := rfl
@[simp] theorem logAccess_cfgWritten (x : Access) (s : State) : (logAccess x s).cfgWritten = s.cfgWritten := rfl
@[simp] theorem logAccess_map (x : Access) (s : State) : (logAccess x s).map = s.map := rfl
@[simp] theorem logAccess_lastReq (x : Access) (s : State) : (logAccess x s).lastReq = s.lastReq := rfl
@[simp] theorem logAccess_launch (x : Access) (s : State) : (logAccess x s).launch = s.launch := rfl
@[simp] theorem logAccess_seq (x : Access) (s : State) : (logAccess x s).seq = s.seq := rfl
@[simp] theorem logAccess_ready (x : Access) (s : State) : (logAccess x s).ready = s.ready := rfl
@[simp] theorem logAccess_status (x : Access) (s : State) : (logAccess x s).status = s.status := rfl
@[simp] theorem logAccess_res (x : Access) (s : State) : (logAccess x s).res = s.res := rfl
@[simp] theorem logAccess_script (x : Access) (s : State) : (logAccess x s).script = s.script := rfl
@[simp] theorem logAccess_regs (x : Access) (s : State) : (logAccess x s).regs = s.regs := rfl
@[simp] theorem logAccess_mem (x : Access) (s : State) : (logAccess x s).mem = s.mem := rfl
@[simp] theorem logAccess_hw (x : Access) (s : State) : (logAccess x s).hw = s.hw := rfl
@[simp] theorem logAccess_bus (x : Access) (s : State) : (logAccess x s).bus = x :: s.bus := rfl
@[simp] theorem setRegs_params (g : Regs) (s : State) : (setRegs g s).params = s.params := rfl
@[simp] theorem setRegs_inst (g : Regs) (s : State) : (setRegs g s).inst = s.inst := rfl
@[simp] theorem setRegs_cfg (g : Regs) (s : State) : (setRegs g s).cfg = s.cfg := rfl
@[simp] theorem setRegs_cfgWritten (g : Regs) (s : State) : (setRegs g s).cfgWritten = s.cfgWritten := rfl
@[simp] theorem setRegs_map (g : Regs) (s : State) : (setRegs g s).map = s.map := rfl
@[simp] theorem setRegs_lastReq (g : Regs) (s : State) : (setRegs g s).lastReq = s.lastReq := rfl
@[simp] theorem setRegs_launch (g : Regs) (s : State) : (setRegs g s).launch = s.launch := rfl
@[simp] theorem setRegs_seq (g : Regs) (s : State) : (setRegs g s).seq = s.seq := rfl
@[simp] theorem setRegs_ready (g : Regs) (s : State) : (setRegs g s).ready = s.ready := rfl
@[simp] theorem setRegs_status (g : Regs) (s : State) : (setRegs g s).status = s.status := rfl
@[simp] theorem setRegs_res (g : Regs) (s : State) : (setRegs g s).res = s.res := rfl
@[simp] theorem setRegs_script (g : Regs) (s : State) : (setRegs g s).script = s.script := rfl
@[simp] theorem setRegs_mem (g : Regs) (s : State) : (setRegs g s).mem = s.mem := rfl
@[simp] theorem setRegs_hw (g : Regs) (s : State) : (setRegs g s).hw = s.hw := rfl
@[simp] theorem setRegs_bus (g : Regs) (s : State) : (setRegs g s).bus = s.bus := rfl
@[simp] theorem setRegs_regs (g : Regs) (s : State) : (setRegs g s).regs = g := rfl
@[simp] theorem setMem_params (m : Memory) (s : State) : (setMem m s).params = s.params := rfl
@[simp] theorem setMem_inst (m : Memory) (s : State) : (setMem m s).inst = s.inst := rfl
@[simp] theorem setMem_cfg (m : Memory) (s : State) : (setMem m s).cfg = s.cfg := rfl
@[simp] theorem setMem_cfgWritten (m : Memory) (s : State) : (setMem m s).cfgWritten = s.cfgWritten := rfl
@[simp] theorem setMem_map (m : Memory) (s : State) : (setMem m s).map = s.map := rfl
@[simp] theorem setMem_lastReq (m : Memory) (s : State) : (setMem m s).lastReq = s.lastReq := rfl
@[simp] theorem setMem_launch (m : Memory) (s : State) : (setMem m s).launch = s.launch := rfl
@[simp] theorem setMem_seq (m : Memory) (s : State) : (setMem m s).seq = s.seq := rfl
@[simp] theorem setMem_ready (m : Memory) (s : State) : (setMem m s).ready = s.ready := rfl
@[simp] theorem setMem_status (m : Memory) (s : State) : (setMem m s).status = s.status := rfl
@[simp] theorem setMem_res (m : Memory) (s : State) : (setMem m s).res = s.res := rfl
@[simp] theorem setMem_script (m : Memory) (s : State) : (setMem m s).script = s.script := rfl
@[simp] theorem setMem_regs (m : Memory) (s : State) : (setMem m s).regs = s.regs := rfl
@[simp] theorem setMem_hw (m : Memory) (s : State) : (setMem m s).hw = s.hw := rfl
@[simp] theorem setMem_bus (m : Memory) (s : State) : (setMem m s).bus = s.bus := rfl
@[simp] theorem setMem_mem (m : Memory) (s : State) : (setMem m s).mem = m := rfl

/-! ### A register read -/

theorem regRead_fst (r : Reg) (s : State) : (regRead r s).1 = (hwMoves s).regs.read r := rfl
@[simp] theorem regRead_regs (r : Reg) (s : State) : (regRead r s).2.regs = (hwMoves s).regs := rfl
@[simp] theorem regRead_mem (r : Reg) (s : State) : (regRead r s).2.mem = (hwMoves s).mem := rfl
@[simp] theorem regRead_hw (r : Reg) (s : State) : (regRead r s).2.hw = s.hw.tail := by simp [regRead]
@[simp] theorem regRead_bus (r : Reg) (s : State) :
    (regRead r s).2.bus = .regRead (regAddress s.params s.inst r) ((hwMoves s).regs.read r) :: s.bus := by
  simp [regRead]
@[simp] theorem regRead_params (r : Reg) (s : State) : (regRead r s).2.params = s.params := by simp [regRead]
@[simp] theorem regRead_inst (r : Reg) (s : State) : (regRead r s).2.inst = s.inst := by simp [regRead]
@[simp] theorem regRead_cfg (r : Reg) (s : State) : (regRead r s).2.cfg = s.cfg := by simp [regRead]
@[simp] theorem regRead_cfgWritten (r : Reg) (s : State) : (regRead r s).2.cfgWritten = s.cfgWritten := by simp [regRead]
@[simp] theorem regRead_map (r : Reg) (s : State) : (regRead r s).2.map = s.map := by simp [regRead]
@[simp] theorem regRead_lastReq (r : Reg) (s : State) : (regRead r s).2.lastReq = s.lastReq := by simp [regRead]
@[simp] theorem regRead_launch (r : Reg) (s : State) : (regRead r s).2.launch = s.launch := by simp [regRead]
@[simp] theorem regRead_seq (r : Reg) (s : State) : (regRead r s).2.seq = s.seq := by simp [regRead]
@[simp] theorem regRead_ready (r : Reg) (s : State) : (regRead r s).2.ready = s.ready := by simp [regRead]
@[simp] theorem regRead_status (r : Reg) (s : State) : (regRead r s).2.status = s.status := by simp [regRead]
@[simp] theorem regRead_res (r : Reg) (s : State) : (regRead r s).2.res = s.res := by simp [regRead]
@[simp] theorem regRead_script (r : Reg) (s : State) : (regRead r s).2.script = s.script := by simp [regRead]

/-! ### A register write -/

@[simp] theorem regWrite_regs (r : Reg) (v : Word) (s : State) :
    (regWrite r v s).regs = (hwMoves s).regs.write r v := rfl
@[simp] theorem regWrite_mem (r : Reg) (v : Word) (s : State) : (regWrite r v s).mem = (hwMoves s).mem := rfl
@[simp] theorem regWrite_hw (r : Reg) (v : Word) (s : State) : (regWrite r v s).hw = s.hw.tail := by simp [regWrite]
@[simp] theorem regWrite_bus (r : Reg) (v : Word) (s : State) :
    (regWrite r v s).bus = .regWrite (regAddress s.params s.inst r) v :: s.bus := by simp [regWrite]
@[simp] theorem regWrite_params (r : Reg) (v : Word) (s : State) : (regWrite r v s).params = s.params := by simp [regWrite]
@[simp] theorem regWrite_inst (r : Reg) (v : Word) (s : State) : (regWrite r v s).inst = s.inst := by simp [regWrite]
@[simp] theorem regWrite_cfg (r : Reg) (v : Word) (s : State) : (regWrite r v s).cfg = s.cfg := by simp [regWrite]
@[simp] theorem regWrite_cfgWritten (r : Reg) (v : Word) (s : State) : (regWrite r v s).cfgWritten = s.cfgWritten := by simp [regWrite]
@[simp] theorem regWrite_map (r : Reg) (v : Word) (s : State) : (regWrite r v s).map = s.map := by simp [regWrite]
@[simp] theorem regWrite_lastReq (r : Reg) (v : Word) (s : State) : (regWrite r v s).lastReq = s.lastReq := by simp [regWrite]
@[simp] theorem regWrite_launch (r : Reg) (v : Word) (s : State) : (regWrite r v s).launch = s.launch := by simp [regWrite]
@[simp] theorem regWrite_seq (r : Reg) (v : Word) (s : State) : (regWrite r v s).seq = s.seq := by simp [regWrite]
@[simp] theorem regWrite_ready (r : Reg) (v : Word) (s : State) : (regWrite r v s).ready = s.ready := by simp [regWrite]
@[simp] theorem regWrite_status (r : Reg) (v : Word) (s : State) : (regWrite r v s).status = s.status := by simp [regWrite]
@[simp] theorem regWrite_res (r : Reg) (v : Word) (s : State) : (regWrite r v s).res = s.res := by simp [regWrite]
@[simp] theorem regWrite_script (r : Reg) (v : Word) (s : State) : (regWrite r v s).script = s.script := by simp [regWrite]

/-! ### A read-modify-write -/

@[simp] theorem readModifyWrite_params (r : Reg) (g : Word → Word) (s : State) :
    (readModifyWrite r g s).params = s.params := by simp [readModifyWrite]
@[simp] theorem readModifyWrite_inst (r : Reg) (g : Word → Word) (s : State) :
    (readModifyWrite r g s).inst = s.inst := by simp [readModifyWrite]
@[simp] theorem readModifyWrite_cfg (r : Reg) (g : Word → Word) (s : State) :
    (readModifyWrite r g s).cfg = s.cfg := by simp [readModifyWrite]
@[simp] theorem readModifyWrite_cfgWritten (r : Reg) (g : Word → Word) (s : State) :
    (readModifyWrite r g s).cfgWritten = s.cfgWritten := by simp [readModifyWrite]
@[simp] theorem readModifyWrite_map (r : Reg) (g : Word → Word) (s : State) :
    (readModifyWrite r g s).map = s.map := by simp [readModifyWrite]
@[simp] theorem readModifyWrite_lastReq (r : Reg) (g : Word → Word) (s : State) :
    (readModifyWrite r g s).lastReq = s.lastReq := by simp [readModifyWrite]
@[simp] theorem readModifyWrite_launch (r : Reg) (g : Word → Word) (s : State) :
    (readModifyWrite r g s).launch = s.launch := by simp [readModifyWrite]
@[simp] theorem readModifyWrite_seq (r : Reg) (g : Word → Word) (s : State) :
    (readModifyWrite r g s).seq = s.seq := by simp [readModifyWrite]
@[simp] theorem readModifyWrite_ready (r : Reg) (g : Word → Word) (s : State) :
    (readModifyWrite r g s).ready = s.ready := by simp [readModifyWrite]
@[simp] theorem readModifyWrite_status (r : Reg) (g : Word → Word) (s : State) :
    (readModifyWrite r g s).status = s.status := by simp [readModifyWrite]
@[simp] theorem readModifyWrite_res (r : Reg) (g : Word → Word) (s : State) :
    (readModifyWrite r g s).res = s.res := by simp [readModifyWrite]
@[simp] theorem readModifyWrite_script (r : Reg) (g : Word → Word) (s : State) :
    (readModifyWrite r g s).script = s.script := by simp [readModifyWrite]

/-! ### Raising an outcome -/

@[simp] theorem raise_status (o : Status) (s : State) : (raise o s).status = o := rfl
@[simp] theorem raise_params (o : Status) (s : State) : (raise o s).params = s.params := rfl
@[simp] theorem raise_inst (o : Status) (s : State) : (raise o s).inst = s.inst := rfl
@[simp] theorem raise_cfg (o : Status) (s : State) : (raise o s).cfg = s.cfg := rfl
@[simp] theorem raise_cfgWritten (o : Status) (s : State) : (raise o s).cfgWritten = s.cfgWritten := rfl
@[simp] theorem raise_map (o : Status) (s : State) : (raise o s).map = s.map := rfl
@[simp] theorem raise_lastReq (o : Status) (s : State) : (raise o s).lastReq = s.lastReq := rfl
@[simp] theorem raise_launch (o : Status) (s : State) : (raise o s).launch = s.launch := rfl
@[simp] theorem raise_seq (o : Status) (s : State) : (raise o s).seq = s.seq := rfl
@[simp] theorem raise_ready (o : Status) (s : State) : (raise o s).ready = s.ready := rfl
@[simp] theorem raise_res (o : Status) (s : State) : (raise o s).res = s.res := rfl
@[simp] theorem raise_script (o : Status) (s : State) : (raise o s).script = s.script := rfl
@[simp] theorem raise_regs (o : Status) (s : State) : (raise o s).regs = s.regs := rfl
@[simp] theorem raise_mem (o : Status) (s : State) : (raise o s).mem = s.mem := rfl
@[simp] theorem raise_hw (o : Status) (s : State) : (raise o s).hw = s.hw := rfl
@[simp] theorem raise_bus (o : Status) (s : State) : (raise o s).bus = s.bus := rfl

/-! ### HOST's own steps -/

@[simp] theorem writeCfg_params (w : CfgWrite) (s : State) : (writeCfg w s).params = s.params := by cases w <;> rfl
@[simp] theorem writeCfg_inst (w : CfgWrite) (s : State) : (writeCfg w s).inst = s.inst := by cases w <;> rfl
@[simp] theorem writeCfg_map (w : CfgWrite) (s : State) : (writeCfg w s).map = s.map := by cases w <;> rfl
@[simp] theorem writeCfg_lastReq (w : CfgWrite) (s : State) : (writeCfg w s).lastReq = s.lastReq := by cases w <;> rfl
@[simp] theorem writeCfg_launch (w : CfgWrite) (s : State) : (writeCfg w s).launch = s.launch := by cases w <;> rfl
@[simp] theorem writeCfg_seq (w : CfgWrite) (s : State) : (writeCfg w s).seq = s.seq := by cases w <;> rfl
@[simp] theorem writeCfg_ready (w : CfgWrite) (s : State) : (writeCfg w s).ready = s.ready := by cases w <;> rfl
@[simp] theorem writeCfg_status (w : CfgWrite) (s : State) : (writeCfg w s).status = s.status := by cases w <;> rfl
@[simp] theorem writeCfg_res (w : CfgWrite) (s : State) : (writeCfg w s).res = s.res := by cases w <;> rfl
@[simp] theorem writeCfg_regs (w : CfgWrite) (s : State) : (writeCfg w s).regs = s.regs := by cases w <;> rfl
@[simp] theorem writeCfg_mem (w : CfgWrite) (s : State) : (writeCfg w s).mem = s.mem := by cases w <;> rfl
@[simp] theorem writeCfg_hw (w : CfgWrite) (s : State) : (writeCfg w s).hw = s.hw := by cases w <;> rfl
@[simp] theorem writeCfg_script (w : CfgWrite) (s : State) : (writeCfg w s).script = s.script := by cases w <;> rfl
@[simp] theorem writeCfg_bus (w : CfgWrite) (s : State) : (writeCfg w s).bus = s.bus := by cases w <;> rfl
@[simp] theorem resetBlock_params (s : State) : (resetBlock s).params = s.params := rfl
@[simp] theorem resetBlock_inst (s : State) : (resetBlock s).inst = s.inst := rfl
@[simp] theorem resetBlock_regs (s : State) : (resetBlock s).regs = s.regs := rfl
@[simp] theorem resetBlock_mem (s : State) : (resetBlock s).mem = s.mem := rfl
@[simp] theorem resetBlock_hw (s : State) : (resetBlock s).hw = s.hw := rfl
@[simp] theorem resetBlock_script (s : State) : (resetBlock s).script = s.script := rfl
@[simp] theorem resetBlock_bus (s : State) : (resetBlock s).bus = s.bus := rfl

end Sys2Proof.Machine
end

