-- ==== Sys2Proof/Laws/Memory.lean ====
section
/-! SUPPORT. The laws of the message RAM: read after write, one byte and one word, and that every memory operation keeps
the canonical form. -/

namespace Sys2Proof

/-! ### Bytes of a word -/

theorem getLsbD_wordOfBytes (a b c d : Byte) (i : Nat) :
    (wordOfBytes a b c d).getLsbD i =
      (a.getLsbD i || (decide (8 ≤ i ∧ i < 32) && b.getLsbD (i - 8))
        || (decide (16 ≤ i ∧ i < 32) && c.getLsbD (i - 16)) || (decide (24 ≤ i ∧ i < 32) && d.getLsbD (i - 24))) := by
  simp only [wordOfBytes, BitVec.getLsbD_or, BitVec.getLsbD_shiftLeft, BitVec.getLsbD_setWidth]
  have e : ∀ n, (!decide (i < n)) = decide (n ≤ i) := fun n => by
    by_cases hn : i < n
    · simp [hn, Nat.not_le.2 hn]
    · simp [hn, Nat.not_lt.1 hn]
  by_cases h : i < 32
  · simp [h, Nat.lt_of_le_of_lt (Nat.sub_le i _) h, e]
  · simp [h, BitVec.getLsbD_of_ge a i (by omega)]

theorem getLsbD_unpackByte (w : Word) (j i : Nat) :
    (unpackByte w j).getLsbD i = (decide (i < 8) && w.getLsbD (8 * j + i)) := by
  simp [unpackByte, field, BitVec.getLsbD_extractLsb']

/-- R62: unpacking and packing a word's bytes gives it back. -/
theorem wordOfBytes_unpackByte (w : Word) :
    wordOfBytes (unpackByte w 0) (unpackByte w 1) (unpackByte w 2) (unpackByte w 3) = w := by
  apply BitVec.eq_of_getLsbD_eq
  intro i hi
  simp only [getLsbD_wordOfBytes, getLsbD_unpackByte]
  rcases Nat.lt_or_ge i 8 with h | h
  · simp [h, show ¬ 8 ≤ i by omega, show ¬ 16 ≤ i by omega, show ¬ 24 ≤ i by omega]
  rcases Nat.lt_or_ge i 16 with h' | h'
  · simp [h, hi, show ¬ i < 8 by omega, show ¬ 16 ≤ i by omega, show ¬ 24 ≤ i by omega, show i - 8 < 8 by omega,
      show 8 + (i - 8) = i by omega]
  rcases Nat.lt_or_ge i 24 with h'' | h''
  · simp [h, h', hi, show ¬ i < 8 by omega, show ¬ 24 ≤ i by omega, show ¬ i - 8 < 8 by omega,
      show i - 16 < 8 by omega, show 16 + (i - 16) = i by omega]
  · simp [h, h', h'', hi, show ¬ i < 8 by omega, show ¬ i - 8 < 8 by omega, show ¬ i - 16 < 8 by omega,
      show i - 24 < 8 by omega, show 24 + (i - 24) = i by omega]

/-- R109: byte `j` of a packed word. -/
theorem unpackByte_wordOfBytes (a b c d : Byte) :
    unpackByte (wordOfBytes a b c d) 0 = a ∧ unpackByte (wordOfBytes a b c d) 1 = b
      ∧ unpackByte (wordOfBytes a b c d) 2 = c ∧ unpackByte (wordOfBytes a b c d) 3 = d := by
  refine ⟨?_, ?_, ?_, ?_⟩ <;> apply BitVec.eq_of_getLsbD_eq <;> intro i hi <;>
    simp only [getLsbD_wordOfBytes, getLsbD_unpackByte]
  · simp [hi, show ¬ 8 ≤ i by omega, show ¬ 16 ≤ i by omega, show ¬ 24 ≤ i by omega]
  · simp [hi, show ¬ 16 ≤ 8 + i by omega, show ¬ 24 ≤ 8 + i by omega, show 8 + i < 32 by omega]
  · simp [hi, show 16 + i - 8 = 8 + i by omega, show ¬ 24 ≤ 16 + i by omega, show 16 + i < 32 by omega,
      BitVec.getLsbD_of_ge a (16 + i) (by omega)]
  · simp [hi, show 24 + i - 8 = 16 + i by omega, show 24 + i - 16 = 8 + i by omega, show 24 + i < 32 by omega,
      BitVec.getLsbD_of_ge a (24 + i) (by omega), BitVec.getLsbD_of_ge b (16 + i) (by omega)]

namespace Machine

/-! ### Cells -/

theorem cellsRead_of_all_gt (l : List Host.Cell) (a : Nat) (h : ∀ c ∈ l, a < c.1) : cellsRead l a = unlistedByte := by
  induction l with
  | nil => rfl
  | cons c l ih =>
    have hc := h c (by simp)
    simp only [cellsRead]
    rw [if_neg (by omega)]
    exact ih fun c hc => h c (by simp [hc])

theorem cellsWf_cons (c : Host.Cell) (l : List Host.Cell) :
    cellsWf (c :: l) = true ↔ c.2 ≠ unlistedByte ∧ (∀ d ∈ l, c.1 < d.1) ∧ cellsWf l = true := by
  obtain ⟨a, v⟩ := c
  simp [cellsWf, and_assoc]

theorem cellsWrite_mem (l : List Host.Cell) (a : Nat) (v : Byte) (c : Host.Cell) (h : c ∈ cellsWrite l a v) :
    c.1 = a ∨ c ∈ l := by
  induction l with
  | nil => simp only [cellsWrite] at h; split at h <;> simp_all
  | cons d l ih =>
    obtain ⟨b, u⟩ := d
    simp only [cellsWrite] at h
    split at h
    · split at h
      · exact .inr h
      · rcases List.mem_cons.1 h with rfl | h
        · exact .inl rfl
        · exact .inr h
    · split at h
      · split at h
        · exact .inr (List.mem_cons_of_mem _ h)
        · rcases List.mem_cons.1 h with rfl | h
          · exact .inl rfl
          · exact .inr (List.mem_cons_of_mem _ h)
      · rcases List.mem_cons.1 h with rfl | h
        · exact .inr (by simp)
        · rcases ih h with h | h
          · exact .inl h
          · exact .inr (List.mem_cons_of_mem _ h)

/-- A write keeps the canonical form. -/
theorem cellsWrite_wf (l : List Host.Cell) (a : Nat) (v : Byte) (h : cellsWf l = true) :
    cellsWf (cellsWrite l a v) = true := by
  induction l with
  | nil =>
    simp only [cellsWrite]; split
    · rfl
    · rename_i hv; simp [cellsWf, hv]
  | cons d l ih =>
    obtain ⟨b, u⟩ := d
    have hh := (cellsWf_cons _ _).1 h
    obtain ⟨h1, h2, h3⟩ := hh
    simp only [cellsWrite]
    split
    · rename_i hab
      split
      · exact h
      · rename_i hv
        refine (cellsWf_cons _ _).2 ⟨hv, ?_, h⟩
        intro d hd
        rcases List.mem_cons.1 hd with rfl | hd
        · exact hab
        · exact Nat.lt_trans hab (h2 d hd)
    · split
      · rename_i hab
        subst hab
        split
        · exact h3
        · rename_i hv; exact (cellsWf_cons _ _).2 ⟨hv, h2, h3⟩
      · refine (cellsWf_cons _ _).2 ⟨h1, ?_, ih h3⟩
        intro d hd
        rcases cellsWrite_mem l a v d hd with hd | hd
        · show b < d.1; omega
        · exact h2 d hd

/-- Read after write, for memories in canonical form. -/
theorem cellsRead_cellsWrite (l : List Host.Cell) (a b : Nat) (v : Byte) (h : cellsWf l = true) :
    cellsRead (cellsWrite l a v) b = if b = a then v else cellsRead l b := by
  induction l with
  | nil =>
    simp only [cellsWrite]
    split
    · rename_i hv; simp [cellsRead, hv]
    · simp [cellsRead]
  | cons d l ih =>
    obtain ⟨c, u⟩ := d
    obtain ⟨h1, h2, h3⟩ := (cellsWf_cons _ _).1 h
    simp only [cellsWrite]
    split
    · rename_i hac
      have hlow : cellsRead ((c, u) :: l) a = unlistedByte := by
        apply cellsRead_of_all_gt
        intro d hd
        rcases List.mem_cons.1 hd with rfl | hd
        · exact hac
        · exact Nat.lt_trans hac (h2 d hd)
      split
      · rename_i hv
        split
        · rename_i hb; rw [hb, hlow, hv]
        · rfl
      · simp only [cellsRead]
    · rename_i hac
      split
      · rename_i he
        subst he
        have hlow : cellsRead l a = unlistedByte := cellsRead_of_all_gt l a h2
        split
        · rename_i hv
          by_cases hb : b = a
          · rw [if_pos hb, hb, hlow, hv]
          · simp [cellsRead, hb]
        · by_cases hb : b = a <;> simp [cellsRead, hb]
      · rename_i he
        simp only [cellsRead, ih h3]
        by_cases hb : b = c
        · simp [hb]; intro h; omega
        · simp [hb]

/-! ### The memory -/

@[simp] theorem Memory.setByte_wf (m : Memory) (a : Nat) (v : Byte) (h : m.wf = true) : (m.setByte a v).wf = true :=
  cellsWrite_wf m.cells a v h

theorem Memory.byte_setByte (m : Memory) (a b : Nat) (v : Byte) (h : m.wf = true) :
    (m.setByte a v).byte b = if b = a then v else m.byte b :=
  cellsRead_cellsWrite m.cells a b v h

@[simp] theorem Memory.setWord_wf (m : Memory) (a : Nat) (w : Word) (h : m.wf = true) : (m.setWord a w).wf = true := by
  exact Memory.setByte_wf _ _ _ (Memory.setByte_wf _ _ _ (Memory.setByte_wf _ _ _ (Memory.setByte_wf _ _ _ h)))

/-- What a word store does to every byte (R61, R62). -/
theorem Memory.byte_setWord (m : Memory) (a b : Nat) (w : Word) (h : m.wf = true) :
    (m.setWord a w).byte b = if a ≤ b ∧ b < a + 4 then unpackByte w (b - a) else m.byte b := by
  simp only [Memory.setWord]
  have h1 := Memory.setByte_wf m a (unpackByte w 0) h
  have h2 := Memory.setByte_wf _ (a + 1) (unpackByte w 1) h1
  have h3 := Memory.setByte_wf _ (a + 2) (unpackByte w 2) h2
  rw [Memory.byte_setByte _ _ _ _ h3, Memory.byte_setByte _ _ _ _ h2, Memory.byte_setByte _ _ _ _ h1,
    Memory.byte_setByte _ _ _ _ h]
  by_cases h3 : b = a + 3
  · subst h3; simp
  by_cases h2 : b = a + 2
  · subst h2; simp
  by_cases h1 : b = a + 1
  · subst h1; simp
  by_cases h0 : b = a
  · subst h0; simp
  have : ¬ (a ≤ b ∧ b < a + 4) := by omega
  simp [h0, h1, h2, h3, this]

/-- Read after write, one word. -/
theorem Memory.word_setWord_same (m : Memory) (a : Nat) (w : Word) (h : m.wf = true) : (m.setWord a w).word a = w := by
  simp only [Memory.word, Memory.byte_setWord _ _ _ _ h]
  simpa using wordOfBytes_unpackByte w

/-- A word store leaves every word that does not overlap it alone. -/
theorem Memory.word_setWord_other (m : Memory) (a b : Nat) (w : Word) (h : m.wf = true) (hab : b + 4 ≤ a ∨ a + 4 ≤ b) :
    (m.setWord a w).word b = m.word b := by
  simp only [Memory.word, Memory.byte_setWord _ _ _ _ h]
  rw [if_neg (by omega), if_neg (by omega), if_neg (by omega), if_neg (by omega)]

theorem Memory.setWords_wf (ws : List Word) (m : Memory) (a : Nat) (h : m.wf = true) : (m.setWords a ws).wf = true := by
  induction ws generalizing m a with
  | nil => exact h
  | cons w ws ih => exact ih _ _ (Memory.setWord_wf _ _ _ h)

/-- The memory after reset is in canonical form. -/
theorem reset_mem_wf : State.reset.mem.wf = true := rfl

theorem hwMem_wf (p : Params) (i : Nat) (x : HwAct) (g : Regs) (m : Memory) (h : m.wf = true) :
    (hwMem p i x g m).wf = true := by
  cases x <;> simp only [hwMem] <;> first | exact h | (split <;> first | exact h | (first | exact Memory.setWord_wf _ _ _ h | exact Memory.setWords_wf _ _ _ h))

theorem foldl_hwAct_wf (b : List HwAct) (s : State) (h : s.mem.wf = true) : (b.foldl hwAct s).mem.wf = true := by
  induction b generalizing s with
  | nil => exact h
  | cons x b ih => exact ih _ (hwMem_wf _ _ _ _ _ h)

/-- HW's moves keep the canonical form. -/
@[simp] theorem hwMoves_wf (s : State) (h : s.mem.wf = true) : (hwMoves s).mem.wf = true := by
  unfold hwMoves
  split
  · exact h
  · exact foldl_hwAct_wf _ _ h

@[simp] theorem afterMoves_wf (n : Nat) (s : State) (h : s.mem.wf = true) : (afterMoves n s).mem.wf = true := by
  induction n generalizing s with
  | zero => exact h
  | succ n ih => exact ih _ (hwMoves_wf s h)

end Machine

end Sys2Proof
end

