-- ==== Sys2Proof/Laws/Regions.lean ====
section
/-! SUPPORT. Well-formed parameters clause by clause, and the arithmetic of the region map (R131 to R135). -/

namespace Sys2Proof.Machine

@[simp] theorem allHold_nil : allHold [] = true := rfl
@[simp] theorem allHold_cons (b : Bool) (l : List Bool) : allHold (b :: l) = (b && allHold l) := rfl

/-- R8, one field per clause. -/
structure ParamsOk (p : Params) : Prop where
  nInst : 1 ≤ p.nInst
  esSf4 : p.esSf % 4 = 0
  esXf4 : p.esXf % 4 = 0
  esRf04 : p.esRf0 % 4 = 0
  esRf14 : p.esRf1 % 4 = 0
  esTef4 : p.esTef % 4 = 0
  esTxq4 : p.esTxq % 4 = 0
  esSf : 4 ≤ p.esSf
  esRf0 : 72 ≤ p.esRf0
  esRf1 : 72 ≤ p.esRf1
  esTxq : 72 ≤ p.esTxq
  nTxq : p.nTxq ≤ 32
  ramBase4 : p.ramBase % 4 = 0
  ramBase : p.ramBase < 2 ^ 32
  noWrap : p.ramBase + p.nInst * total p ≤ 2 ^ 32
  regCount : p.regAddr.length = 12 * p.nInst
  regDistinct : distinct p.regAddr = true
  regOk : ∀ a ∈ p.regAddr, regAddressOk p a = true
  dlcMax : ∀ n ∈ p.dlcToLen.toList, n ≤ 64
  dlcRising : strictlyRising p.dlcToLen.toList = true
  gf : p.gfLsb + p.gfW ≤ 32
  tPoll : p.tPoll ≠ some 0

theorem paramsOk {p : Params} (h : paramsWf p = true) : ParamsOk p := by
  simp [paramsWf] at h
  obtain ⟨h1, ⟨h2, h3, h4, h5, h6, h7⟩, h8, h9, h10, h11, h12, h13, h14, h15, h16, h17, h18, h19, h20, h21, h22⟩ := h
  refine ⟨h1, h2, h3, h4, h5, h6, h7, h8, h9, h10, h11, h12, h13, h14, h15, h16, h17, h18, fun n hn => ?_, h20, h21, h22⟩
  obtain ⟨i, hi, rfl⟩ := List.mem_iff_getElem.1 hn
  simpa using h19 i (by simpa using hi)

theorem dlcToLen_le {p : Params} (h : ParamsOk p) (dlc : BitVec 4) : dlcToLen p dlc ≤ 64 := by
  unfold dlcToLen
  rw [List.getD_eq_getElem?_getD]
  cases hx : p.dlcToLen.toList[dlc.toNat]? with
  | none => simp
  | some n => exact h.dlcMax n (List.mem_of_getElem? hx)

theorem ceil4_le {n : Nat} (h : n ≤ 64) : ceil4 n ≤ 16 := by unfold ceil4; omega

/-- R131: `TOTAL` as the sum of the six sizes. -/
theorem total_eq (p : Params) :
    total p = p.nSf * p.esSf + (p.nXf * p.esXf + (p.nRf0 * p.esRf0 + (p.nRf1 * p.esRf1
      + (p.nTef * p.esTef + p.nTxq * p.esTxq)))) := by
  simp [total, regionSizes]

theorem layoutAt_zero (p : Params) (i : Nat) : layoutAt p i 0 = ibase p i := by simp [layoutAt]
theorem layoutAt_one (p : Params) (i : Nat) : layoutAt p i 1 = ibase p i + p.nSf * p.esSf := by
  simp [layoutAt, regionSizes]
theorem layoutAt_two (p : Params) (i : Nat) : layoutAt p i 2 = ibase p i + (p.nSf * p.esSf + p.nXf * p.esXf) := by
  simp [layoutAt, regionSizes]
theorem layoutAt_three (p : Params) (i : Nat) :
    layoutAt p i 3 = ibase p i + (p.nSf * p.esSf + (p.nXf * p.esXf + p.nRf0 * p.esRf0)) := by
  simp [layoutAt, regionSizes]
theorem layoutAt_four (p : Params) (i : Nat) :
    layoutAt p i 4 = ibase p i + (p.nSf * p.esSf + (p.nXf * p.esXf + (p.nRf0 * p.esRf0 + p.nRf1 * p.esRf1))) := by
  simp [layoutAt, regionSizes]
theorem layoutAt_five (p : Params) (i : Nat) :
    layoutAt p i 5 = ibase p i
      + (p.nSf * p.esSf + (p.nXf * p.esXf + (p.nRf0 * p.esRf0 + (p.nRf1 * p.esRf1 + p.nTef * p.esTef)))) := by
  simp [layoutAt, regionSizes]

theorem regionSize_rx (p : Params) (f : Bool) : regionSize p (rxRegion f) = rxSlots p f * rxElemSize p f := by
  cases f <;> rfl
theorem regionSize_four (p : Params) : regionSize p 4 = p.nTef * p.esTef := rfl
theorem regionSize_five (p : Params) : regionSize p 5 = p.nTxq * p.esTxq := rfl

/-- R133: RX FIFO `f`'s region ends inside the instance's part. -/
theorem rxRegion_end_le (p : Params) (i : Nat) (f : Bool) :
    layoutAt p i (rxRegion f) + rxSlots p f * rxElemSize p f ≤ ibase p i + total p := by
  cases f
  · simp only [rxRegion, layoutAt_two, total_eq, rxSlots, rxElemSize, Bool.false_eq_true, if_false]; omega
  · simp only [rxRegion, layoutAt_three, total_eq, rxSlots, rxElemSize, if_true]; omega

theorem txRegion_end_eq (p : Params) (i : Nat) : layoutAt p i 5 + p.nTxq * p.esTxq = ibase p i + total p := by
  simp only [layoutAt_five, total_eq]; omega

theorem ibase_le_layoutAt (p : Params) (i k : Nat) : ibase p i ≤ layoutAt p i k := by simp [layoutAt]

/-- A slot below the count lies inside its region. -/
theorem slot_end_le {slot n es : Nat} (h : slot < n) : slot * es + es ≤ n * es := by
  calc slot * es + es = (slot + 1) * es := by rw [Nat.add_mul, Nat.one_mul]
    _ ≤ n * es := Nat.mul_le_mul_right _ h

/-- R132: an instance's part ends inside the shared RAM. -/
theorem ibase_end_le {p : Params} {i : Nat} (h : i < p.nInst) :
    ibase p i + total p ≤ p.ramBase + p.nInst * total p := by
  have := slot_end_le (es := total p) h
  simp only [ibase]; omega

theorem total_mod4 {p : Params} (h : ParamsOk p) : total p % 4 = 0 := by
  have e : ∀ n k : Nat, k % 4 = 0 → n * k % 4 = 0 := fun n k hk => by rw [Nat.mul_mod, hk]; simp
  have h1 := e p.nSf _ h.esSf4
  have h2 := e p.nXf _ h.esXf4
  have h3 := e p.nRf0 _ h.esRf04
  have h4 := e p.nRf1 _ h.esRf14
  have h5 := e p.nTef _ h.esTef4
  have h6 := e p.nTxq _ h.esTxq4
  rw [total_eq]; omega

theorem ibase_mod4 {p : Params} (h : ParamsOk p) (i : Nat) : ibase p i % 4 = 0 := by
  have h1 := total_mod4 h
  have h2 : i * total p % 4 = 0 := by rw [Nat.mul_mod, h1]; simp
  have h3 := h.ramBase4
  simp only [ibase]; omega

theorem layoutAt_mod4 {p : Params} (h : ParamsOk p) (i : Nat) {k : Nat} (hk : k ≤ 5) : layoutAt p i k % 4 = 0 := by
  have e : ∀ n k : Nat, k % 4 = 0 → n * k % 4 = 0 := fun n k hk => by rw [Nat.mul_mod, hk]; simp
  have h0 := ibase_mod4 h i
  have h1 := e p.nSf _ h.esSf4
  have h2 := e p.nXf _ h.esXf4
  have h3 := e p.nRf0 _ h.esRf04
  have h4 := e p.nRf1 _ h.esRf14
  have h5 := e p.nTef _ h.esTef4
  have : k = 0 ∨ k = 1 ∨ k = 2 ∨ k = 3 ∨ k = 4 ∨ k = 5 := by omega
  rcases this with rfl | rfl | rfl | rfl | rfl | rfl
  · rw [layoutAt_zero]; omega
  · rw [layoutAt_one]; omega
  · rw [layoutAt_two]; omega
  · rw [layoutAt_three]; omega
  · rw [layoutAt_four]; omega
  · rw [layoutAt_five]; omega

/-- R61, R64, R65: an aligned word inside the instance's part is accessible. -/
theorem accessible_of {p : Params} {i a : Nat} (ha : a % 4 = 0) (hlo : ibase p i ≤ a) (hhi : a + 4 ≤ ibase p i + total p)
    (hi : i < p.nInst) : accessible p i a = true := by
  simp [accessible, ha, hlo, hhi, hi]

end Sys2Proof.Machine
end

