-- ==== Sys2Proof/Laws/Access.lean ====
section
/-! SUPPORT. What HW's moves may do to the RAM, what the accesses do, and the one spec lemma each for storing and for
loading several words. -/

namespace Sys2Proof.Machine

/-! ### HW and the RAM -/

theorem Memory.byte_setWords_outside (ws : List Word) (m : Memory) (a b : Nat) (h : m.wf = true)
    (hb : b < a ∨ a + 4 * ws.length ≤ b) : (m.setWords a ws).byte b = m.byte b := by
  induction ws generalizing m a with
  | nil => rfl
  | cons w ws ih =>
    simp only [List.length_cons] at hb
    simp only [Memory.setWords]
    rw [ih _ _ (Memory.setWord_wf _ _ _ h) (by omega), Memory.byte_setWord _ _ _ _ h, if_neg (by omega)]

@[simp] theorem Memory.words_length (m : Memory) (a n : Nat) : (m.words a n).length = n := by
  induction n generalizing a with
  | zero => rfl
  | succ n ih => simp [Memory.words, ih]

/-- A move that may not write the byte at `a` leaves it alone. -/
theorem hwMem_byte {p : Params} (hp : ParamsOk p) (i : Nat) (x : HwAct) (g : Regs) (m : Memory) (a : Nat)
    (hm : m.wf = true) (hx : x.mayWrite p i a = false) : (hwMem p i x g m).byte a = m.byte a := by
  cases x <;> simp only [hwMem]
  case deliver f slot j w =>
    split
    · rename_i hc
      have h1 := slot_end_le (es := rxElemSize p f) hc.1
      simp [HwAct.mayWrite, regionSize_rx] at hx
      rw [Memory.byte_setWord _ _ _ _ hm, if_neg (by omega)]
    · rfl
  case teFifo j w =>
    split
    · simp [HwAct.mayWrite] at hx
      rw [Memory.byte_setWord _ _ _ _ hm, if_neg (by omega)]
    · rfl
  case loopback slot f k ts _ =>
    split
    · rename_i hc
      simp [loopbackReady] at hc
      have hn : nextFreeSlot p g f < rxSlots p f := Nat.mod_lt _ (by omega)
      have h1 := slot_end_le (es := rxElemSize p f) hn
      have h2 : 72 ≤ rxElemSize p f := by cases f; exact hp.esRf0; exact hp.esRf1
      have h3 := ceil4_le (dlcToLen_le hp (field (m.word (layoutAt p i 5 + slot.toNat * p.esTxq + 4)) 16 4))
      simp [HwAct.mayWrite, regionSize_rx] at hx
      refine Memory.byte_setWords_outside _ _ _ _ hm ?_
      simp only [loopbackWords, List.length_cons, Memory.words_length]
      omega
    · rfl
  case other b w =>
    split
    · rename_i hc
      simp [HwAct.mayWrite] at hx
      rw [Memory.byte_setWord _ _ _ _ hm, if_neg (by omega)]
    · rfl

theorem foldl_hwAct_byte (b : List HwAct) (s : State) (a : Nat) (hp : ParamsOk s.params) (hm : s.mem.wf = true)
    (hb : b.all (fun x => !x.mayWrite s.params s.inst a) = true) :
    (b.foldl hwAct s).mem.byte a = s.mem.byte a := by
  induction b generalizing s with
  | nil => rfl
  | cons x b ih =>
    simp only [List.all_cons, Bool.and_eq_true, Bool.not_eq_true'] at hb
    rw [List.foldl_cons, ih (hwAct s x) hp (hwMem_wf _ _ _ _ _ hm) (by simpa using hb.2)]
    exact hwMem_byte hp _ _ _ _ _ hm hb.1

/-- HW's moves before an access leave a spared byte alone. -/
theorem hwMoves_byte (s : State) (a : Nat) (hp : ParamsOk s.params) (hm : s.mem.wf = true) (ha : s.hwSpares a = true) :
    (hwMoves s).mem.byte a = s.mem.byte a := by
  unfold hwMoves
  split
  · rfl
  · rename_i b rest h
    simp only [State.hwSpares, h, List.all_cons, Bool.and_eq_true] at ha
    rw [foldl_hwAct_byte b { s with hw := rest } a hp hm ha.1]

theorem hwSpares_of_tail {s t : State} {a : Nat} (hh : t.hw = s.hw.tail) (hp : t.params = s.params)
    (hi : t.inst = s.inst) (h : s.hwSpares a = true) : t.hwSpares a = true := by
  simp only [State.hwSpares, hh, hp, hi, List.all_eq_true] at *
  intro b hb
  exact h b (List.mem_of_mem_tail hb)

theorem hwMoves_spares (s : State) (a : Nat) (h : s.hwSpares a = true) : (hwMoves s).hwSpares a = true :=
  hwSpares_of_tail (by simp) (by simp) (by simp) h

theorem afterMoves_byte (n : Nat) (s : State) (a : Nat) (hp : ParamsOk s.params) (hm : s.mem.wf = true)
    (ha : s.hwSpares a = true) : (afterMoves n s).mem.byte a = s.mem.byte a := by
  induction n generalizing s with
  | zero => rfl
  | succ n ih =>
    rw [afterMoves_succ, ih _ (by simpa using hp) (hwMoves_wf s hm) (hwMoves_spares s a ha), hwMoves_byte s a hp hm ha]

/-! ### HW and the registers -/

theorem foldl_hwAct_regs_congr (b : List HwAct) (s t : State) (hp : s.params = t.params) (hr : s.regs = t.regs) :
    (b.foldl hwAct s).regs = (b.foldl hwAct t).regs := by
  induction b generalizing s t with
  | nil => exact hr
  | cons x b ih => exact ih _ _ hp (by simp [hp, hr])

/-- What HW does to the register surface depends on the surface, its schedule and the parameters only. -/
theorem hwMoves_regs_congr (s t : State) (hp : s.params = t.params) (hr : s.regs = t.regs) (hh : s.hw = t.hw) :
    (hwMoves s).regs = (hwMoves t).regs := by
  unfold hwMoves
  rw [hh]
  split
  · exact hr
  · exact foldl_hwAct_regs_congr _ _ _ hp hr

theorem afterMoves_regs_congr (n : Nat) (s t : State) (hp : s.params = t.params) (hr : s.regs = t.regs)
    (hh : s.hw = t.hw) : (afterMoves n s).regs = (afterMoves n t).regs := by
  induction n generalizing s t with
  | zero => exact hr
  | succ n ih =>
    exact ih _ _ (by simpa using hp) (hwMoves_regs_congr s t hp hr hh) (by simp [hh])

theorem foldl_hwAct_mem_congr (b : List HwAct) (s t : State) (hp : s.params = t.params) (hi : s.inst = t.inst)
    (hr : s.regs = t.regs) (hm : s.mem = t.mem) : (b.foldl hwAct s).mem = (b.foldl hwAct t).mem := by
  induction b generalizing s t with
  | nil => exact hm
  | cons x b ih => exact ih _ _ hp hi (by simp [hp, hr]) (by simp [hp, hi, hr, hm])

/-- What HW does to the RAM depends on the RAM, the surface, its schedule, the parameters and the strap only. -/
theorem hwMoves_mem_congr (s t : State) (hp : s.params = t.params) (hi : s.inst = t.inst) (hr : s.regs = t.regs)
    (hm : s.mem = t.mem) (hh : s.hw = t.hw) : (hwMoves s).mem = (hwMoves t).mem := by
  unfold hwMoves
  rw [hh]
  split
  · exact hm
  · exact foldl_hwAct_mem_congr _ _ _ hp hi hr hm

theorem afterMoves_mem_congr (n : Nat) (s t : State) (hp : s.params = t.params) (hi : s.inst = t.inst)
    (hr : s.regs = t.regs) (hm : s.mem = t.mem) (hh : s.hw = t.hw) :
    (afterMoves n s).mem = (afterMoves n t).mem := by
  induction n generalizing s t with
  | zero => exact hm
  | succ n ih =>
    exact ih _ _ (by simpa using hp) (by simpa using hi) (hwMoves_regs_congr s t hp hr hh)
      (hwMoves_mem_congr s t hp hi hr hm hh) (by simp [hh])

/-! ### Storing several words -/

theorem memWrite_next {a : Nat} {v : Word} {s : State} (h : accessible s.params s.inst a = true) :
    memWrite a v s = .next (logAccess (.memWrite a v) (setMem ((hwMoves s).mem.setWord a v) (hwMoves s))) := by
  simp [memWrite, h]

theorem memWrite_fault {a : Nat} {v : Word} {s : State} (h : accessible s.params s.inst a = false) :
    memWrite a v s = .fault (.badAddress a) := by
  simp [memWrite, h]

/-- The spec of `storeWords`: where every word is accessible it answers next. HW's moves apart, only the RAM and the
record of accesses change; every byte HW spares is the stored word's, or as before; a word stored is there. -/
theorem storeWords_spec (ws : List Word) (a : Nat) (s : State)
    (hacc : ∀ j, j < ws.length → accessible s.params s.inst (a + 4 * j) = true) :
    ∃ t, storeWords a ws s = .next t
      ∧ t = { s with regs := (afterMoves ws.length s).regs, mem := t.mem, hw := s.hw.drop ws.length
                     bus := (memWrites a ws).reverse ++ s.bus }
      ∧ (s.mem.wf = true → t.mem.wf = true)
      ∧ (∀ b, ParamsOk s.params → s.mem.wf = true → s.hwSpares b = true →
          t.mem.byte b = if a ≤ b ∧ b < a + 4 * ws.length then unpackByte (ws.getD ((b - a) / 4) 0) ((b - a) % 4)
            else s.mem.byte b) := by
  induction ws generalizing a s with
  | nil =>
    refine ⟨s, rfl, rfl, fun h => h, fun b _ _ _ => ?_⟩
    rw [if_neg (by simp)]
  | cons w ws ih =>
    have h0 : accessible s.params s.inst a = true := by simpa using hacc 0 (by simp)
    simp only [storeWords, memWrite_next h0, andThen]
    obtain ⟨t, ht, he, hw, hb⟩ := ih (a + 4)
      (logAccess (.memWrite a w) (setMem ((hwMoves s).mem.setWord a w) (hwMoves s))) (fun j hj => by
      have := hacc (j + 1) (by simpa using hj)
      simpa [show a + 4 + 4 * j = a + 4 * (j + 1) by omega] using this)
    refine ⟨t, ht, ?_, fun h => hw (Memory.setWord_wf _ _ _ (hwMoves_wf s h)), fun b hp hm hs => ?_⟩
    · have hr := afterMoves_regs_congr ws.length
        (logAccess (.memWrite a w) (setMem ((hwMoves s).mem.setWord a w) (hwMoves s))) (hwMoves s) rfl rfl rfl
      rw [he]
      simp [hr, afterMoves_succ, memWrites]
    · have hb' := hb b (by simpa using hp) (Memory.setWord_wf _ _ _ (hwMoves_wf s hm))
        (hwSpares_of_tail (by simp) (by simp) (by simp) hs)
      rw [hb']
      simp only [logAccess_mem, setMem_mem, Memory.byte_setWord _ _ _ _ (hwMoves_wf s hm), hwMoves_byte s b hp hm hs,
        List.length_cons]
      by_cases h1 : a ≤ b ∧ b < a + 4
      · rw [if_neg (by omega), if_pos h1, if_pos (by omega)]
        rw [show (b - a) / 4 = 0 by omega, show (b - a) % 4 = b - a by omega]; rfl
      · by_cases h2 : a + 4 ≤ b ∧ b < a + 4 + 4 * ws.length
        · rw [if_pos h2, if_pos (by omega)]
          rw [show (b - a) / 4 = (b - (a + 4)) / 4 + 1 by omega, show (b - a) % 4 = (b - (a + 4)) % 4 by omega]; rfl
        · rw [if_neg h2, if_neg h1, if_neg (by omega)]

/-! ### Loading several words -/

theorem memRead_ok {a : Nat} {s : State} (h : accessible s.params s.inst a = true) :
    memRead a s = .ok ((hwMoves s).mem.word a, logAccess (.memRead a ((hwMoves s).mem.word a)) (hwMoves s)) := by
  simp [memRead, h]

@[simp] theorem loadedWords_length (a n : Nat) (s : State) : (loadedWords a n s).length = n := by
  induction n generalizing a s with
  | zero => rfl
  | succ n ih => simp [loadedWords, ih]

theorem loadedWords_congr (n a : Nat) (s t : State) (hp : s.params = t.params) (hi : s.inst = t.inst)
    (hr : s.regs = t.regs) (hm : s.mem = t.mem) (hh : s.hw = t.hw) : loadedWords a n s = loadedWords a n t := by
  induction n generalizing a s t with
  | zero => rfl
  | succ n ih =>
    have h1 := hwMoves_mem_congr s t hp hi hr hm hh
    simp only [loadedWords, h1]
    rw [ih _ _ _ (by simpa using hp) (by simpa using hi) (hwMoves_regs_congr s t hp hr hh) h1 (by simp [hh])]

/-- Word `j` of those loaded. -/
theorem loadedWords_getD (n a j : Nat) (s : State) (hj : j < n) :
    (loadedWords a n s).getD j 0 = (afterMoves (j + 1) s).mem.word (a + 4 * j) := by
  induction n generalizing a j s with
  | zero => omega
  | succ n ih =>
    cases j with
    | zero => rfl
    | succ j =>
      rw [afterMoves_succ, show a + 4 * (j + 1) = a + 4 + 4 * j by omega, ← ih (a + 4) j (hwMoves s) (by omega)]
      rfl

theorem hwMoves_logAccess (x : Access) (s : State) : hwMoves (logAccess x s) = logAccess x (hwMoves s) := by
  have h1 := hwMoves_regs_congr (logAccess x s) s rfl rfl rfl
  have h2 := hwMoves_mem_congr (logAccess x s) s rfl rfl rfl rfl rfl
  ext1 <;> simp [h1, h2]

theorem afterMoves_logAccess (n : Nat) (x : Access) (s : State) :
    afterMoves n (logAccess x s) = logAccess x (afterMoves n s) := by
  induction n generalizing s with
  | zero => rfl
  | succ n ih => rw [afterMoves_succ, hwMoves_logAccess, ih, afterMoves_succ]

/-- The spec of `loadWords`: where every word is accessible it returns the words and changes, HW's moves apart, only the
record of accesses. -/
theorem loadWords_spec (n a : Nat) (s : State)
    (hacc : ∀ j, j < n → accessible s.params s.inst (a + 4 * j) = true) :
    loadWords a n s = .ok (loadedWords a n s,
      { afterMoves n s with bus := (memReads a (loadedWords a n s)).reverse ++ s.bus }) := by
  induction n generalizing a s with
  | zero => simp [loadWords, loadedWords, memReads]
  | succ n ih =>
    have h0 : accessible s.params s.inst a = true := by simpa using hacc 0 (by simp)
    have hc : ∀ x, loadedWords (a + 4) n (logAccess x (hwMoves s)) = loadedWords (a + 4) n (hwMoves s) :=
      fun x => loadedWords_congr _ _ _ _ rfl rfl rfl rfl rfl
    simp only [loadWords, memRead_ok h0]
    rw [ih (a + 4) (logAccess (.memRead a ((hwMoves s).mem.word a)) (hwMoves s)) (fun j hj => by
      have := hacc (j + 1) (by omega)
      simpa [show a + 4 + 4 * j = a + 4 * (j + 1) by omega] using this)]
    simp only [hc, afterMoves_logAccess]
    simp [loadedWords, memReads, afterMoves_succ, logAccess]

end Sys2Proof.Machine
end

