-- ==== Sys2Proof/Laws/Encoding.lean ====
section
/-! SUPPORT. The packed words as sums of their fields, and their fields back (30_encoding.md). -/

namespace Sys2Proof

/-- R112: the packed word of operands in range, as the rule writes it. -/
theorem timingOf_pack {presc sjw seg1 seg2 : Nat}
    (h : 1 ≤ presc ∧ presc ≤ 512 ∧ 1 ≤ sjw ∧ sjw ≤ 128 ∧ 2 ≤ seg1 ∧ seg1 ≤ 256 ∧ 2 ≤ seg2 ∧ seg2 ≤ 128) :
    ∃ t, timingOf presc sjw seg1 seg2 = some t
      ∧ t = { sjw := BitVec.ofNat 7 (sjw - 1), presc := BitVec.ofNat 9 (presc - 1)
              seg1 := BitVec.ofNat 8 (seg1 - 1), seg2 := BitVec.ofNat 8 (seg2 - 1) }
      ∧ t.pack.toNat = ((seg2 - 1) ||| (seg1 - 1) <<< 8 ||| (presc - 1) <<< 16 ||| (sjw - 1) <<< 25) := by
  refine ⟨_, if_pos h, rfl, ?_⟩
  obtain ⟨a1, a2, b1, b2, c1, c2, d1, d2⟩ := h
  simp only [Timing.pack, BitVec.toNat_or, BitVec.toNat_shiftLeft, BitVec.toNat_setWidth, BitVec.toNat_ofNat]
  have e : ∀ n k m : Nat, n < 2 ^ k → k + m ≤ 32 → (n % 2 ^ k % 2 ^ 32) <<< m % 2 ^ 32 = n <<< m := by
    intro n k m hn hk
    have hk' : (2 : Nat) ^ k ≤ 2 ^ 32 := Nat.pow_le_pow_right (by omega) (by omega)
    rw [Nat.mod_eq_of_lt hn, Nat.mod_eq_of_lt (lt_of_lt_of_le hn hk')]
    apply Nat.mod_eq_of_lt
    rw [Nat.shiftLeft_eq]
    calc n * 2 ^ m < 2 ^ k * 2 ^ m := Nat.mul_lt_mul_of_pos_right hn (Nat.two_pow_pos m)
      _ = 2 ^ (k + m) := by rw [Nat.pow_add]
      _ ≤ 2 ^ 32 := Nat.pow_le_pow_right (by omega) hk
  rw [e _ 8 8 (by omega) (by omega), e _ 9 16 (by omega) (by omega), e _ 7 25 (by omega) (by omega),
    show (seg2 - 1) % 2 ^ 8 % 2 ^ 32 = seg2 - 1 by omega]

/-- R112: the four terms occupy disjoint bits, so the word is their sum. -/
theorem Timing.pack_toNat (t : Timing) :
    t.pack.toNat = t.sjw.toNat * 2 ^ 25 + t.presc.toNat * 2 ^ 16 + t.seg1.toNat * 2 ^ 8 + t.seg2.toNat := by
  have h1 := t.sjw.isLt
  have h2 := t.presc.isLt
  have h3 := t.seg1.isLt
  have h4 := t.seg2.isLt
  simp only [Timing.pack, BitVec.toNat_or, BitVec.toNat_shiftLeft, BitVec.toNat_setWidth]
  rw [Nat.mod_eq_of_lt (show t.sjw.toNat < 2 ^ 32 by omega), Nat.mod_eq_of_lt (show t.presc.toNat < 2 ^ 32 by omega),
    Nat.mod_eq_of_lt (show t.seg1.toNat < 2 ^ 32 by omega), Nat.mod_eq_of_lt (show t.seg2.toNat < 2 ^ 32 by omega)]
  simp only [Nat.shiftLeft_eq]
  rw [Nat.mod_eq_of_lt (show t.sjw.toNat * 2 ^ 25 < 2 ^ 32 by omega),
    Nat.mod_eq_of_lt (show t.presc.toNat * 2 ^ 16 < 2 ^ 32 by omega),
    Nat.mod_eq_of_lt (show t.seg1.toNat * 2 ^ 8 < 2 ^ 32 by omega)]
  rw [Nat.or_comm, Nat.or_comm (t.seg2.toNat ||| _), Nat.or_comm t.seg2.toNat]
  rw [Nat.mul_comm t.seg1.toNat, ← Nat.two_pow_add_eq_or_of_lt (show t.seg2.toNat < 2 ^ 8 by omega)]
  rw [Nat.mul_comm t.presc.toNat,
    ← Nat.two_pow_add_eq_or_of_lt (show 2 ^ 8 * t.seg1.toNat + t.seg2.toNat < 2 ^ 16 by omega)]
  rw [Nat.mul_comm t.sjw.toNat, ← Nat.two_pow_add_eq_or_of_lt
    (show 2 ^ 16 * t.presc.toNat + (2 ^ 8 * t.seg1.toNat + t.seg2.toNat) < 2 ^ 25 by omega)]
  omega

/-- The fields of a packed timing word. -/
theorem Timing.unpack_pack (t : Timing) : Timing.unpack t.pack = t := by
  have h1 := t.sjw.isLt
  have h2 := t.presc.isLt
  have h3 := t.seg1.isLt
  have h4 := t.seg2.isLt
  have e := t.pack_toNat
  cases t
  simp only [Timing.unpack, Timing.mk.injEq]
  refine ⟨?_, ?_, ?_, ?_⟩ <;> apply BitVec.eq_of_toNat_eq <;>
    simp only [field, BitVec.extractLsb'_toNat, e, Nat.shiftRight_eq_div_pow] <;> omega

/-- R111: the four fields do not overlap, so the word is their sum. -/
theorem filtPack_toNat (ft : BitVec 2) (fc : BitVec 3) (a b : BitVec 11) :
    (filtPack ft fc a b).toNat = ft.toNat * 2 ^ 30 + fc.toNat * 2 ^ 27 + a.toNat * 2 ^ 16 + b.toNat := by
  have h1 := ft.isLt
  have h2 := fc.isLt
  have h3 := a.isLt
  have h4 := b.isLt
  simp only [filtPack, BitVec.toNat_or, BitVec.toNat_shiftLeft, BitVec.toNat_setWidth]
  rw [Nat.mod_eq_of_lt (show ft.toNat < 2 ^ 32 by omega), Nat.mod_eq_of_lt (show fc.toNat < 2 ^ 32 by omega),
    Nat.mod_eq_of_lt (show a.toNat < 2 ^ 32 by omega), Nat.mod_eq_of_lt (show b.toNat < 2 ^ 32 by omega)]
  simp only [Nat.shiftLeft_eq]
  rw [Nat.mod_eq_of_lt (show ft.toNat * 2 ^ 30 < 2 ^ 32 by omega),
    Nat.mod_eq_of_lt (show fc.toNat * 2 ^ 27 < 2 ^ 32 by omega),
    Nat.mod_eq_of_lt (show a.toNat * 2 ^ 16 < 2 ^ 32 by omega)]
  rw [Nat.or_assoc, Nat.or_assoc]
  rw [Nat.mul_comm a.toNat, ← Nat.two_pow_add_eq_or_of_lt (show b.toNat < 2 ^ 16 by omega)]
  rw [Nat.mul_comm fc.toNat, ← Nat.two_pow_add_eq_or_of_lt (show 2 ^ 16 * a.toNat + b.toNat < 2 ^ 27 by omega)]
  rw [Nat.mul_comm ft.toNat, ← Nat.two_pow_add_eq_or_of_lt
    (show 2 ^ 27 * fc.toNat + (2 ^ 16 * a.toNat + b.toNat) < 2 ^ 30 by omega)]
  omega

/-- R13: bit `i` of a field. -/
theorem getLsbD_field (w : Word) (lo n i : Nat) : (field w lo n).getLsbD i = (decide (i < n) && w.getLsbD (lo + i)) := by
  simp [field, BitVec.getLsbD_extractLsb']

/-- R101: the value of an RX word 1, its ignored bits 0. -/
theorem encRxW1_toNat (fidx : BitVec 7) (dlc : BitVec 4) (ts : BitVec 16) :
   (encRxW1 fidx dlc ts).toNat = fidx.toNat * 2^24 + dlc.toNat * 2^16 + ts.toNat := by
  have h1 := fidx.isLt; have h2 := dlc.isLt; have h3 := ts.isLt
  simp only [encRxW1, BitVec.toNat_or, BitVec.toNat_shiftLeft, BitVec.toNat_setWidth]
  rw [Nat.mod_eq_of_lt (show fidx.toNat < 2^32 by omega), Nat.mod_eq_of_lt (show dlc.toNat < 2^32 by omega),
      Nat.mod_eq_of_lt (show ts.toNat < 2^32 by omega)]
  simp only [Nat.shiftLeft_eq]
  rw [Nat.mod_eq_of_lt (show fidx.toNat * 2^24 < 2^32 by omega), Nat.mod_eq_of_lt (show dlc.toNat *2^16 < 2^32 by omega)]
  rw [Nat.or_assoc, Nat.mul_comm dlc.toNat, ← Nat.two_pow_add_eq_or_of_lt (show ts.toNat < 2^16 by omega)]
  rw [Nat.mul_comm fidx.toNat, ← Nat.two_pow_add_eq_or_of_lt (show 2^16 * dlc.toNat + ts.toNat < 2^24 by omega)]
  omega

/-- R100: the fields of an RX word 0. -/
theorem rxW0_encRxW0 (esi : Bool) (id : BitVec 11) : rxW0Id (encRxW0 esi id) = id ∧ rxW0Esi (encRxW0 esi id) = esi := by
  constructor
  · apply BitVec.eq_of_getLsbD_eq
    intro i hi
    have : ∀ e : Bool, (bitWord e <<< 31).getLsbD (18 + i) = false := by
      intro e; rw [BitVec.getLsbD_shiftLeft]; simp; intros; omega
    simp only [rxW0Id, encRxW0, getLsbD_field, BitVec.getLsbD_or, this, BitVec.getLsbD_shiftLeft, BitVec.getLsbD_setWidth]
    simp [show 18 + i < 32 by omega, hi, show i < 32 by omega]
  · cases esi <;> simp [rxW0Esi, encRxW0, bitWord]

/-- R101: the fields of an RX word 1. -/
theorem rxW1_encRxW1 (fidx : BitVec 7) (dlc : BitVec 4) (ts : BitVec 16) :
    rxW1Fidx (encRxW1 fidx dlc ts) = fidx ∧ rxW1Dlc (encRxW1 fidx dlc ts) = dlc ∧ rxW1Ts (encRxW1 fidx dlc ts) = ts := by
  have e := encRxW1_toNat fidx dlc ts
  have h1 := fidx.isLt
  have h2 := dlc.isLt
  have h3 := ts.isLt
  refine ⟨?_, ?_, ?_⟩ <;> apply BitVec.eq_of_toNat_eq <;>
    simp only [rxW1Fidx, rxW1Dlc, rxW1Ts, field, BitVec.extractLsb'_toNat, e, Nat.shiftRight_eq_div_pow] <;> omega

end Sys2Proof
end

