-- ==== Sys2Proof/Laws/Hardware.lean ====
section
/-! SUPPORT. What HW's moves may do to the register surface (R75 to R79): the registers and bits they never change, and
the acknowledged mode, which the block's own accesses never change. -/

namespace Sys2Proof.Machine

/-! ### Registers HW leaves alone -/

theorem hwRegs_ntim (p : Params) (x : HwAct) (g : Regs) : (hwRegs p x g).ntim = g.ntim := by
  cases x <;> simp only [hwRegs, hwSurface, Regs.setRxStat] <;> repeat' split
  all_goals rfl

theorem hwRegs_dtim (p : Params) (x : HwAct) (g : Regs) : (hwRegs p x g).dtim = g.dtim := by
  cases x <;> simp only [hwRegs, hwSurface, Regs.setRxStat] <;> repeat' split
  all_goals rfl

theorem hwRegs_rxack0 (p : Params) (x : HwAct) (g : Regs) : (hwRegs p x g).rxack0 = g.rxack0 := by
  cases x <;> simp only [hwRegs, hwSurface, Regs.setRxStat] <;> repeat' split
  all_goals rfl

theorem hwRegs_rxack1 (p : Params) (x : HwAct) (g : Regs) : (hwRegs p x g).rxack1 = g.rxack1 := by
  cases x <;> simp only [hwRegs, hwSurface, Regs.setRxStat] <;> repeat' split
  all_goals rfl

/-- A bit outside the mask keeps its value. -/
theorem getLsbD_mixBits (m v w : Word) (i : Nat) (h : m.getLsbD i = false) : (mixBits m v w).getLsbD i = v.getLsbD i := by
  by_cases hi : i < 32
  · simp only [mixBits, BitVec.getLsbD_or, BitVec.getLsbD_and, BitVec.getLsbD_not, h, hi]; simp
  · rw [BitVec.getLsbD_of_ge _ _ (by omega), BitVec.getLsbD_of_ge _ _ (by omega)]

theorem hwRegs_mode (p : Params) (x : HwAct) (g : Regs) (i : Nat) (h : (hwBits p g .mode).getLsbD i = false) :
    (hwRegs p x g).mode.getLsbD i = g.mode.getLsbD i := by
  cases x
  case ownBits r w =>
    cases r
    case mode => exact getLsbD_mixBits _ _ _ _ h
    all_goals rfl
  all_goals simp only [hwRegs, hwSurface, Regs.setRxStat] <;> repeat' split
  all_goals rfl

theorem hwRegs_test (p : Params) (x : HwAct) (g : Regs) (i : Nat) (h : (hwBits p g .test).getLsbD i = false) :
    (hwRegs p x g).test.getLsbD i = g.test.getLsbD i := by
  cases x
  case ownBits r w =>
    cases r
    case test => exact getLsbD_mixBits _ _ _ _ h
    all_goals rfl
  all_goals simp only [hwRegs, hwSurface, Regs.setRxStat] <;> repeat' split
  all_goals rfl

theorem hwRegs_txcfg (p : Params) (x : HwAct) (g : Regs) (i : Nat) (h : (hwBits p g .txcfg).getLsbD i = false) :
    (hwRegs p x g).txcfg.getLsbD i = g.txcfg.getLsbD i := by
  cases x
  case ownBits r w =>
    cases r
    case txcfg => exact getLsbD_mixBits _ _ _ _ h
    all_goals rfl
  all_goals simp only [hwRegs, hwSurface, Regs.setRxStat] <;> repeat' split
  all_goals rfl

theorem hwRegs_gfilt (p : Params) (x : HwAct) (g : Regs) (i : Nat) (h : (hwBits p g .gfilt).getLsbD i = false) :
    (hwRegs p x g).gfilt.getLsbD i = g.gfilt.getLsbD i := by
  cases x
  case ownBits r w =>
    cases r
    case gfilt => exact getLsbD_mixBits _ _ _ _ h
    all_goals rfl
  all_goals simp only [hwRegs, hwSurface, Regs.setRxStat] <;> repeat' split
  all_goals rfl

/-- What one move does to the acknowledged mode. -/
def HwAct.ack (x : HwAct) (b : Bool) : Bool :=
  match x with
  | .modeAck c => c
  | _ => b

theorem hwRegs_modeAck (p : Params) (x : HwAct) (g : Regs) : (hwRegs p x g).modeAck = x.ack g.modeAck := by
  cases x <;> simp only [hwRegs, hwSurface, Regs.setRxStat, HwAct.ack] <;> repeat' split
  all_goals rfl

/-! ### Over a batch, before one access, before several -/

/-- A quantity of the register surface no single move changes is not changed by a batch. -/
theorem foldl_hwAct_regs_keep {α : Type} (q : Params → Regs → α) (h : ∀ p x g, q p (hwRegs p x g) = q p g)
    (b : List HwAct) (s : State) : q s.params (b.foldl hwAct s).regs = q s.params s.regs := by
  induction b generalizing s with
  | nil => rfl
  | cons x b ih => rw [List.foldl_cons]; exact (ih (hwAct s x)).trans (h _ _ _)

theorem hwMoves_regs_keep {α : Type} (q : Params → Regs → α) (h : ∀ p x g, q p (hwRegs p x g) = q p g) (s : State) :
    q s.params (hwMoves s).regs = q s.params s.regs := by
  unfold hwMoves
  split
  · rfl
  · rename_i b rest _
    exact foldl_hwAct_regs_keep q h b { s with hw := rest }

theorem afterMoves_regs_keep {α : Type} (q : Params → Regs → α) (h : ∀ p x g, q p (hwRegs p x g) = q p g) (n : Nat)
    (s : State) : q s.params (afterMoves n s).regs = q s.params s.regs := by
  induction n generalizing s with
  | zero => rfl
  | succ n ih =>
    have := ih (hwMoves s)
    rw [hwMoves_params] at this
    exact this.trans (hwMoves_regs_keep q h s)

@[simp] theorem hwMoves_ntim (s : State) : (hwMoves s).regs.ntim = s.regs.ntim :=
  hwMoves_regs_keep (fun _ g => g.ntim) hwRegs_ntim s
@[simp] theorem hwMoves_dtim (s : State) : (hwMoves s).regs.dtim = s.regs.dtim :=
  hwMoves_regs_keep (fun _ g => g.dtim) hwRegs_dtim s
@[simp] theorem hwMoves_rxack0 (s : State) : (hwMoves s).regs.rxack0 = s.regs.rxack0 :=
  hwMoves_regs_keep (fun _ g => g.rxack0) hwRegs_rxack0 s
@[simp] theorem hwMoves_rxack1 (s : State) : (hwMoves s).regs.rxack1 = s.regs.rxack1 :=
  hwMoves_regs_keep (fun _ g => g.rxack1) hwRegs_rxack1 s
theorem hwMoves_mode_init (s : State) : (hwMoves s).regs.mode.getLsbD 0 = s.regs.mode.getLsbD 0 :=
  hwMoves_regs_keep (fun _ g => g.mode.getLsbD 0) (fun p x g => hwRegs_mode p x g 0 (by simp only [hwBits]; split <;> decide)) s
theorem hwMoves_test_lbck (s : State) : (hwMoves s).regs.test.getLsbD 4 = s.regs.test.getLsbD 4 :=
  hwMoves_regs_keep (fun _ g => g.test.getLsbD 4) (fun p x g => hwRegs_test p x g 4 (by simp [hwBits]; decide)) s
theorem hwMoves_txcfg_tfqm (s : State) : (hwMoves s).regs.txcfg.getLsbD 24 = s.regs.txcfg.getLsbD 24 :=
  hwMoves_regs_keep (fun _ g => g.txcfg.getLsbD 24) (fun p x g => hwRegs_txcfg p x g 24 (by simp [hwBits]; decide)) s

@[simp] theorem afterMoves_ntim (n : Nat) (s : State) : (afterMoves n s).regs.ntim = s.regs.ntim :=
  afterMoves_regs_keep (fun _ g => g.ntim) hwRegs_ntim n s
@[simp] theorem afterMoves_dtim (n : Nat) (s : State) : (afterMoves n s).regs.dtim = s.regs.dtim :=
  afterMoves_regs_keep (fun _ g => g.dtim) hwRegs_dtim n s
@[simp] theorem afterMoves_rxack0 (n : Nat) (s : State) : (afterMoves n s).regs.rxack0 = s.regs.rxack0 :=
  afterMoves_regs_keep (fun _ g => g.rxack0) hwRegs_rxack0 n s
@[simp] theorem afterMoves_rxack1 (n : Nat) (s : State) : (afterMoves n s).regs.rxack1 = s.regs.rxack1 :=
  afterMoves_regs_keep (fun _ g => g.rxack1) hwRegs_rxack1 n s
theorem afterMoves_mode_init (n : Nat) (s : State) :
    (afterMoves n s).regs.mode.getLsbD 0 = s.regs.mode.getLsbD 0 :=
  afterMoves_regs_keep (fun _ g => g.mode.getLsbD 0) (fun p x g => hwRegs_mode p x g 0 (by simp only [hwBits]; split <;> decide)) n s
theorem afterMoves_test_lbck (n : Nat) (s : State) :
    (afterMoves n s).regs.test.getLsbD 4 = s.regs.test.getLsbD 4 :=
  afterMoves_regs_keep (fun _ g => g.test.getLsbD 4) (fun p x g => hwRegs_test p x g 4 (by simp [hwBits]; decide)) n s
theorem afterMoves_txcfg_tfqm (n : Nat) (s : State) :
    (afterMoves n s).regs.txcfg.getLsbD 24 = s.regs.txcfg.getLsbD 24 :=
  afterMoves_regs_keep (fun _ g => g.txcfg.getLsbD 24)
    (fun p x g => hwRegs_txcfg p x g 24 (by simp [hwBits]; decide)) n s

/- The same three with the bit as `simp` writes it. -/
@[simp] theorem hwMoves_mode_bit (s : State) : (hwMoves s).regs.mode[0] = s.regs.mode[0] := hwMoves_mode_init s
@[simp] theorem hwMoves_test_bit (s : State) : (hwMoves s).regs.test[4] = s.regs.test[4] := hwMoves_test_lbck s
@[simp] theorem hwMoves_txcfg_bit (s : State) : (hwMoves s).regs.txcfg[24] = s.regs.txcfg[24] := hwMoves_txcfg_tfqm s
@[simp] theorem afterMoves_mode_bit (n : Nat) (s : State) : (afterMoves n s).regs.mode[0] = s.regs.mode[0] :=
  afterMoves_mode_init n s
@[simp] theorem afterMoves_test_bit (n : Nat) (s : State) : (afterMoves n s).regs.test[4] = s.regs.test[4] :=
  afterMoves_test_lbck n s
@[simp] theorem afterMoves_txcfg_bit (n : Nat) (s : State) : (afterMoves n s).regs.txcfg[24] = s.regs.txcfg[24] :=
  afterMoves_txcfg_tfqm n s

/-! ### Bit fields -/

theorem getLsbD_fieldMask (lo n i : Nat) (h : lo + n ≤ 32) :
    (fieldMask lo n).getLsbD i = decide (lo ≤ i ∧ i < lo + n) := by
  have hm : ((1#32 <<< n) - 1#32) = BitVec.ofNat 32 (2 ^ n - 1) := by
    rcases Nat.lt_or_ge n 32 with hn | hn
    · apply BitVec.eq_of_toNat_eq
      have hp : 2 ^ n < 4294967296 := Nat.pow_lt_pow_right (a := 2) (n := 32) (by omega) hn
      have hp0 : 0 < 2 ^ n := Nat.two_pow_pos n
      simp only [BitVec.toNat_sub, BitVec.toNat_shiftLeft, BitVec.toNat_ofNat, Nat.shiftLeft_eq, Nat.reducePow]
      omega
    · have h1 : n = 32 := by omega
      subst h1
      decide
  unfold fieldMask
  by_cases hi : i < 32
  · rw [BitVec.getLsbD_shiftLeft, hm, BitVec.getLsbD_ofNat, Nat.testBit_two_pow_sub_one, Bool.eq_iff_iff]
    simp
    omega
  · rw [BitVec.getLsbD_of_ge _ _ (by omega)]; simp; omega

/-- Inside the field the bit put, outside the old one. -/
theorem getLsbD_putField (v x : Word) (lo n i : Nat) (h : lo + n ≤ 32) (hx : x.toNat < 2 ^ n) :
    (putField v lo n x).getLsbD i = if lo ≤ i ∧ i < lo + n then x.getLsbD (i - lo) else v.getLsbD i := by
  by_cases hi : i < 32
  · have hout : n ≤ i - lo → x.getLsbD (i - lo) = false := fun hn => by
      rw [BitVec.getLsbD]; exact Nat.testBit_lt_two_pow (lt_of_lt_of_le hx (Nat.pow_le_pow_right (by omega) hn))
    simp only [putField, BitVec.getLsbD_or, BitVec.getLsbD_and, BitVec.getLsbD_not, BitVec.getLsbD_shiftLeft,
      getLsbD_fieldMask lo n i h, hi]
    by_cases h1 : lo ≤ i
    · by_cases h2 : i < lo + n
      · simp [h1, h2]
      · rw [hout (by omega)]; simp [h2]
    · simp [h1]
  · rw [BitVec.getLsbD_of_ge _ _ (by omega), if_neg (by omega), BitVec.getLsbD_of_ge _ _ (by omega)]

/-- HW never changes the count field of GFILT (R76 e). -/
theorem afterMoves_gfilt (n : Nat) (s : State) (i : Nat) (h : s.params.gfLsb + s.params.gfW ≤ 32)
    (hi : s.params.gfLsb ≤ i ∧ i < s.params.gfLsb + s.params.gfW) :
    (afterMoves n s).regs.gfilt.getLsbD i = s.regs.gfilt.getLsbD i := by
  have hk := afterMoves_regs_keep
    (fun p g => if p.gfLsb + p.gfW ≤ 32 ∧ p.gfLsb ≤ i ∧ i < p.gfLsb + p.gfW then g.gfilt.getLsbD i else false)
    (fun p x g => by
      split
      · rename_i hc
        apply hwRegs_gfilt
        simp only [hwBits, BitVec.getLsbD_not, getLsbD_fieldMask _ _ _ hc.1]
        simp [hc.2]
      · rfl) n s
  simpa only [if_pos (show s.params.gfLsb + s.params.gfW ≤ 32 ∧ s.params.gfLsb ≤ i ∧ i < s.params.gfLsb + s.params.gfW
    from ⟨h, hi⟩)] using hk

theorem hwMoves_gfilt (s : State) (i : Nat) (h : s.params.gfLsb + s.params.gfW ≤ 32)
    (hi : s.params.gfLsb ≤ i ∧ i < s.params.gfLsb + s.params.gfW) :
    (hwMoves s).regs.gfilt.getLsbD i = s.regs.gfilt.getLsbD i := afterMoves_gfilt 1 s i h hi

/-- A read of MODE returns the acknowledged mode in bit 0 (R37). -/
@[simp] theorem read_mode_init (g : Regs) : (g.read .mode).getLsbD 0 = g.modeAck := by
  simp only [Regs.read]
  rw [getLsbD_putField _ _ _ _ _ (by omega) (by unfold bitWord; split <;> decide)]
  unfold bitWord; cases g.modeAck <;> simp

/-! ### The acknowledged mode over the block's accesses -/

/-- `t` comes `n` accesses of the block after `s`, as far as HW's schedule and the acknowledged mode tell. -/
structure Follows (n : Nat) (s t : State) : Prop where
  hw : t.hw = s.hw.drop n
  ack : t.regs.modeAck = ackAt s n

theorem foldl_hwAct_ack (b : List HwAct) (s t : State) (h : s.regs.modeAck = t.regs.modeAck) :
    (b.foldl hwAct s).regs.modeAck = (b.foldl hwAct t).regs.modeAck := by
  induction b generalizing s t with
  | nil => exact h
  | cons x b ih => exact ih _ _ (by simp [hwRegs_modeAck, h])

theorem hwMoves_ack (s t : State) (hh : s.hw = t.hw) (h : s.regs.modeAck = t.regs.modeAck) :
    (hwMoves s).regs.modeAck = (hwMoves t).regs.modeAck := by
  unfold hwMoves
  rw [hh]
  split
  · exact h
  · exact foldl_hwAct_ack _ _ _ h

theorem ackAt_congr (n : Nat) (s t : State) (hh : s.hw = t.hw) (h : s.regs.modeAck = t.regs.modeAck) :
    ackAt s n = ackAt t n := by
  induction n generalizing s t with
  | zero => exact h
  | succ n ih => exact ih _ _ (by simp [hh]) (hwMoves_ack s t hh h)

theorem afterMoves_add (m n : Nat) (s : State) : afterMoves (m + n) s = afterMoves n (afterMoves m s) := by
  induction m generalizing s with
  | zero => simp
  | succ m ih => rw [show m + 1 + n = m + n + 1 by omega, afterMoves_succ, ih, ← afterMoves_succ]

theorem Follows.ackAt {n : Nat} {s t : State} (h : Follows n s t) (m : Nat) :
    Sys2Proof.ackAt t m = Sys2Proof.ackAt s (n + m) := by
  rw [ackAt_congr m t (afterMoves n s) (by rw [h.hw]; simp) h.ack]
  simp only [Sys2Proof.ackAt, afterMoves_add]

theorem Follows.refl (s : State) : Follows 0 s s := ⟨by simp, rfl⟩

theorem Follows.trans {m n : Nat} {s t u : State} (h1 : Follows m s t) (h2 : Follows n t u) : Follows (m + n) s u :=
  ⟨by rw [h2.hw, h1.hw, List.drop_drop], by rw [h2.ack, h1.ackAt]⟩

theorem Follows.of_eq {n : Nat} {s t u : State} (h : Follows n s t) (hh : u.hw = t.hw)
    (ha : u.regs.modeAck = t.regs.modeAck) : Follows n s u := ⟨hh.trans h.hw, ha.trans h.ack⟩

theorem hwMoves_follows (s : State) : Follows 1 s (hwMoves s) := ⟨by simp, rfl⟩

@[simp] theorem Regs.write_modeAck (g : Regs) (r : Reg) (v : Word) : (g.write r v).modeAck = g.modeAck := by
  cases r <;> rfl

theorem regRead_follows (r : Reg) (s : State) : Follows 1 s (regRead r s).2 := ⟨by simp, rfl⟩

theorem regWrite_follows (r : Reg) (v : Word) (s : State) : Follows 1 s (regWrite r v s) :=
  ⟨by simp, by simp [Sys2Proof.ackAt, afterMoves]⟩

theorem readModifyWrite_follows (r : Reg) (g : Word → Word) (s : State) : Follows 2 s (readModifyWrite r g s) :=
  (regRead_follows r s).trans (regWrite_follows _ _ _)

/-- The schedule left bounds what is still to come: once it is used up, HW's answer stays. -/
theorem ackAt_stable (s : State) (n : Nat) (h : s.hw.length ≤ n) : ackAt s n = ackAt s s.hw.length := by
  have hs : ∀ (k : Nat) (u : State), u.hw = [] → afterMoves k u = u := by
    intro k
    induction k with
    | zero => intro u _; rfl
    | succ k ih => intro u hu; rw [afterMoves_succ]; simp only [hwMoves, hu]; exact ih u hu
  obtain ⟨k, rfl⟩ := Nat.exists_eq_add_of_le h
  simp only [ackAt, afterMoves_add]
  rw [hs k _ (by simp)]

/-- R47: a field just put reads back. -/
theorem field_putField_same (v x : Word) (lo n : Nat) (h : lo + n ≤ 32) (hx : x.toNat < 2 ^ n) : field (putField v lo n x) lo n = x.setWidth n := by
  apply BitVec.eq_of_getLsbD_eq; intro i hi
  rw [getLsbD_field, getLsbD_putField _ _ _ _ _ h hx, if_pos (by omega), show lo + i - lo = i by omega, BitVec.getLsbD_setWidth]

/-- R47: another field is as before. -/
theorem field_putField_other (v x : Word) (lo n lo' n' : Nat) (h : lo + n ≤ 32) (hx : x.toNat < 2 ^ n) (hd : lo' + n' ≤ lo ∨ lo + n ≤ lo') : field (putField v lo n x) lo' n' = field v lo' n' := by
  apply BitVec.eq_of_getLsbD_eq; intro i hi
  rw [getLsbD_field, getLsbD_field, getLsbD_putField _ _ _ _ _ h hx, if_neg (by omega)]

/-- HW's moves, by its schedule. -/
theorem hwMoves_nil (s : State) (h : s.hw = []) : hwMoves s = s := by unfold hwMoves; rw [h]

/-- HW's moves, by its schedule. -/
theorem hwMoves_cons (s : State) (b : List HwAct) (rest : List (List HwAct)) (h : s.hw = b :: rest) : hwMoves s = b.foldl hwAct { s with hw := rest } := by unfold hwMoves; rw [h]

/-- HW's moves do not look at NTIM. -/
theorem hwAct_ntim (x : HwAct) (s : State) (w : Word) : hwAct { s with regs := { s.regs with ntim := w } } x = { hwAct s x with regs := { (hwAct s x).regs with ntim := w } } := by
  have h0 : hwSurface s.params x { s.regs with ntim := w } = { hwSurface s.params x s.regs with ntim := w } := by
    cases x <;> simp only [hwSurface, Regs.setRxStat, Regs.rxStat, Regs.rxAck]
    case rxStat f _ => cases f <;> rfl
    case ownBits r _ => cases r <;> rfl
    case takeAck f => cases f <;> simp only [if_true, Bool.false_eq_true, if_false] <;> split <;> rfl
    case loopback _ f _ _ _ => cases f <;> simp only [loopbackReady, Regs.rxStat, if_true, Bool.false_eq_true, if_false] <;> split <;> rfl
  have h1 : hwRegs s.params x { s.regs with ntim := w } = { hwRegs s.params x s.regs with ntim := w } := by
    simp only [hwRegs, h0]; cases x <;> rfl
  have h2 : hwMem s.params s.inst x { s.regs with ntim := w } s.mem = hwMem s.params s.inst x s.regs s.mem := by
    cases x <;> simp only [hwMem] ; rfl
  simp only [hwAct]; rw [h1, h2]

/-- HW's moves do not look at NTIM. -/
theorem hwMoves_setNtim (s : State) (w : Word) : hwMoves { s with regs := { s.regs with ntim := w } } = { hwMoves s with regs := { (hwMoves s).regs with ntim := w } } := by
  have hf : ∀ (l : List HwAct) (s : State), l.foldl hwAct { s with regs := { s.regs with ntim := w } } = { l.foldl hwAct s with regs := { (l.foldl hwAct s).regs with ntim := w } } := by
    intro l; induction l with
    | nil => intro s; rfl
    | cons x l ih => intro s; rw [List.foldl_cons, hwAct_ntim, ih]; rfl
  have hc : s.hw = [] ∨ ∃ b r, s.hw = b :: r := by cases s.hw <;> simp
  obtain h | ⟨b, rest, h⟩ := hc
  · have h' : ({ s with regs := { s.regs with ntim := w } } : State).hw = [] := h
    rw [hwMoves_nil _ h, hwMoves_nil _ h']
  · have h' : ({ s with regs := { s.regs with ntim := w } } : State).hw = b :: rest := h
    rw [hwMoves_cons _ _ _ h, hwMoves_cons _ _ _ h']; exact hf b { s with hw := rest }

/-! ### Induction over HW's moves, and its record -/

/-- What one move keeps, and what does not look at HW's schedule, HW keeps over any number of coming accesses. -/
theorem afterMoves_induct (P : State → Prop) (sched : ∀ s r, P s → P { s with hw := r })
    (move : ∀ s x, P s → P (hwAct s x)) (n : Nat) (s : State) (hs : P s) : P (afterMoves n s) := by
  have batch : ∀ (b : List HwAct) (t : State), P t → P (b.foldl hwAct t) := by
    intro b
    induction b with
    | nil => exact fun _ h => h
    | cons x b ih => exact fun t h => ih _ (move _ _ h)
  induction n generalizing s with
  | zero => exact hs
  | succ n ih =>
    apply ih
    unfold hwMoves
    split
    · exact hs
    · exact batch _ _ (sched _ _ hs)

/-- What a move that leaves `kept` true has done: it wrote no queued slot, moved nothing that was not due, and answered one
request for each thing it moved. -/
theorem hwAct_duty (s : State) (x : HwAct) (hk : (hwAct s x).regs.duty.kept = true) :
    s.regs.duty.kept = true ∧ sparesQueued s.params x s.regs = true
    ∧ (putMoves s.regs (hwAct s x).regs = true → 0 < s.regs.duty.putDue)
    ∧ (∀ f, getMoves s.regs (hwAct s x).regs f = true → 0 < s.regs.duty.getDue f)
    ∧ (hwAct s x).regs.duty.putDue = answer (putMoves s.regs (hwAct s x).regs) s.regs.duty.putDue
    ∧ (∀ f, (hwAct s x).regs.duty.getDue f = answer (getMoves s.regs (hwAct s x).regs f) (s.regs.duty.getDue f)) := by
  have e : (hwAct s x).regs.duty = dutyAfter s.params x s.regs (hwSurface s.params x s.regs) := rfl
  have m : ∀ f, getMoves s.regs (hwAct s x).regs f = getMoves s.regs (hwSurface s.params x s.regs) f := by
    intro f; cases f <;> rfl
  rw [e] at hk ⊢
  simp only [dutyAfter, allHold_cons, allHold_nil, Bool.and_true, Bool.and_eq_true, onlyWhenDue, Bool.or_eq_true,
    Bool.not_eq_true', decide_eq_true_eq] at hk
  obtain ⟨h1, h2, h3, h4, h5⟩ := hk
  refine ⟨h1, h2, fun h => h3.resolve_left (by
    rw [show putMoves s.regs (hwSurface s.params x s.regs) = true from h]; simp), fun f h => ?_, rfl, fun f => ?_⟩
  · rw [m] at h
    cases f
    · exact h4.resolve_left (by rw [h]; simp)
    · exact h5.resolve_left (by rw [h]; simp)
  · rw [m]; cases f <;> rfl

end Sys2Proof.Machine
end

