-- ==== Sys2Proof/Laws/Init.lean ====
section
/-! SUPPORT. INIT step by step: the checks, the two polls, the configuration, and what each leaves. -/

namespace Sys2Proof.Machine

/-! ### Accesses that leave the RAM to HW -/

/-- `t` comes `n` accesses of the block after `s`, none of which stored to the RAM. -/
structure Leaves (n : Nat) (s t : State) : Prop extends Follows n s t where
  params : t.params = s.params
  inst : t.inst = s.inst
  wf : s.mem.wf = true → t.mem.wf = true
  byte : ∀ b, ParamsOk s.params → s.mem.wf = true → s.hwSpares b = true → t.mem.byte b = s.mem.byte b

theorem hwSpares_of_drop {s t : State} {n a : Nat} (hh : t.hw = s.hw.drop n) (hp : t.params = s.params)
    (hi : t.inst = s.inst) (h : s.hwSpares a = true) : t.hwSpares a = true := by
  simp only [State.hwSpares, hh, hp, hi, List.all_eq_true] at *
  intro b hb
  exact h b (List.mem_of_mem_drop hb)

theorem Leaves.refl (s : State) : Leaves 0 s s :=
  { Follows.refl s with params := rfl, inst := rfl, wf := id, byte := fun _ _ _ _ => rfl }

theorem Leaves.trans {m n : Nat} {s t u : State} (h1 : Leaves m s t) (h2 : Leaves n t u) : Leaves (m + n) s u :=
  { h1.toFollows.trans h2.toFollows with
    params := h2.params.trans h1.params
    inst := h2.inst.trans h1.inst
    wf := fun h => h2.wf (h1.wf h)
    byte := fun b hp hm hs => by
      rw [h2.byte b (h1.params ▸ hp) (h1.wf hm) (hwSpares_of_drop h1.hw h1.params h1.inst hs), h1.byte b hp hm hs] }

/-- A change of the block's own registers or of the record of accesses is no access. -/
theorem Leaves.of_eq {n : Nat} {s t u : State} (h : Leaves n s t) (hp : u.params = t.params) (hi : u.inst = t.inst)
    (hh : u.hw = t.hw) (hr : u.regs = t.regs) (hm : u.mem = t.mem) : Leaves n s u :=
  { h.toFollows.of_eq hh (by rw [hr]) with
    params := hp.trans h.params
    inst := hi.trans h.inst
    wf := fun hw => by rw [hm]; exact h.wf hw
    byte := fun b a c d => by rw [hm]; exact h.byte b a c d }

/-- The block's own registers do not matter to what follows. -/
theorem Leaves.of_source {n : Nat} {s r t : State} (h : Leaves n r t) (hp : r.params = s.params) (hi : r.inst = s.inst)
    (hh : r.hw = s.hw) (hr : r.regs = s.regs) (hm : r.mem = s.mem) : Leaves n s t :=
  { hw := by rw [h.hw, hh]
    ack := by rw [h.ack]; exact ackAt_congr n r s hh (by rw [hr])
    params := h.params.trans hp
    inst := h.inst.trans hi
    wf := fun hw => h.wf (by rw [hm]; exact hw)
    byte := fun b a c d => by
      rw [← hm]; exact h.byte b (by rw [hp]; exact a) (by rw [hm]; exact c)
        (by simpa only [State.hwSpares, hh, hp, hi] using d) }

theorem hwMoves_leaves (s : State) : Leaves 1 s (hwMoves s) :=
  { hwMoves_follows s with
    params := by simp
    inst := by simp
    wf := hwMoves_wf s
    byte := fun b hp hm hs => hwMoves_byte s b hp hm hs }

theorem afterMoves_leaves (n : Nat) (s : State) : Leaves n s (afterMoves n s) := by
  induction n generalizing s with
  | zero => exact Leaves.refl s
  | succ n ih =>
    have := (hwMoves_leaves s).trans (ih (hwMoves s))
    rw [Nat.add_comm 1 n] at this
    exact this

theorem regRead_leaves (r : Reg) (s : State) : Leaves 1 s (regRead r s).2 :=
  (hwMoves_leaves s).of_eq (by simp) (by simp) (by simp) rfl rfl

theorem regWrite_leaves (r : Reg) (v : Word) (s : State) : Leaves 1 s (regWrite r v s) :=
  { regWrite_follows r v s with
    params := by simp
    inst := by simp
    wf := hwMoves_wf s
    byte := fun b hp hm hs => hwMoves_byte s b hp hm hs }

theorem readModifyWrite_leaves (r : Reg) (g : Word → Word) (s : State) : Leaves 2 s (readModifyWrite r g s) :=
  (regRead_leaves r s).trans (regWrite_leaves _ _ _)

/-! ### The two polls -/

/-- The reads of MODE of a poll, newest first, with what each returned. -/
def modeReads : Nat → State → List Access
  | 0, _ => []
  | n + 1, s =>
    modeReads n (hwMoves s) ++ [.regRead (regAddress s.params s.inst .mode) ((hwMoves s).regs.read .mode)]

/-- The state after `n` reads of MODE. -/
def afterPoll (n : Nat) (s : State) : State := { afterMoves n s with bus := modeReads n s ++ s.bus }

theorem modeReads_congr (n : Nat) (s t : State) (hp : s.params = t.params) (hi : s.inst = t.inst) (hr : s.regs = t.regs)
    (hh : s.hw = t.hw) : modeReads n s = modeReads n t := by
  induction n generalizing s t with
  | zero => rfl
  | succ n ih =>
    have h1 := hwMoves_regs_congr s t hp hr hh
    simp only [modeReads, h1, hp, hi]
    rw [ih _ _ (by simpa using hp) (by simpa using hi) h1 (by simp [hh])]

theorem afterPoll_zero (s : State) : afterPoll 0 s = s := by simp [afterPoll, modeReads]

theorem afterPoll_succ (n : Nat) (s : State) : afterPoll n (regRead .mode s).2 = afterPoll (n + 1) s := by
  have h1 : (regRead .mode s).2 =
      logAccess (.regRead (regAddress s.params s.inst .mode) ((hwMoves s).regs.read .mode)) (hwMoves s) := rfl
  have h2 := modeReads_congr n
    (logAccess (.regRead (regAddress s.params s.inst .mode) ((hwMoves s).regs.read .mode)) (hwMoves s)) (hwMoves s)
    rfl rfl rfl rfl
  rw [h1]
  unfold afterPoll
  rw [afterMoves_logAccess]
  simp only [h2, logAccess_bus]
  simp [modeReads, afterMoves_succ, logAccess]

theorem afterPoll_leaves (n : Nat) (s : State) : Leaves n s (afterPoll n s) :=
  (afterMoves_leaves n s).of_eq rfl rfl rfl rfl rfl

/-- A poll that sees what it waits for at read `k + 1`. -/
theorem pollMode_sees (want : Bool) (n k : Nat) (s : State) (hk : k < n) (hno : ∀ j, j < k → ackAt s (1 + j) ≠ want)
    (hyes : ackAt s (1 + k) = want) : pollMode want n s = (true, afterPoll (k + 1) s) := by
  induction n generalizing k s with
  | zero => omega
  | succ n ih =>
    simp only [pollMode, regRead_fst, read_mode_init]
    have h1 : (hwMoves s).regs.modeAck = ackAt s 1 := rfl
    cases k with
    | zero =>
      rw [if_pos (by rw [h1]; exact hyes), ← afterPoll_succ, afterPoll_zero]
    | succ k =>
      rw [if_neg (by rw [h1]; exact hno 0 (by omega)), ← afterPoll_succ]
      have hf := regRead_follows .mode s
      refine ih k _ (by omega) (fun j hj => ?_) ?_
      · rw [hf.ackAt]; have := hno (j + 1) (by omega); rwa [show 1 + (1 + j) = 1 + (j + 1) by omega]
      · rw [hf.ackAt, show 1 + (1 + k) = 1 + (k + 1) by omega]; exact hyes

/-- A poll that does not see it within `n` reads. -/
theorem pollMode_misses (want : Bool) (n : Nat) (s : State) (hno : ∀ j, j < n → ackAt s (1 + j) ≠ want) :
    pollMode want n s = (false, afterPoll n s) := by
  induction n generalizing s with
  | zero => simp [pollMode, afterPoll_zero]
  | succ n ih =>
    simp only [pollMode, regRead_fst, read_mode_init]
    have h1 : (hwMoves s).regs.modeAck = ackAt s 1 := rfl
    rw [if_neg (by rw [h1]; exact hno 0 (by omega)), ← afterPoll_succ]
    refine ih _ (fun j hj => ?_)
    rw [(regRead_follows .mode s).ackAt, show 1 + (1 + j) = 1 + (j + 1) by omega]
    exact hno (j + 1) (by omega)

/-- The first read that sees what is awaited is within the reads that decide the poll. -/
theorem lt_pollReads (want : Bool) (k : Nat) (s : State) (hno : ∀ j, j < k → ackAt s (1 + j) ≠ want)
    (hyes : ackAt s (1 + k) = want) (ht : ∀ t, s.params.tPoll = some t → k < t) : k < pollReads s := by
  unfold pollReads
  split
  · rename_i t h; have := ht t h; omega
  · by_contra hc
    have h1 := ackAt_stable s (1 + k) (by omega)
    have h2 := ackAt_stable s (1 + (k - 1)) (by omega)
    exact hno (k - 1) (by omega) (by rw [h2, ← h1]; exact hyes)

/-- The spec of `awaitMode` where the poll sees what it waits for. -/
theorem awaitMode_sees (want : Bool) (which : Poll) (k : Nat) (s : State) (c : State → Out)
    (hno : ∀ j, j < k → ackAt s (1 + j) ≠ want) (hyes : ackAt s (1 + k) = want)
    (ht : ∀ t, s.params.tPoll = some t → k < t) :
    awaitMode want which s c = c (afterPoll (k + 1) s) := by
  simp only [awaitMode, pollMode_sees want _ k s (lt_pollReads want k s hno hyes ht) hno hyes]

/-- The spec of `awaitMode` where a numeric bound runs out (R168). -/
theorem awaitMode_timeout (want : Bool) (which : Poll) (t : Nat) (s : State) (c : State → Out)
    (ht : s.params.tPoll = some t) (h1 : 1 ≤ t) (hno : ∀ j, j < t → ackAt s (1 + j) ≠ want) :
    awaitMode want which s c = .next (raise (.hwFault which) (afterPoll t s)) := by
  have hn : pollReads s = t := by simp only [pollReads, ht]; omega
  have hp : (afterPoll t s).params.tPoll = some t := by simp [afterPoll, ht]
  simp only [awaitMode, hn, pollMode_misses want t s hno, ht]

/-- The spec of `awaitMode` without a bound, where HW never gives the awaited answer (R160, R277). -/
theorem awaitMode_never (want : Bool) (which : Poll) (s : State) (c : State → Out) (ht : s.params.tPoll = none)
    (hno : ∀ j, ackAt s (1 + j) ≠ want) : awaitMode want which s c = .fault (.pollNeverEnds which) := by
  simp only [awaitMode, pollMode_misses want (pollReads s) s (fun j _ => hno j), ht]

/-! ### The checks -/

/-- What INIT's checks let through: the timing word of R147. -/
theorem checkedTiming_ok {s : State} (h : ConfigOk s) : ∃ t, checkedTiming s = some t ∧ t.pack = btPack s.cfg := by
  obtain ⟨t, h1, -, h3⟩ := timingOf_pack ⟨h.presc.1, h.presc.2, h.sjw.1, h.sjw.2, h.seg1.1, h.seg1.2, h.seg2.1, h.seg2.2⟩
  refine ⟨t, ?_, ?_⟩
  · simp only [checkedTiming, allWritten, budgetsOk, h.written, allHold, cfgTiming, h1, h.nStd.1, h.nStd.2, h.nExt,
      decide_true, Bool.and_true, if_true]
  · apply BitVec.eq_of_toNat_eq
    rw [h3, btPack, BitVec.toNat_ofNat, Nat.mod_eq_of_lt]
    rw [← h3]; exact t.pack.isLt

theorem checkedTiming_bad {s : State} (h : ¬ ConfigOk s) : checkedTiming s = none := by
  cases hc : checkedTiming s with
  | none => rfl
  | some t =>
    exfalso
    apply h
    simp only [checkedTiming] at hc
    split at hc
    · rename_i hb
      simp only [Bool.and_eq_true, allWritten, budgetsOk, allHold, decide_eq_true_eq, Bool.and_true] at hb
      simp only [cfgTiming, timingOf] at hc
      split at hc
      · rename_i ht
        obtain ⟨⟨w1, w2, w3, w4, w5, w6, w7, w8⟩, e1, e2, f⟩ := hb
        refine ⟨?_, ?_, ?_, ?_, ?_, ⟨e1, e2⟩, f⟩ <;> first | omega | skip
        cases hcw : s.cfgWritten
        simp_all
      · exact absurd hc (by simp)
    · exact absurd hc (by simp)

/-! ### Step 3 and the sequence -/

/-- Nothing but the register surface, the RAM, HW's schedule and the record of accesses differs. -/
structure KeepsBlock (s t : State) : Prop where
  params : t.params = s.params
  inst : t.inst = s.inst
  cfg : t.cfg = s.cfg
  cfgWritten : t.cfgWritten = s.cfgWritten
  map : t.map = s.map
  lastReq : t.lastReq = s.lastReq
  seq : t.seq = s.seq
  ready : t.ready = s.ready
  status : t.status = s.status
  res : t.res = s.res
  script : t.script = s.script
  launch : t.launch = s.launch

theorem KeepsBlock.refl (s : State) : KeepsBlock s s := ⟨rfl, rfl, rfl, rfl, rfl, rfl, rfl, rfl, rfl, rfl, rfl, rfl⟩

theorem KeepsBlock.trans {s t u : State} (h : KeepsBlock s t) (k : KeepsBlock t u) : KeepsBlock s u :=
  ⟨k.params.trans h.params, k.inst.trans h.inst, k.cfg.trans h.cfg, k.cfgWritten.trans h.cfgWritten, k.map.trans h.map,
    k.lastReq.trans h.lastReq, k.seq.trans h.seq, k.ready.trans h.ready, k.status.trans h.status, k.res.trans h.res,
    k.script.trans h.script, k.launch.trans h.launch⟩

theorem readModifyWrite_keeps (r : Reg) (g : Word → Word) (s : State) : KeepsBlock s (readModifyWrite r g s) :=
  by constructor <;> simp

theorem regWrite_keeps (r : Reg) (v : Word) (s : State) : KeepsBlock s (regWrite r v s) :=
  by constructor <;> simp

theorem regRead_keeps (r : Reg) (s : State) : KeepsBlock s (regRead r s).2 :=
  by constructor <;> simp

theorem afterPoll_keeps (n : Nat) (s : State) : KeepsBlock s (afterPoll n s) := by
  constructor <;> simp [afterPoll]

theorem btSet_keeps (t : Timing) (s : State) : KeepsBlock s (btSet t s) :=
  (regWrite_keeps _ _ _).trans (regWrite_keeps _ _ _)

theorem btSet_leaves (t : Timing) (s : State) : Leaves 2 s (btSet t s) :=
  (regWrite_leaves _ _ _).trans (regWrite_leaves _ _ _)

theorem writeFilterCount_keeps (s : State) : KeepsBlock s (writeFilterCount s) := readModifyWrite_keeps _ _ _

theorem writeFilterCount_leaves (s : State) : Leaves 2 s (writeFilterCount s) := readModifyWrite_leaves _ _ _

theorem releaseInit_keeps (s : State) : KeepsBlock s (releaseInit s) := readModifyWrite_keeps _ _ _

theorem releaseInit_leaves (s : State) : Leaves 2 s (releaseInit s) := readModifyWrite_leaves _ _ _

/-- The loopback half of R163. -/
theorem applyFlags_eq (s : State) :
    applyFlags s =
      (if s.cfg.txQueueMode then readModifyWrite .txcfg (· ||| (1#32 <<< 24))
          (if s.cfg.loopback then readModifyWrite .test (· ||| (1#32 <<< 4)) s else s)
        else if s.cfg.loopback then readModifyWrite .test (· ||| (1#32 <<< 4)) s else s) := by
  unfold applyFlags
  cases s.cfg.loopback <;> simp

theorem applyFlags_keeps (s : State) : KeepsBlock s (applyFlags s) := by
  rw [applyFlags_eq]
  have h : KeepsBlock s (if s.cfg.loopback then readModifyWrite .test (· ||| (1#32 <<< 4)) s else s) := by
    split
    · exact readModifyWrite_keeps _ _ _
    · exact KeepsBlock.refl s
  split
  · exact h.trans (readModifyWrite_keeps _ _ _)
  · exact h

theorem applyFlags_leaves (s : State) :
    Leaves ((if s.cfg.loopback then 2 else 0) + (if s.cfg.txQueueMode then 2 else 0)) s (applyFlags s) := by
  rw [applyFlags_eq]
  have h : Leaves (if s.cfg.loopback then 2 else 0) s
      (if s.cfg.loopback then readModifyWrite .test (· ||| (1#32 <<< 4)) s else s) := by
    split
    · exact readModifyWrite_leaves _ _ _
    · exact Leaves.refl s
  by_cases hq : s.cfg.txQueueMode = true
  · rw [if_pos hq, if_pos hq]; exact h.trans (readModifyWrite_leaves _ _ _)
  · rw [if_neg hq, if_neg hq]; exact h

/-- The spec of the layout steps: always a next state; every word of the instance's part is 0 where HW lets it, every
other byte as before. -/
theorem layoutSteps_spec (s : State) (hp : ParamsOk s.params) (hi : s.inst < s.params.nInst) :
    ∃ t, layoutSteps s = .next t
      ∧ t = { s with map := layoutMap s.params s.inst, regs := (afterMoves (total s.params / 4) s).regs, mem := t.mem
                     hw := s.hw.drop (total s.params / 4)
                     bus := (memWrites (ibase s.params s.inst)
                       (List.replicate (total s.params / 4) 0#32)).reverse ++ s.bus }
      ∧ (s.mem.wf = true → t.mem.wf = true)
      ∧ (∀ b, s.mem.wf = true → s.hwSpares b = true →
          t.mem.byte b = if ibase s.params s.inst ≤ b ∧ b < ibase s.params s.inst + total s.params then 0#8
            else s.mem.byte b) := by
  have h4 := total_mod4 hp
  have hb := ibase_mod4 hp s.inst
  obtain ⟨t, h1, h2, h3, h5⟩ := storeWords_spec (List.replicate (total s.params / 4) 0#32) (ibase s.params s.inst)
    { s with map := layoutMap s.params s.inst } (fun j hj => by
      simp only [List.length_replicate] at hj
      exact accessible_of (p := s.params) (i := s.inst) (by omega) (by omega) (by omega) hi)
  simp only [List.length_replicate] at h2 h5
  refine ⟨t, h1, ?_, h3, fun b hm hs => ?_⟩
  · have hr := afterMoves_regs_congr (total s.params / 4) { s with map := layoutMap s.params s.inst } s rfl rfl rfl
    rw [h2, hr]
  · rw [h5 b hp hm hs]
    have : 4 * (total s.params / 4) = total s.params := by omega
    rw [this]
    split
    · rename_i hc
      have hlt : (b - ibase s.params s.inst) / 4 < total s.params / 4 := by omega
      have h0 : ∀ n i : Nat, (List.replicate n 0#32).getD i 0 = 0 := by
        intro n i
        simp only [List.getD_eq_getElem?_getD, List.getElem?_replicate]
        split <;> rfl
      rw [h0]
      simp [unpackByte, field]
    · rfl

/-- `ready`, `seq` and the launch record written, the rest as `KeepsBlock` says. -/
theorem requestInit_spec (s : State) :
    Leaves 2 s (requestInit s) ∧ KeepsBlock { s with ready := false, seq := .requestInit, launch := { initCfg := s.cfg, loneLayout := false } } (requestInit s) := by
  refine ⟨?_, by constructor <;> simp [requestInit]⟩
  exact (Leaves.of_source (s := s) (readModifyWrite_leaves .mode (· ||| 0x1#32)
    { s with ready := false, launch := { initCfg := s.cfg, loneLayout := false } })
    rfl rfl rfl rfl rfl).of_eq rfl rfl rfl rfl rfl

/-- Steps 3a to 3d of INIT, from the state the entry poll leaves. -/
theorem configure_spec (s : State) (t : Timing) :
    Leaves (2 + 2 + ((if s.cfg.loopback then 2 else 0) + (if s.cfg.txQueueMode then 2 else 0)) + 2) s
        (writeFilterCount (applyFlags (btSet t (enableConfig s))))
      ∧ KeepsBlock { s with seq := .configEnabled } (writeFilterCount (applyFlags (btSet t (enableConfig s)))) := by
  have l1 : Leaves 2 s (enableConfig s) :=
    (readModifyWrite_leaves .mode (· ||| 0x2#32) s).of_eq rfl rfl rfl rfl rfl
  have k1 : KeepsBlock { s with seq := .configEnabled } (enableConfig s) := by
    constructor <;> simp [enableConfig]
  have k2 := k1.trans (btSet_keeps t (enableConfig s))
  have l3 := applyFlags_leaves (btSet t (enableConfig s))
  rw [k2.cfg] at l3
  exact ⟨((l1.trans (btSet_leaves t _)).trans l3).trans (writeFilterCount_leaves _),
    (k2.trans (applyFlags_keeps _)).trans (writeFilterCount_keeps _)⟩

/-- INIT's state when its exit poll starts, where the entry poll has seen the acknowledgment at read `k + 1` and the
timing word is `t`. -/
theorem initBeforeExit (s : State) (k : Nat) (t : Timing) (hp : ParamsOk s.params) (hi : s.inst < s.params.nInst) :
    ∃ w u, configure t { afterPoll (k + 1) (requestInit s) with seq := .initializing } = .next u
      ∧ w = writeFilterCount (applyFlags (btSet t (enableConfig
          { afterPoll (k + 1) (requestInit s) with seq := .initializing })))
      ∧ u.regs = (afterMoves (total s.params / 4) w).regs ∧ w.params = s.params
      ∧ u.bus = (memWrites (ibase s.params s.inst) (List.replicate (total s.params / 4) 0#32)).reverse ++ w.bus
      ∧ Follows (initAccesses s k) s (releaseInit u)
      ∧ KeepsBlock { s with ready := false, seq := .configEnabled, map := layoutMap s.params s.inst, lastReq := 0, launch := { initCfg := s.cfg, loneLayout := false } } u
      ∧ (s.mem.wf = true → (releaseInit u).mem.wf = true)
      ∧ (∀ b, s.mem.wf = true → s.hwSpares b = true → (releaseInit u).mem.byte b =
          if ibase s.params s.inst ≤ b ∧ b < ibase s.params s.inst + total s.params then 0#8 else s.mem.byte b) := by
  obtain ⟨lr, kr⟩ := requestInit_spec s
  obtain ⟨q, hq⟩ : ∃ q : State, q = { afterPoll (k + 1) (requestInit s) with seq := .initializing } := ⟨_, rfl⟩
  have lq : Leaves (2 + (k + 1)) s q := by
    rw [hq]; exact (lr.trans (afterPoll_leaves (k + 1) (requestInit s))).of_eq rfl rfl rfl rfl rfl
  have kq : KeepsBlock { s with ready := false, seq := .initializing, launch := { initCfg := s.cfg, loneLayout := false } } q := by
    have kp := kr.trans (afterPoll_keeps (k + 1) (requestInit s))
    rw [hq]
    exact ⟨kp.params, kp.inst, kp.cfg, kp.cfgWritten, kp.map, kp.lastReq, rfl, kp.ready, kp.status, kp.res, kp.script, kp.launch⟩
  rw [← hq]
  obtain ⟨lc, kc⟩ := configure_spec q t
  rw [show q.cfg = s.cfg from kq.cfg] at lc
  obtain ⟨w, hw⟩ : ∃ w : State, w = writeFilterCount (applyFlags (btSet t (enableConfig q))) := ⟨_, rfl⟩
  rw [← hw] at lc kc
  have ll := lq.trans lc
  obtain ⟨v, h1, h2, h3, h4⟩ := layoutSteps_spec w (by rw [ll.params]; exact hp) (by rw [ll.inst, ll.params]; exact hi)
  rw [ll.params, ll.inst] at h2 h4
  obtain ⟨u, hu⟩ : ∃ u : State, u = { v with lastReq := 0#32 } := ⟨_, rfl⟩
  have hvp : u.params = s.params := by rw [hu, h2]
  have hvi : u.inst = s.inst := by rw [hu, h2]
  have hvh : u.hw = w.hw.drop (total s.params / 4) := by rw [hu, h2]
  have hvr : u.regs = (afterMoves (total s.params / 4) w).regs := by rw [hu, h2]
  have lv : Follows (total s.params / 4) w u := ⟨hvh, by rw [hvr]; rfl⟩
  have lr' := releaseInit_leaves u
  refine ⟨w, u, ?_, hw, hvr, ll.params, ?_, ?_, ?_, fun hm => lr'.wf (by rw [hu]; exact h3 (ll.wf hm)), fun b hm hs => ?_⟩
  · simp only [configure, ← hw, h1, andThen, hu]
  · rw [hu, h2]
  · have hf := (ll.toFollows.trans lv).trans lr'.toFollows
    have he : initAccesses s k = 2 + (k + 1) + (2 + 2 + ((if s.cfg.loopback = true then 2 else 0)
        + if s.cfg.txQueueMode = true then 2 else 0) + 2) + total s.params / 4 + 2 := by
      unfold initAccesses; omega
    rw [he]; exact hf
  · refine ⟨hvp, hvi, ?_, ?_, ?_, ?_, ?_, ?_, ?_, ?_, ?_, ?_⟩
    · rw [hu, h2]; exact kc.cfg.trans kq.cfg
    · rw [hu, h2]; exact kc.cfgWritten.trans kq.cfgWritten
    · rw [hu, h2]
    · rw [hu]; rfl
    · rw [hu, h2]; exact kc.seq
    · rw [hu, h2]; exact kc.ready.trans kq.ready
    · rw [hu, h2]; exact kc.status.trans kq.status
    · rw [hu, h2]; exact kc.res.trans kq.res
    · rw [hu, h2]; exact kc.script.trans kq.script
    · rw [hu, h2]; exact kc.launch.trans kq.launch
  · have hsw := hwSpares_of_drop ll.hw ll.params ll.inst hs
    have hsu : u.hwSpares b = true := hwSpares_of_drop hvh (hvp.trans ll.params.symm) (hvi.trans ll.inst.symm) hsw
    have hum : u.mem = v.mem := by rw [hu]
    rw [lr'.byte b (by rw [hvp]; exact hp) (by rw [hum]; exact h3 (ll.wf hm)) hsu, hum,
      h4 b (ll.wf hm) hsw, ll.byte b hp hm hs]

/-- What step 3a to 3d of INIT leaves in the registers (R161 to R164). -/
theorem configure_regs (t : Timing) (s : State) (hf : s.params.gfLsb + s.params.gfW ≤ 32)
    (hn : s.cfg.nStd < 2 ^ s.params.gfW) (w : State) (hw : w = writeFilterCount (applyFlags (btSet t (enableConfig s)))) :
    w.regs.ntim = t.pack ∧ w.regs.dtim = t.pack
      ∧ w.regs.test.getLsbD 4 = (s.cfg.loopback || s.regs.test.getLsbD 4)
      ∧ w.regs.txcfg.getLsbD 24 = (s.cfg.txQueueMode || s.regs.txcfg.getLsbD 24)
      ∧ w.regs.rxack0 = s.regs.rxack0 ∧ w.regs.rxack1 = s.regs.rxack1
      ∧ (∀ i, s.params.gfLsb ≤ i ∧ i < s.params.gfLsb + s.params.gfW →
          w.regs.gfilt.getLsbD i = (BitVec.ofNat 32 s.cfg.nStd).getLsbD (i - s.params.gfLsb)) := by
  subst hw
  have e1 : (applyFlags (btSet t (enableConfig s))).params = s.params :=
    ((applyFlags_keeps _).params.trans (btSet_keeps _ _).params).trans (by simp [enableConfig])
  have e2 : (applyFlags (btSet t (enableConfig s))).cfg = s.cfg :=
    ((applyFlags_keeps _).cfg.trans (btSet_keeps _ _).cfg).trans (by simp [enableConfig])
  have e3 : (btSet t (enableConfig s)).cfg = s.cfg := (btSet_keeps _ _).cfg.trans (by simp [enableConfig])
  have e4 : (enableConfig s).cfg = s.cfg := by simp [enableConfig]
  refine ⟨?_, ?_, ?_, ?_, ?_, ?_, fun i hi => ?_⟩
  · simp only [writeFilterCount, readModifyWrite, regWrite_regs, Regs.write, hwMoves_ntim, regRead_regs]
    rw [applyFlags_eq]
    split <;> [skip; skip] <;> split <;>
      simp [readModifyWrite, Regs.write, btSet]
  · simp only [writeFilterCount, readModifyWrite, regWrite_regs, Regs.write, hwMoves_dtim, regRead_regs]
    rw [applyFlags_eq]
    split <;> [skip; skip] <;> split <;>
      simp [readModifyWrite, Regs.write, btSet]
  · simp only [writeFilterCount, readModifyWrite, regWrite_regs, Regs.write, hwMoves_test_lbck, regRead_regs]
    rw [applyFlags_eq, e3]
    have hb : (btSet t (enableConfig s)).regs.test[4] = s.regs.test[4] := by
      simp [btSet, Regs.write, enableConfig, readModifyWrite]
    cases s.cfg.loopback <;> cases s.cfg.txQueueMode <;>
      simp [readModifyWrite, Regs.write, regRead_fst, Regs.read, hb]
  · simp only [writeFilterCount, readModifyWrite, regWrite_regs, Regs.write, hwMoves_txcfg_tfqm, regRead_regs]
    rw [applyFlags_eq, e3]
    have hb : (btSet t (enableConfig s)).regs.txcfg[24] = s.regs.txcfg[24] := by
      simp [btSet, Regs.write, enableConfig, readModifyWrite]
    cases s.cfg.loopback <;> cases s.cfg.txQueueMode <;>
      simp [readModifyWrite, Regs.write, regRead_fst, Regs.read, hb]
  · simp only [writeFilterCount, readModifyWrite, regWrite_regs, Regs.write, hwMoves_rxack0, regRead_regs]
    rw [applyFlags_eq]
    split <;> [skip; skip] <;> split <;>
      simp [readModifyWrite, Regs.write, btSet, enableConfig]
  · simp only [writeFilterCount, readModifyWrite, regWrite_regs, Regs.write, hwMoves_rxack1, regRead_regs]
    rw [applyFlags_eq]
    split <;> [skip; skip] <;> split <;>
      simp [readModifyWrite, Regs.write, btSet, enableConfig]
  · have hlt : (BitVec.ofNat 32 s.cfg.nStd).toNat < 2 ^ s.params.gfW := by
      rw [BitVec.toNat_ofNat]; exact lt_of_le_of_lt (Nat.mod_le _ _) hn
    simp only [writeFilterCount, readModifyWrite, regWrite_regs, Regs.write, e1, e2]
    rw [getLsbD_putField _ _ _ _ _ hf hlt, if_pos hi]

end Sys2Proof.Machine
end

