-- ==== Sys2Proof/Laws/Commands.lean ====
section
/-! SUPPORT. One spec lemma for the longest part of each command: the stores of FILTSET and TXSEND, the loads of RXRECV,
INIT up to its exit poll; and the addresses and payload bytes they rest on. -/

namespace Sys2Proof.Machine

/-- R68, R103: the address of a filter element, and that its word is accessible. -/
theorem filterAddress_eq (s : State) (hM : Mapped s) (idx : Nat) (h : idx < s.params.nSf) :
   filterAddress s idx = filterElement s idx ∧ accessible s.params s.inst (filterElement s idx) = true := by
  obtain ⟨hp, hi, hm⟩ := hM
  have ok := paramsOk hp
  have e := slot_end_le (es := s.params.esSf) h
  have l0 := layoutAt_zero s.params s.inst
  have l1 := layoutAt_one s.params s.inst
  have tt := total_eq s.params
  have ie := ibase_end_le hi
  have he := ok.noWrap
  have h4 := ok.esSf
  constructor
  · simp only [filterAddress, filterElement, hm, layoutMap, BitVec.toNat_ofNat]
    rw [Nat.mod_eq_of_lt (by omega)]
  · apply accessible_of _ _ _ hi
    · simp only [filterElement, l0]
      have := ibase_mod4 ok s.inst
      have : idx * s.params.esSf % 4 = 0 := by rw [Nat.mul_mod, ok.esSf4]; simp
      omega
    · simp only [filterElement, l0]; omega
    · simp only [filterElement, l0]; omega

/-- Under launch premise P3 the CFG has not changed since INIT. -/
theorem cfgChanged_of_eq {s : State} (h : s.cfg = s.launch.initCfg) : cfgChanged s = false := by simp [cfgChanged, h]

/-- The check of R273 passes under launch premise P3. -/
theorem whenCfgKept_kept {s : State} (h : s.cfg = s.launch.initCfg) (k : State → Out) : whenCfgKept s k = k s := by
  rw [whenCfgKept, cfgChanged_of_eq h]; rfl

/-- The check of R273 on a ready block whose CFG has changed. -/
theorem whenCfgKept_changed {s : State} (hr : s.ready = true) (h : s.cfg ≠ s.launch.initCfg) (k : State → Out) :
    whenCfgKept s k = .refused .cfgChangedAfterInit := by
  rw [whenCfgKept, if_pos (by simp [cfgChanged, hr, h])]

/-- What the check of R273 can do when it answers next. -/
theorem whenCfgKept_next {s t : State} {k : State → Out} (h : whenCfgKept s k = .next t) :
    (s.ready = true → s.cfg = s.launch.initCfg) ∧ k s = .next t := by
  unfold whenCfgKept at h
  split at h
  · exact absurd h (by simp)
  · rename_i hc
    exact ⟨by simpa [cfgChanged] using hc, h⟩

/-- The first check of the four commands passes on a ready block under P3. -/
theorem whenReady_kept {s : State} (hr : s.ready = true) (h : s.cfg = s.launch.initCfg) (k : State → Out) :
    whenReady s k = k s := by
  rw [whenReady, if_pos hr, whenCfgKept_kept h]

/-- What the first check of the four commands can do when it answers next. -/
theorem whenReady_next {s t : State} {k : State → Out} (h : whenReady s k = .next t) :
    (s.ready = false ∧ t = raise .notInitialised s)
    ∨ (s.ready = true ∧ s.cfg = s.launch.initCfg ∧ k s = .next t) := by
  unfold whenReady at h
  split at h
  · rename_i hr
    exact .inr ⟨hr, (whenCfgKept_next h).1 hr, (whenCfgKept_next h).2⟩
  · rename_i hr
    injection h with h
    exact .inl ⟨by simpa using hr, h.symm⟩

/-- The spec of `storeFilter` on an admitted index. -/
theorem storeFilter_next (s : State) (idx : Nat) (w : Word) (k : State → Out) (hM : Mapped s) (hK : CfgKept s)
    (h : idx < s.cfg.nStd) :
    storeFilter idx w s k = k { s with regs := (hwMoves s).regs, hw := s.hw.tail, mem := (hwMoves s).mem.setWord (filterElement s idx) w, bus := .memWrite (filterElement s idx) w :: s.bus } := by
  have hb : s.cfg.nStd ≤ s.params.nSf := by rw [hK.1]; exact hK.2
  obtain ⟨e1, e2⟩ := filterAddress_eq s hM idx (by omega)
  simp only [storeFilter, if_neg (Nat.not_le.mpr h), e1, memWrite_next e2, andThen]
  congr 1
  ext1 <;> simp

/-- R64, R192: MAP holds the TX region's start, an element's 18 words are accessible, its bytes lie in the region. -/
theorem txSlot_facts (s : State) (hM : Mapped s) (put : BitVec 2) (h : put.toNat < s.params.nTxq) :
   s.map.txq.toNat = layoutAt s.params s.inst 5 ∧ 
   (∀ j, j < 18 → accessible s.params s.inst (txSlotElement s put + 4 * j) = true) ∧
   (∀ b, txSlotElement s put ≤ b → b < txSlotElement s put + 72 → layoutAt s.params s.inst 5 ≤ b ∧ b < ibase s.params s.inst + total s.params) := by
  obtain ⟨hp, hi, hm⟩ := hM
  have ok := paramsOk hp
  have e := slot_end_le (es := s.params.esTxq) h
  have l5 := txRegion_end_eq s.params s.inst
  have ie := ibase_end_le hi
  have he := ok.noWrap
  have h72 := ok.esTxq
  have hle := ibase_le_layoutAt s.params s.inst 5
  refine ⟨?_, fun j hj => ?_, fun b h1 h2 => ?_⟩
  · rw [hm]; simp only [layoutMap, BitVec.toNat_ofNat]; apply Nat.mod_eq_of_lt; omega
  · apply accessible_of _ _ _ hi
    · have := layoutAt_mod4 ok s.inst (k := 5) (by omega)
      have : put.toNat * s.params.esTxq % 4 = 0 := by rw [Nat.mul_mod, ok.esTxq4]; simp
      simp only [txSlotElement]; omega
    · simp only [txSlotElement]; omega
    · simp only [txSlotElement]; omega
  · simp only [txSlotElement] at *; omega

/-- A TX element has at most 18 words. -/
theorem txElementWords_length (p : Params) (ok : ParamsOk p) (id dlc buf) : (txElementWords p id dlc buf).length ≤ 18 := by
  have := ceil4_le (dlcToLen_le ok dlc)
  simp [txElementWords]; omega

/-- TXSEND on a free slot up to the hand-off: the stores, and what they leave. -/
theorem txsend_stores (s : State) (id : BitVec 11) (dlc : BitVec 4) (buf : Vector Byte 64) (put : BitVec 2) (ws : List Word)
    (hL : Launched s) (hf : (hwMoves s).regs.txstat.getLsbD 21 = false) (hput : put = field (hwMoves s).regs.txstat 16 2)
    (h : put.toNat < s.params.nTxq) (hws : ws = txElementWords s.params id dlc buf) :
    ∃ v, storeWords (txSlotElement s put) ws (regRead .txstat s).2 = .next v ∧ exec (.txsend id dlc buf) s = .next (raise .ok (handOff put v))
      ∧ v = { (regRead .txstat s).2 with regs := (afterMoves ws.length (regRead .txstat s).2).regs, mem := v.mem, hw := (regRead .txstat s).2.hw.drop ws.length, bus := (memWrites (txSlotElement s put) ws).reverse ++ (regRead .txstat s).2.bus }
      ∧ (s.mem.wf = true → v.mem.wf = true)
      ∧ (∀ b, s.mem.wf = true → s.hwSpares b = true →
          v.mem.byte b = if txSlotElement s put ≤ b ∧ b < txSlotElement s put + 4 * ws.length then unpackByte (ws.getD ((b - txSlotElement s put) / 4) 0) ((b - txSlotElement s put) % 4)
            else s.mem.byte b) := by
  obtain ⟨hmap, hacc, -⟩ := txSlot_facts s hL.mapped put h
  have ok := paramsOk hL.mapped.1
  have hlen := txElementWords_length s.params ok id dlc buf
  rw [← hws] at hlen
  obtain ⟨v, h1, h2, h3, h4⟩ := storeWords_spec ws (txSlotElement s put) (regRead .txstat s).2 (fun j hj => by
    simp only [regRead_params, regRead_inst]; exact hacc j (by omega))
  have hE : txElement (regRead .txstat s).2 put = txSlotElement s put := by simp [txElement, txSlotElement, hmap]
  refine ⟨v, h1, ?_, h2, fun hw => h3 (hwMoves_wf s hw), fun b hw hs => ?_⟩
  · have hW : txWords (regRead .txstat s).2.params id dlc buf = ws := by rw [regRead_params, hws]; rfl
    have hp' : txPut ((hwMoves s).regs.read .txstat) = put := by rw [hput]; rfl
    have hf' : txFull ((hwMoves s).regs.read .txstat) = false := hf
    simp only [exec, execTxsend, whenReady_kept hL.ready hL.cfgKept.1, sendFrom, regRead_fst, hf', hp', Bool.false_eq_true, if_false, whenTxSlot]
    rw [if_neg (by rw [regRead_params]; omega), hE, hW, h1]; rfl
  · rw [h4 b (by simpa using ok) (hwMoves_wf s hw) (hwSpares_of_tail (by simp) (by simp) (by simp) hs)]
    split
    · rfl
    · exact hwMoves_byte s b ok hw hs

/-- R76 (a): HW spares the filter lists and the TX region. -/
theorem hwSpares_block (s : State) (_hp : paramsWf s.params = true) (b : Nat)
   (h : (layoutAt s.params s.inst 0 ≤ b ∧ b < layoutAt s.params s.inst 2)
        ∨ (layoutAt s.params s.inst 5 ≤ b ∧ b < ibase s.params s.inst + total s.params)) : s.hwSpares b = true := by
  have e0 := rxRegion_end_le s.params s.inst false
  have e1 := rxRegion_end_le s.params s.inst true
  have l0 := layoutAt_zero s.params s.inst
  have l2 := layoutAt_two s.params s.inst
  have l3 := layoutAt_three s.params s.inst
  have l4 := layoutAt_four s.params s.inst
  have l5 := layoutAt_five s.params s.inst
  have tt := total_eq s.params
  simp only [State.hwSpares, List.all_eq_true]
  intro x hx y hy
  cases y <;> simp only [HwAct.mayWrite, Bool.not_false]
  case deliver f _ _ _ =>
    cases f <;> simp [rxRegion, regionSize, regionSizes] <;> omega
  case teFifo => simp [regionSize, regionSizes]; omega
  case loopback _ f _ _ _ => cases f <;> simp [rxRegion, regionSize, regionSizes] <;> omega
  case other a w => simp; omega

/-- Words whose bytes are known. -/
theorem Memory.words_of_bytes (m : Memory) (ws : List Word) (a : Nat) (h : ∀ b, a ≤ b → b < a + 4 * ws.length → m.byte b = unpackByte (ws.getD ((b - a) / 4) 0) ((b - a) % 4)) :
   m.words a ws.length = ws := by
  induction ws generalizing a with
  | nil => rfl
  | cons w ws ih =>
    simp only [List.length_cons, Memory.words]
    rw [ih (a+4)]
    · congr 1
      have e : ∀ j, j < 4 → m.byte (a+j) = unpackByte w j := by
        intro j hj
        rw [h (a+j) (by omega) (by simp; omega), show (a + j - a)/4 = 0 by omega, show (a+j-a) % 4 = j by omega]; rfl
      have := wordOfBytes_unpackByte w
      rw [Memory.word, show m.byte a = unpackByte w 0 from e 0 (by omega), e 1 (by omega), e 2 (by omega), e 3 (by omega)]; exact this
    · intro b h1 h2
      rw [h b (by omega) (by simp; omega), show (b - a)/4 = (b - (a+4))/4 + 1 by omega, show (b - a) % 4 = (b - (a+4)) % 4 by omega]; rfl

/-- R76 (a): HW spares a TX element. -/
theorem hwSpares_txSlot (s : State) (hM : Mapped s) (put : BitVec 2) (h : put.toNat < s.params.nTxq) (b : Nat) (h1 : txSlotElement s put ≤ b) (h2 : b < txSlotElement s put + 72) :
   s.hwSpares b = true := hwSpares_block s hM.1 b (Or.inr ((txSlot_facts s hM put h).2.2 b h1 h2))

/-- A read of RXSTATf. -/
theorem read_rxStatReg (g : Regs) (f : Bool) : g.read (rxStatReg f) = g.rxStat f := by cases f <;> rfl

/-- R65, R215: MAP holds the RX region's start, and an element's 18 words are accessible. -/
theorem rxSlot_facts (s : State) (hM : Mapped s) (f : Bool) (get : BitVec 2) (h : get.toNat < rxSlots s.params f) :
   (rxBase s.map f).toNat = layoutAt s.params s.inst (rxRegion f) ∧ 
   (∀ j, j < 18 → accessible s.params s.inst (rxSlotElement s f get + 4 * j) = true) := by
  obtain ⟨hp, hi, hm⟩ := hM
  have ok := paramsOk hp
  have e := slot_end_le (es := rxElemSize s.params f) h
  have l5 := rxRegion_end_le s.params s.inst f
  have ie := ibase_end_le hi
  have he := ok.noWrap
  have h72 : 72 ≤ rxElemSize s.params f := by cases f; exact ok.esRf0; exact ok.esRf1
  have h4 : rxElemSize s.params f % 4 = 0 := by cases f; exact ok.esRf04; exact ok.esRf14
  have hle := ibase_le_layoutAt s.params s.inst (rxRegion f)
  refine ⟨?_, fun j hj => ?_⟩
  · rw [hm]
    have : layoutAt s.params s.inst (rxRegion f) < 2^32 := by omega
    cases f <;> simp only [rxBase, layoutMap, rxRegion, BitVec.toNat_ofNat, if_true, Bool.false_eq_true, if_false] at * <;> exact Nat.mod_eq_of_lt this
  · apply accessible_of _ _ _ hi
    · have := layoutAt_mod4 ok s.inst (k := rxRegion f) (by cases f <;> simp [rxRegion])
      have : get.toNat * rxElemSize s.params f % 4 = 0 := by rw [Nat.mul_mod, h4]; simp
      simp only [rxSlotElement]; omega
    · simp only [rxSlotElement]; omega
    · simp only [rxSlotElement]; omega

/-- `memRead` where the word and the moves are known under other names. -/
theorem memRead_at {a : Nat} {s u : State} {v : Word} (h : accessible s.params s.inst a = true) (hv : v = (hwMoves s).mem.word a) (hu : u = hwMoves s) :
   memRead a s = .ok (v, logAccess (.memRead a v) u) := by
  subst hv; subst hu; exact memRead_ok h

/-- RXRECV on a queued element up to the acknowledge: the loads, and what they return. -/
theorem rxrecv_loads (s : State) (f : Bool) (get : BitVec 2) (w0 w1 : Word) (ws : List Word) (len : Nat)
    (hL : Launched s) (hf : field ((hwMoves s).regs.rxStat f) 0 4 ≠ 0) (hget : get = field ((hwMoves s).regs.rxStat f) 8 2)
    (h : get.toNat < rxSlots s.params f)
    (hw0 : w0 = (afterMoves 2 s).mem.word (rxSlotElement s f get))
    (hw1 : w1 = (afterMoves 3 s).mem.word (rxSlotElement s f get + 4)) (hlen : len = dlcToLen s.params (field w1 16 4))
    (hws : ws = loadedWords (rxSlotElement s f get + 8) ((len + 3) / 4) (afterMoves 3 s)) :
    ∃ z : State, z = { afterMoves ((len+3)/4) (afterMoves 3 s) with bus := (memReads (rxSlotElement s f get) (w0 :: w1 :: ws)).reverse ++ readOf s (rxStatReg f) ((hwMoves s).regs.rxStat f) :: s.bus }
     ∧ exec (.rxrecv f) s = .next (raise .ok (regWrite (rxAckReg f) (get.setWidth 32) { z with res := takeFrame s.params w0 w1 ws s.res })) := by
  have ok := paramsOk hL.mapped.1
  obtain ⟨hb, hacc⟩ := rxSlot_facts s hL.mapped f get h
  have hE : rxElement (regRead (rxStatReg f) s).2 f get = rxSlotElement s f get := by
    simp [rxElement, rxSlotElement, hb]
  have hl64 : len ≤ 64 := by rw [hlen]; exact dlcToLen_le ok _
  have hnw : ceil4 len ≤ 16 := ceil4_le hl64
  have a3 : hwMoves (afterMoves 2 s) = afterMoves 3 s := rfl
  have a2 : hwMoves (hwMoves s) = afterMoves 2 s := rfl
  generalize hA3 : afterMoves 3 s = A3 at *
  generalize hA2 : afterMoves 2 s = A2 at *
  have p3 : A3.params = s.params := by rw [← hA3]; simp
  have i3 : A3.inst = s.inst := by rw [← hA3]; simp
  have p2 : A2.params = s.params := by rw [← hA2]; simp
  have i2 : A2.inst = s.inst := by rw [← hA2]; simp
  generalize hxr : readOf s (rxStatReg f) ((hwMoves s).regs.rxStat f) = xr
  have hs1 : (regRead (rxStatReg f) s).2 = logAccess xr (hwMoves s) := by rw [← hxr]; simp only [regRead, read_rxStatReg]; rfl
  have hm1 : memRead (rxSlotElement s f get) (regRead (rxStatReg f) s).2 = .ok (w0, logAccess (.memRead (rxSlotElement s f get) w0) (logAccess xr A2)) := by
    rw [hs1]
    apply memRead_at
    · simp only [logAccess_params, logAccess_inst, hwMoves_params, hwMoves_inst]; exact hacc 0 (by omega)
    · rw [hw0, hwMoves_logAccess, a2]; rfl
    · rw [hwMoves_logAccess, a2]
  have hm2 : memRead (rxSlotElement s f get + 4) (logAccess (.memRead (rxSlotElement s f get) w0) (logAccess xr A2)) = .ok (w1, logAccess (.memRead (rxSlotElement s f get + 4) w1) (logAccess (.memRead (rxSlotElement s f get) w0) (logAccess xr A3))) := by
    apply memRead_at
    · simp only [logAccess_params, logAccess_inst, p2, i2]; exact hacc 1 (by omega)
    · rw [hw1, hwMoves_logAccess, hwMoves_logAccess, a3]; rfl
    · rw [hwMoves_logAccess, hwMoves_logAccess, a3]
  generalize hB : logAccess (.memRead (rxSlotElement s f get + 4) w1) (logAccess (.memRead (rxSlotElement s f get) w0) (logAccess xr A3)) = B at *
  have hws' : loadedWords (rxSlotElement s f get + 8) (ceil4 len) B = ws := by
    rw [hws]; exact loadedWords_congr _ _ _ _ (by simp [← hB]) (by simp [← hB]) (by simp [← hB]) (by simp [← hB]) (by simp [← hB])
  have hm3 := loadWords_spec (ceil4 len) (rxSlotElement s f get + 8) B (fun j hj => by
    simp only [← hB, logAccess_params, logAccess_inst, p3, i3]
    have := hacc (j+2) (by omega); rwa [show rxSlotElement s f get + 4 * (j+2) = rxSlotElement s f get + 8 + 4 * j by omega] at this)
  rw [hws'] at hm3
  have hBb : B.bus = [.memRead (rxSlotElement s f get + 4) w1, .memRead (rxSlotElement s f get) w0, xr] ++ s.bus := by
    rw [← hB, ← hA3]; simp
  have hBeq : ∀ n, { afterMoves n B with bus := s.bus } = { afterMoves n A3 with bus := s.bus } := by
    intro n; rw [← hB]; simp only [afterMoves_logAccess]; rfl
  have hlen' : dlcToLen B.params (rxW1Dlc w1) = len := by
    rw [hlen, ← hB]; simp [rxW1Dlc, p3]
  have hBp : B.params = s.params := by rw [← hB]; simp [p3]
  have hBr : B.res = s.res := by rw [← hB, ← hA3]; simp
  refine ⟨_, rfl, ?_⟩
  simp only [exec, execRxrecv, whenReady_kept hL.ready hL.cfgKept.1, regRead_fst, read_rxStatReg, receiveFrom, rxFillLevel, if_neg hf, rxGet, regRead_params, ← hget, hE]
  rw [if_neg (by omega)]
  simp only [receiveAt, hm1, hm2, hlen', hm3]
  congr 3
  have e1 := hBeq (ceil4 len)
  have e2 : ceil4 len = (len+3)/4 := rfl
  rw [e2] at *
  have ep := congrArg State.params e1
  have ei := congrArg State.inst e1
  have ec := congrArg State.cfg e1
  have ew := congrArg State.cfgWritten e1
  have em := congrArg State.map e1
  have el := congrArg State.lastReq e1
  have es := congrArg State.seq e1
  have er := congrArg State.ready e1
  have et := congrArg State.status e1
  have eg := congrArg State.regs e1
  have emm := congrArg State.mem e1
  have eh := congrArg State.hw e1
  have esc := congrArg State.script e1
  have ela := congrArg State.launch e1
  have hAs : A3.res = s.res := by rw [← hA3]; simp
  ext1
  · exact ep
  · exact ei
  · exact ec
  · exact ew
  · exact em
  · exact el
  · exact es
  · exact er
  · exact et
  · show takeFrame (afterMoves ((len+3)/4) B).params w0 w1 ws (afterMoves ((len+3)/4) B).res = _
    rw [afterMoves_params, afterMoves_res, hBp, hBr]
  · exact eg
  · exact emm
  · exact eh
  · exact esc
  · exact ela
  · show (memReads (rxSlotElement s f get + 8) ws).reverse ++ B.bus = _
    rw [hBb]; simp [memReads]

/-- R219: byte `j` of the payload is byte `j & 3` of word `j >> 2`. -/
theorem unpackPayload_getD (ws : List Word) (len j : Nat) (h : len ≤ 4 * ws.length) (hj : j < len) :
   (unpackPayload ws len).getD j 0 = unpackByte (ws.getD (j/4) 0) (j % 4) := by
  have g : ∀ (ws : List Word) (j : Nat), j < 4 * ws.length → (ws.flatMap bytesOfWord).getD j 0 = unpackByte (ws.getD (j/4) 0) (j % 4) := by
    intro ws
    induction ws with
    | nil => intro j h; simp at h
    | cons w ws ih =>
      intro j h
      rw [List.flatMap_cons]
      by_cases hj : j < 4
      · have : j = 0 ∨ j = 1 ∨ j = 2 ∨ j = 3 := by omega
        rcases this with rfl | rfl | rfl | rfl <;> simp [bytesOfWord]
      · simp only [List.length_cons] at h
        have := ih (j-4) (by omega)
        rw [List.getD_append_right _ _ _ _ (by simp [bytesOfWord]; omega)]
        rw [show (bytesOfWord w).length = 4 from rfl, this, show j/4 = (j-4)/4 + 1 by omega, show j % 4 = (j-4)%4 by omega]; rfl
  rw [← g ws j (by omega)]
  simp only [unpackPayload, List.getD_eq_getElem?_getD, List.getElem?_take, if_pos hj]

/-- R219: the payload has `len` bytes. -/
theorem unpackPayload_length (ws : List Word) (len : Nat) (h : len ≤ 4 * ws.length) : (unpackPayload ws len).length = len := by
  have : (ws.flatMap bytesOfWord).length = 4 * ws.length := by
    induction ws with
    | nil => rfl
    | cons w ws ih => 
      by_cases hh : len ≤ 4 * ws.length
      · rw [List.flatMap_cons, List.length_append, ih hh]; simp [bytesOfWord]; omega
      · rw [List.flatMap_cons, List.length_append]
        have : ∀ l : List Word, (l.flatMap bytesOfWord).length = 4 * l.length := by
          intro l; induction l with
          | nil => rfl
          | cons a l ih => rw [List.flatMap_cons, List.length_append, ih]; simp [bytesOfWord]; omega
        rw [this]; simp [bytesOfWord]; omega
  simp [unpackPayload, this]; exact h

/-- R220: byte `j` of the buffer filled in place. -/
theorem fillBuf_get (old : Vector Byte 64) (new : List Byte) (_h : new.length ≤ 64) (j : Nat) (hj : j < 64) :
   (fillBuf old new)[j] = if j < new.length then new.getD j 0 else old[j] := by
  simp only [fillBuf, Vector.getElem_mk, List.getElem_toArray, List.getElem_take]
  by_cases hn : j < new.length
  · rw [if_pos hn, List.getElem_append_left hn]; simp [hn]
  · rw [if_neg hn, List.getElem_append_right (by omega)]; simp; congr 1; omega

/-- INIT up to its exit poll, where its entry poll sees the acknowledgment. -/
theorem init_toExit (s : State) (k : Nat) (hp : paramsWf s.params = true) (hi : s.inst < s.params.nInst) (hc : ConfigOk s)
   (hk : pollSees s true 2 k) :
   ∃ t w u, t.pack = btPack s.cfg ∧ exec .init s = awaitMode false .exit (releaseInit u) (fun s3 => .next (finishInit s3))
     ∧ w = writeFilterCount (applyFlags (btSet t (enableConfig
          { afterPoll (k + 1) (requestInit s) with seq := .initializing })))
      ∧ u.regs = (afterMoves (total s.params / 4) w).regs ∧ w.params = s.params
      ∧ u.bus = (memWrites (ibase s.params s.inst) (List.replicate (total s.params / 4) 0#32)).reverse ++ w.bus
      ∧ Follows (initAccesses s k) s (releaseInit u)
      ∧ KeepsBlock { s with ready := false, seq := .configEnabled, map := layoutMap s.params s.inst, lastReq := 0, launch := { initCfg := s.cfg, loneLayout := false } } u
      ∧ (s.mem.wf = true → (releaseInit u).mem.wf = true)
      ∧ (∀ b, s.mem.wf = true → s.hwSpares b = true → (releaseInit u).mem.byte b =
          if ibase s.params s.inst ≤ b ∧ b < ibase s.params s.inst + total s.params then 0#8 else s.mem.byte b) := by
  obtain ⟨t, ht, htp⟩ := checkedTiming_ok hc
  obtain ⟨w, u, h1, h2, h3, h4, h5, h6, h7, h8, h9⟩ := initBeforeExit s k t (paramsOk hp) hi
  refine ⟨t, w, u, htp, ?_, h2, h3, h4, h5, h6, h7, h8, h9⟩
  have hf := (requestInit_spec s).1.toFollows
  have hpar : (requestInit s).params = s.params := (requestInit_spec s).1.params
  simp only [exec, execInit, if_pos hi, ht]
  rw [awaitMode_sees true .entry k (requestInit s) _ (fun j hj => by rw [hf.ackAt]; have := hk.1 j hj; rwa [show 2 + (1 + j) = 2 + 1 + j by omega])
    (by rw [hf.ackAt]; have := hk.2.1; rwa [show 2 + (1 + k) = 2 + 1 + k by omega]) (by rw [hpar]; exact hk.2.2)]
  simp only [h1, andThen]

/-- The registers of INIT during its exit poll. -/
theorem init_exitRegs (s : State) (k : Nat) (t : Timing) (w u : State) (hp : paramsWf s.params = true) (hc : ConfigOk s)
  (hw : w = writeFilterCount (applyFlags (btSet t (enableConfig
          { afterPoll (k + 1) (requestInit s) with seq := .initializing }))))
  (hu : u.regs = (afterMoves (total s.params / 4) w).regs) (hwp : w.params = s.params) (hup : u.params = s.params) (n : Nat) :
  (afterPoll n (releaseInit u)).regs.ntim = t.pack ∧ (afterPoll n (releaseInit u)).regs.dtim = t.pack
  ∧ (afterPoll n (releaseInit u)).regs.mode.getLsbD 0 = false
  ∧ (afterPoll n (releaseInit u)).regs.test.getLsbD 4 = (s.cfg.loopback || s.regs.test.getLsbD 4)
  ∧ (afterPoll n (releaseInit u)).regs.txcfg.getLsbD 24 = (s.cfg.txQueueMode || s.regs.txcfg.getLsbD 24)
  ∧ (∀ i, i < s.params.gfW → (afterPoll n (releaseInit u)).regs.gfilt.getLsbD (s.params.gfLsb + i) = s.cfg.nStd.testBit i)
  ∧ (afterPoll n (releaseInit u)).regs.rxack0 = s.regs.rxack0 ∧ (afterPoll n (releaseInit u)).regs.rxack1 = s.regs.rxack1 := by
  obtain ⟨q, hq⟩ : ∃ q : State, q = { afterPoll (k + 1) (requestInit s) with seq := .initializing } := ⟨_, rfl⟩
  have hqr : q.regs = (afterPoll (k + 1) (requestInit s)).regs := by rw [hq]
  have hqc : q.cfg = s.cfg := by rw [hq]; exact ((requestInit_spec s).2.trans (afterPoll_keeps _ _)).cfg
  have hqp : q.params = s.params := by rw [hq]; exact ((requestInit_spec s).2.trans (afterPoll_keeps _ _)).params
  rw [← hq] at hw
  have hok := paramsOk hp
  have hgf : s.params.gfLsb + s.params.gfW ≤ 32 := hok.gf
  obtain ⟨a1, a2, a3, a4, a5, a6, a7⟩ := configure_regs t q (by rw [hqp]; exact hgf) (by rw [hqp, hqc]; exact hc.nStd.2) w hw
  have b1 : q.regs.test[4] = s.regs.test[4] := by
    rw [hqr]; simp [afterPoll, requestInit, readModifyWrite, Regs.write]
  have b2 : q.regs.txcfg[24] = s.regs.txcfg[24] := by
    rw [hqr]; simp [afterPoll, requestInit, readModifyWrite, Regs.write]
  have b3 : q.regs.rxack0 = s.regs.rxack0 := by
    rw [hqr]; simp [afterPoll, requestInit, readModifyWrite, Regs.write]
  have b4 : q.regs.rxack1 = s.regs.rxack1 := by
    rw [hqr]; simp [afterPoll, requestInit, readModifyWrite, Regs.write]
  have c : ∀ m, (afterPoll m (releaseInit u)).regs = (afterMoves m (releaseInit u)).regs := fun _ => rfl
  have hrp : (releaseInit u).params = s.params := by simp [releaseInit, hup]
  simp only [c]
  refine ⟨?_, ?_, ?_, ?_, ?_, fun i hi => ?_, ?_, ?_⟩
  · simp [releaseInit, readModifyWrite, Regs.write, hu, a1]
  · simp [releaseInit, readModifyWrite, Regs.write, hu, a2]
  · simp [releaseInit, readModifyWrite, Regs.write]
  · rw [BitVec.getLsbD_eq_getElem (by omega)]
    have : w.regs.test[4] = (s.cfg.loopback || s.regs.test[4]) := by
      rw [← hqc, ← b1]; exact a3
    simp [releaseInit, readModifyWrite, Regs.write, hu, this]
  · rw [BitVec.getLsbD_eq_getElem (by omega)]
    have : w.regs.txcfg[24] = (s.cfg.txQueueMode || s.regs.txcfg[24]) := by
      rw [← hqc, ← b2]; exact a4
    simp [releaseInit, readModifyWrite, Regs.write, hu, this]
  · have hin : s.params.gfLsb ≤ s.params.gfLsb + i ∧ s.params.gfLsb + i < s.params.gfLsb + s.params.gfW := by omega
    rw [afterMoves_gfilt n _ _ (by rw [hrp]; exact hgf) (by rw [hrp]; exact hin)]
    have e1 : (releaseInit u).regs.gfilt = (hwMoves (hwMoves u)).regs.gfilt := by
      simp [releaseInit, readModifyWrite, Regs.write]
      exact congrArg Regs.gfilt (hwMoves_regs_congr _ _ (by simp) rfl (by simp))
    rw [e1, hwMoves_gfilt _ _ (by simp [hup]; exact hgf) (by simp [hup]; omega), hwMoves_gfilt _ _ (by rw [hup]; exact hgf) (by rw [hup]; exact hin), hu,
      afterMoves_gfilt _ _ _ (by rw [hwp]; exact hgf) (by rw [hwp]; exact hin)]
    have := a7 (s.params.gfLsb + i) (by rw [hqp]; exact hin)
    rw [this, hqp, hqc, show s.params.gfLsb + i - s.params.gfLsb = i by omega, BitVec.getLsbD_ofNat]
    simp; intro _; omega
  · simp [releaseInit, readModifyWrite, Regs.write, hu, a5, b3]
  · simp [releaseInit, readModifyWrite, Regs.write, hu, a6, b4]

/-- HW's moves when it makes none. -/
theorem hwMoves_quiet (s : State) (h : s.hwQuiet = true) : hwMoves s = { s with hw := s.hw.tail } ∧ (hwMoves s).hwQuiet = true := by
  unfold hwMoves
  unfold State.hwQuiet at h
  split
  · rename_i hh; cases s; simp_all [State.hwQuiet]
  · rename_i b rest hh
    rw [hh] at h; simp at h
    rw [h.1]; simp [hh]; simp [State.hwQuiet]; simpa using h.2

/-- HW's moves before the next `n` accesses when it makes none. -/
theorem afterMoves_quiet (n : Nat) (s : State) (h : s.hwQuiet = true) : (afterMoves n s).regs = s.regs ∧ (afterMoves n s).mem = s.mem := by
  induction n generalizing s with
  | zero => exact ⟨rfl, rfl⟩
  | succ n ih =>
    rw [afterMoves_succ]
    obtain ⟨h1, h2⟩ := hwMoves_quiet s h
    obtain ⟨h3, h4⟩ := ih _ h2
    rw [h3, h4, h1]; exact ⟨rfl, rfl⟩

/-- The reads of a poll, in order. -/
theorem modeReads_map (n : Nat) (s : State) : ∃ es : List Word, es.length = n ∧ (modeReads n s).reverse = es.map (readOf s .mode) := by
  induction n generalizing s with
  | zero => exact ⟨[], rfl, rfl⟩
  | succ n ih =>
    obtain ⟨es, h1, h2⟩ := ih (hwMoves s)
    refine ⟨(hwMoves s).regs.read .mode :: es, by simp [h1], ?_⟩
    simp only [modeReads, List.reverse_append, h2]
    simp [readOf]

/-- One bit as a word. -/
theorem bitWord_lt (b : Bool) : (bitWord b).toNat < 2 ^ 1 := by cases b <;> decide

/-- One bit as a word. -/
theorem bitWord_bit (b : Bool) (i : Nat) : (bitWord b).getLsbD i = (decide (i = 0) && b) := by
  cases b <;> simp [bitWord]

/-- A narrow value in a word. -/
theorem setWidth_lt2 (p : BitVec 2) : (p.setWidth 32).toNat < 2^2 := by have := p.isLt; simp; omega

/-- A narrow value in a word. -/
theorem setWidth_lt4 (p : BitVec 4) : (p.setWidth 32).toNat < 2^4 := by have := p.isLt; simp; omega

/-- Word `j` of those at `a`, `a+4`, …. -/
theorem Memory.words_getD (m : Memory) (a n j : Nat) (h : j < n) : (m.words a n).getD j 0 = m.word (a + 4 * j) := by
  induction n generalizing a j with
  | zero => omega
  | succ n ih =>
    cases j with
    | zero => rfl
    | succ j => 
      show (m.words (a+4) n).getD j 0 = _
      rw [ih (a+4) j (by omega)]; congr 1; omega

/-- A word is its four bytes. -/
theorem Memory.word_congr (m m' : Memory) (a : Nat) (h : ∀ b, a ≤ b → b < a + 4 → m.byte b = m'.byte b) : m.word a = m'.word a := by
  simp only [Memory.word]
  rw [h a (by omega) (by omega), h (a+1) (by omega) (by omega), h (a+2) (by omega) (by omega), h (a+3) (by omega) (by omega)]

/-- Word `j` of those just stored. -/
theorem Memory.word_setWords (ws : List Word) (m : Memory) (a j : Nat) (h : m.wf = true) (hj : j < ws.length) : (m.setWords a ws).word (a + 4 * j) = ws.getD j 0 := by
  induction ws generalizing m a j with
  | nil => simp at hj
  | cons w ws ih =>
    simp only [Memory.setWords]
    cases j with
    | zero =>
      have : ∀ (b : Nat), b < a + 4 → ((m.setWord a w).setWords (a+4) ws).byte b = (m.setWord a w).byte b := fun b hb =>
        Memory.byte_setWords_outside _ _ _ _ (Memory.setWord_wf _ _ _ h) (Or.inl hb)
      simp only [Nat.mul_zero, Nat.add_zero, Memory.word]
      rw [this _ (by omega), this _ (by omega), this _ (by omega), this _ (by omega)]
      exact Memory.word_setWord_same m a w h
    | succ j =>
      have := ih (m.setWord a w) (a+4) j (Memory.setWord_wf _ _ _ h) (by simpa using hj)
      rw [show a + 4 * (j+1) = a + 4 + 4 * j by omega, this]; rfl

/-- R102: byte `j` of the buffer when bytes from `st` on are replaced. -/
theorem fillBufFrom_get (old : Vector Byte 64) (st : Nat) (new : List Byte) (h : st + new.length ≤ 64) (j : Nat) (hj : j < 64) :
    (fillBufFrom old st new)[j] = if st ≤ j ∧ j < st + new.length then new.getD (j - st) 0 else old[j] := by
  have hl : (old.toList.take st).length = st := by simp; omega
  rw [fillBufFrom, fillBuf_get _ _ (by simp; omega)]
  simp only [List.length_append, hl]
  by_cases h1 : j < st
  · rw [if_pos (by omega), if_neg (by omega), List.getD_append _ _ _ _ (by omega)]
    simp [List.getD_eq_getElem?_getD, h1, hj]
  · by_cases h2 : j < st + new.length
    · rw [if_pos h2, if_pos ⟨by omega, h2⟩, List.getD_append_right _ _ _ _ (by omega), hl]
    · rw [if_neg h2, if_neg (by omega)]

/-- A sequence that answers next. -/
theorem andThen_next {o : Out} {k : State → Out} {t : State} (h : andThen o k = .next t) : ∃ u, o = .next u ∧ k u = .next t := by
  cases o with
  | next u => exact ⟨u, rfl, h⟩
  | fault => exact absurd h (by simp [andThen])
  | refused => exact absurd h (by simp [andThen])

/-- The fields of TXSTAT replaced. -/
theorem getLsbD_withTxFields (v : Word) (full : Bool) (put : BitVec 2) (i : Nat) : (withTxFields v full put).getLsbD i = if 16 ≤ i ∧ i < 18 then put.getLsbD (i-16) else if i = 21 then full else v.getLsbD i := by
  rw [withTxFields, getLsbD_putField _ _ _ _ _ (by omega) (setWidth_lt2 _), getLsbD_putField _ _ _ _ _ (by omega) (bitWord_lt _), bitWord_bit]
  by_cases h : 16 ≤ i ∧ i < 18
  · rw [if_pos (by omega), if_pos h]; simp; intros; omega
  · rw [if_neg (by omega), if_neg h]
    by_cases h' : i = 21
    · subst h'; simp
    · rw [if_neg (by omega), if_neg h']

/-- The fields of RXSTATf replaced. -/
theorem getLsbD_withRxFields (v : Word) (g : BitVec 2) (l : BitVec 4) (i : Nat) : (withRxFields v g l).getLsbD i = if i < 4 then l.getLsbD i else if 8 ≤ i ∧ i < 10 then g.getLsbD (i-8) else v.getLsbD i := by
  rw [withRxFields, getLsbD_putField _ _ _ _ _ (by omega) (setWidth_lt4 _), getLsbD_putField _ _ _ _ _ (by omega) (setWidth_lt2 _)]
  by_cases h : i < 4
  · rw [if_pos (by omega), if_pos h]; simp; intros; omega
  · rw [if_neg (by omega), if_neg h]
    by_cases h' : 8 ≤ i ∧ i < 10
    · rw [if_pos (by omega), if_pos h']; simp; intros; omega
    · rw [if_neg (by omega), if_neg h']

end Sys2Proof.Machine
end

