-- ==== Sys2Proof/Laws/PerInstr.lean ====
section
/-! SUPPORT. One lemma per instruction: a row is either a command, one byte on the command port, or a data word of four
bytes with a format of its own (R90, R91). -/

namespace Sys2Proof.Laws.Encoded

/-- R90, R91: the row has exactly one of a command word and a data format, and its encoding has the length of its kind. -/
def Statement (i : Instr) : Prop :=
  ∀ p : Params, ((cmdOf i).isSome = true ∧ formatOf i = none ∧ (encode p i).length = 1)
    ∨ (cmdOf i = none ∧ (formatOf i).isSome = true ∧ (encode p i).length = 4)

theorem init : Statement .init := fun _ => .inl ⟨rfl, rfl, rfl⟩
theorem layout : Statement .layout := fun _ => .inl ⟨rfl, rfl, rfl⟩
theorem filtset (idx : Nat) (ft : BitVec 2) (fc : BitVec 3) (a b : BitVec 11) : Statement (.filtset idx ft fc a b) := fun _ => .inl ⟨rfl, rfl, rfl⟩
theorem txsend (id : BitVec 11) (dlc : BitVec 4) (buf : Vector Byte 64) : Statement (.txsend id dlc buf) := fun _ => .inl ⟨rfl, rfl, rfl⟩
theorem rxfill (f : Bool) : Statement (.rxfill f) := fun _ => .inl ⟨rfl, rfl, rfl⟩
theorem rxrecv (f : Bool) : Statement (.rxrecv f) := fun _ => .inl ⟨rfl, rfl, rfl⟩
theorem txw0 (slot : BitVec 2) (id : BitVec 11) : Statement (.txw0 slot id) := fun _ => .inr ⟨rfl, rfl, rfl⟩
theorem txw1 (slot : BitVec 2) (dlc : BitVec 4) : Statement (.txw1 slot dlc) := fun _ => .inr ⟨rfl, rfl, rfl⟩
theorem payw (pl : PayPlace) (a b c d : Byte) : Statement (.payw pl a b c d) := fun _ => .inr ⟨rfl, rfl, rfl⟩
theorem rxw0 (esi : Bool) (id : BitVec 11) : Statement (.rxw0 esi id) := fun _ => .inr ⟨rfl, rfl, rfl⟩
theorem rxw1 (fidx : BitVec 7) (dlc : BitVec 4) (ts : BitVec 16) : Statement (.rxw1 fidx dlc ts) := fun _ => .inr ⟨rfl, rfl, rfl⟩
theorem sfw (idx : Nat) (ft : BitVec 2) (fc : BitVec 3) (a b : BitVec 11) : Statement (.sfw idx ft fc a b) := fun _ => .inr ⟨rfl, rfl, rfl⟩
theorem btw (t : Timing) : Statement (.btw t) := fun _ => .inr ⟨rfl, rfl, rfl⟩
theorem regMode (cce ini : Bool) : Statement (.regMode cce ini) := fun _ => .inr ⟨rfl, rfl, rfl⟩
theorem regNtim (t : Timing) : Statement (.regNtim t) := fun _ => .inr ⟨rfl, rfl, rfl⟩
theorem regDtim (t : Timing) : Statement (.regDtim t) := fun _ => .inr ⟨rfl, rfl, rfl⟩
theorem regTest (l : Bool) : Statement (.regTest l) := fun _ => .inr ⟨rfl, rfl, rfl⟩
theorem regTxcfg (q : Bool) : Statement (.regTxcfg q) := fun _ => .inr ⟨rfl, rfl, rfl⟩
theorem regTxstat (full : Bool) (put : BitVec 2) : Statement (.regTxstat full put) := fun _ => .inr ⟨rfl, rfl, rfl⟩
theorem regTxadd (slots : Word) : Statement (.regTxadd slots) := fun _ => .inr ⟨rfl, rfl, rfl⟩
theorem regRxstat0 (get : BitVec 2) (fill : BitVec 4) : Statement (.regRxstat0 get fill) := fun _ => .inr ⟨rfl, rfl, rfl⟩
theorem regRxstat1 (get : BitVec 2) (fill : BitVec 4) : Statement (.regRxstat1 get fill) := fun _ => .inr ⟨rfl, rfl, rfl⟩
theorem regRxack0 (idx : Word) : Statement (.regRxack0 idx) := fun _ => .inr ⟨rfl, rfl, rfl⟩
theorem regRxack1 (idx : Word) : Statement (.regRxack1 idx) := fun _ => .inr ⟨rfl, rfl, rfl⟩
theorem regGfilt (n : Word) : Statement (.regGfilt n) := fun _ => .inr ⟨rfl, rfl, rfl⟩

end Sys2Proof.Laws.Encoded
end

