-- ==== Sys2Proof/Laws/Step.lean ====
section
/-! SUPPORT. What any instruction can do, said once: `Confined` (the RAM and HW's schedule) and `KeepsBlock` (the
block's own registers) for each shared operation, and the ways INIT ends. -/

namespace Sys2Proof.Machine

/-- What an operation of the block may do to the RAM: the canonical form is kept, nothing leaves the shared RAM, and
outside the instance's own part a byte changes only by a move of HW. -/
structure Confined (s t : State) : Prop where
  params : t.params = s.params
  inst : t.inst = s.inst
  hw : ∃ n, t.hw = s.hw.drop n
  wf : s.mem.wf = true → t.mem.wf = true
  inRam : ParamsOk s.params → s.inst < s.params.nInst → cellsInRam s.params s.mem = true →
    cellsInRam s.params t.mem = true
  byte : ∀ b, ParamsOk s.params → s.mem.wf = true → s.hwSpares b = true →
    ¬ (ibase s.params s.inst ≤ b ∧ b < ibase s.params s.inst + total s.params) → t.mem.byte b = s.mem.byte b

theorem Confined.refl (s : State) : Confined s s :=
  ⟨rfl, rfl, ⟨0, rfl⟩, id, fun _ _ h => h, fun _ _ _ _ _ => rfl⟩

theorem Confined.trans {s t u : State} (h : Confined s t) (k : Confined t u) : Confined s u where
  params := k.params.trans h.params
  inst := k.inst.trans h.inst
  hw := by
    obtain ⟨m, hm⟩ := h.hw
    obtain ⟨n, hn⟩ := k.hw
    exact ⟨m + n, by rw [hn, hm, List.drop_drop]⟩
  wf := fun hw => k.wf (h.wf hw)
  inRam := fun hp hi hc => by
    rw [← h.params]
    exact k.inRam (h.params ▸ hp) (by rw [h.inst, h.params]; exact hi) (by rw [h.params]; exact h.inRam hp hi hc)
  byte := fun b hp hm hs ho => by
    obtain ⟨n, hn⟩ := h.hw
    rw [k.byte b (h.params ▸ hp) (h.wf hm) (hwSpares_of_drop hn h.params h.inst hs) (by rw [h.params, h.inst]; exact ho),
      h.byte b hp hm hs ho]

/-- A change of the block's own registers or of the record of accesses. -/
theorem Confined.of_eq {s t u : State} (h : Confined s t) (hp : u.params = t.params) (hi : u.inst = t.inst)
    (hh : u.hw = t.hw) (hm : u.mem = t.mem) : Confined s u :=
  h.trans ⟨hp, hi, ⟨0, hh⟩, fun hw => by rw [hm]; exact hw, fun _ _ hc => by rw [hm]; exact hc,
    fun b _ _ _ _ => by rw [hm]⟩

/-! ### Cells inside the RAM -/

theorem cellsInRam_setByte {p : Params} {m : Memory} {a : Nat} {v : Byte} (h : cellsInRam p m = true)
    (hlo : p.ramBase ≤ a) (hhi : a < p.ramBase + p.nInst * total p) : cellsInRam p (m.setByte a v) = true := by
  simp only [cellsInRam, List.all_eq_true] at *
  intro c hc
  rcases cellsWrite_mem _ _ _ _ hc with hc | hc
  · simp only [hc, Bool.and_eq_true, decide_eq_true_eq]; exact ⟨hlo, hhi⟩
  · exact h c hc

theorem cellsInRam_setWord {p : Params} {m : Memory} {a : Nat} {w : Word} (h : cellsInRam p m = true)
    (hlo : p.ramBase ≤ a) (hhi : a + 4 ≤ p.ramBase + p.nInst * total p) : cellsInRam p (m.setWord a w) = true :=
  cellsInRam_setByte (cellsInRam_setByte (cellsInRam_setByte (cellsInRam_setByte h hlo (by omega)) (by omega) (by omega))
    (by omega) (by omega)) (by omega) (by omega)

theorem cellsInRam_setWords {p : Params} (ws : List Word) {m : Memory} {a : Nat} (h : cellsInRam p m = true)
    (hlo : p.ramBase ≤ a) (hhi : a + 4 * ws.length ≤ p.ramBase + p.nInst * total p) :
    cellsInRam p (m.setWords a ws) = true := by
  induction ws generalizing m a with
  | nil => exact h
  | cons w ws ih =>
    simp only [List.length_cons] at hhi
    exact ih (cellsInRam_setWord h hlo (by omega)) (by omega) (by omega)

theorem hwMem_inRam {p : Params} {i : Nat} (x : HwAct) (g : Regs) (m : Memory) (hp : ParamsOk p) (hi : i < p.nInst)
    (h : cellsInRam p m = true) : cellsInRam p (hwMem p i x g m) = true := by
  have ie := ibase_end_le hi
  have hb : p.ramBase ≤ ibase p i := by simp [ibase]
  cases x <;> simp only [hwMem] <;> try exact h
  case deliver f slot j w =>
    split
    · rename_i hc
      have h1 := slot_end_le (es := rxElemSize p f) hc.1
      have h2 := rxRegion_end_le p i f
      have h3 := ibase_le_layoutAt p i (rxRegion f)
      exact cellsInRam_setWord h (by omega) (by omega)
    · exact h
  case teFifo j w =>
    split
    · rename_i hc
      have h2 := layoutAt_four p i
      have h3 := total_eq p
      have h4 := regionSize_four p
      exact cellsInRam_setWord h (by omega) (by omega)
    · exact h
  case loopback slot f k ts _ =>
    split
    · rename_i hc
      simp [loopbackReady] at hc
      have hn : nextFreeSlot p g f < rxSlots p f := Nat.mod_lt _ (by omega)
      have h1 := slot_end_le (es := rxElemSize p f) hn
      have h2 := rxRegion_end_le p i f
      have h3 := ibase_le_layoutAt p i (rxRegion f)
      have h4 : 72 ≤ rxElemSize p f := by cases f; exact hp.esRf0; exact hp.esRf1
      have h5 := ceil4_le (dlcToLen_le hp (field (m.word (layoutAt p i 5 + slot.toNat * p.esTxq + 4)) 16 4))
      refine cellsInRam_setWords _ h (by omega) ?_
      simp only [loopbackWords, List.length_cons, Memory.words_length]
      omega
    · exact h
  case other a w =>
    split
    · rename_i hc
      exact cellsInRam_setWord h hc.2.1 hc.2.2.1
    · exact h

theorem foldl_hwAct_inRam (b : List HwAct) (s : State) (hp : ParamsOk s.params) (hi : s.inst < s.params.nInst)
    (h : cellsInRam s.params s.mem = true) : cellsInRam s.params (b.foldl hwAct s).mem = true := by
  induction b generalizing s with
  | nil => exact h
  | cons x b ih => exact ih (hwAct s x) hp hi (hwMem_inRam x _ _ hp hi h)

theorem hwMoves_confined (s : State) : Confined s (hwMoves s) where
  params := by simp
  inst := by simp
  hw := ⟨1, by simp⟩
  wf := hwMoves_wf s
  inRam := fun hp hi hc => by
    unfold hwMoves
    split
    · exact hc
    · exact foldl_hwAct_inRam _ _ hp hi hc
  byte := fun b hp hm hs _ => hwMoves_byte s b hp hm hs

/-! ### The shared operations -/

theorem regRead_confined (r : Reg) (s : State) : Confined s (regRead r s).2 :=
  (hwMoves_confined s).of_eq rfl rfl rfl rfl

theorem regWrite_confined (r : Reg) (v : Word) (s : State) : Confined s (regWrite r v s) :=
  (hwMoves_confined s).of_eq rfl rfl rfl rfl

theorem readModifyWrite_confined (r : Reg) (g : Word → Word) (s : State) : Confined s (readModifyWrite r g s) :=
  (regRead_confined r s).trans (regWrite_confined _ _ _)

theorem hwMoves_keeps (s : State) : KeepsBlock s (hwMoves s) := by
  constructor <;> simp

theorem memWrite_spec {a : Nat} {v : Word} {s t : State} (h : memWrite a v s = .next t) :
    Confined s t ∧ KeepsBlock s t ∧ t.regs = (hwMoves s).regs := by
  unfold memWrite at h
  split at h
  · rename_i hc
    injection h with h
    subst h
    simp [accessible] at hc
    refine ⟨?_, by constructor <;> simp, rfl⟩
    refine ⟨by simp, by simp, ⟨1, by simp⟩, fun hw => Memory.setWord_wf _ _ _ (hwMoves_wf s hw), fun hp hi hr => ?_,
      fun b hp hm hs ho => ?_⟩
    · have ie := ibase_end_le hi
      have hb : s.params.ramBase ≤ ibase s.params s.inst := by simp [ibase]
      exact cellsInRam_setWord ((hwMoves_confined s).inRam hp hi hr) (by omega) (by omega)
    · show ((hwMoves s).mem.setWord a v).byte b = _
      rw [Memory.byte_setWord _ _ _ _ (hwMoves_wf s hm), if_neg (by omega), hwMoves_byte s b hp hm hs]
  · exact absurd h (by simp)

theorem storeWords_confined (ws : List Word) {a : Nat} {s t : State} (h : storeWords a ws s = .next t) :
    Confined s t ∧ KeepsBlock s t ∧ t.regs = (afterMoves ws.length s).regs := by
  induction ws generalizing a s with
  | nil => injection h with h; subst h; exact ⟨Confined.refl _, KeepsBlock.refl _, rfl⟩
  | cons w ws ih =>
    simp only [storeWords] at h
    cases hm : memWrite a w s with
    | fault => rw [hm] at h; exact absurd h (by simp [andThen])
    | refused => rw [hm] at h; exact absurd h (by simp [andThen])
    | next u =>
      rw [hm] at h
      obtain ⟨c1, k1, r1⟩ := memWrite_spec hm
      obtain ⟨c2, k2, r2⟩ := ih h
      have hh : u.hw = (hwMoves s).hw := by
        unfold memWrite at hm
        split at hm
        · injection hm with hm; subst hm; simp
        · exact absurd hm (by simp)
      refine ⟨c1.trans c2, k1.trans k2, ?_⟩
      rw [r2, List.length_cons, afterMoves_succ]
      exact afterMoves_regs_congr _ _ _ (by rw [k1.params]; simp) r1 hh

theorem memRead_spec {a : Nat} {v : Word} {s t : State} (h : memRead a s = .ok (v, t)) :
    Confined s t ∧ KeepsBlock s t ∧ t.regs = (hwMoves s).regs := by
  unfold memRead at h
  split at h
  · injection h with h
    injection h with h1 h2
    subst h2
    exact ⟨(hwMoves_confined s).of_eq rfl rfl rfl rfl, by constructor <;> simp, rfl⟩
  · exact absurd h (by simp)

theorem loadWords_confined (n : Nat) {a : Nat} {ws : List Word} {s t : State} (h : loadWords a n s = .ok (ws, t)) :
    Confined s t ∧ KeepsBlock s t ∧ t.regs.ntim = s.regs.ntim ∧ t.regs.dtim = s.regs.dtim := by
  induction n generalizing a s ws with
  | zero =>
    injection h with h
    injection h with h1 h2
    subst h2
    exact ⟨Confined.refl _, KeepsBlock.refl _, rfl, rfl⟩
  | succ n ih =>
    simp only [loadWords] at h
    split at h
    · exact absurd h (by simp)
    · rename_i w s1 hm
      split at h
      · exact absurd h (by simp)
      · rename_i ws' s2 hl
        injection h with h
        injection h with h1 h2
        subst h2
        obtain ⟨c1, k1, r1⟩ := memRead_spec hm
        obtain ⟨c2, k2, r2, r3⟩ := ih hl
        exact ⟨c1.trans c2, k1.trans k2, by rw [r2, r1]; simp, by rw [r3, r1]; simp⟩

theorem layoutSteps_confined {s t : State} (h : layoutSteps s = .next t) :
    Confined s t ∧ KeepsBlock { s with map := layoutMap s.params s.inst } t
      ∧ t.regs = (afterMoves (total s.params / 4) s).regs := by
  obtain ⟨c, k, r⟩ := storeWords_confined _ h
  refine ⟨Confined.trans ((Confined.refl s).of_eq (u := { s with map := layoutMap s.params s.inst }) rfl rfl rfl rfl) c,
    k, ?_⟩
  rw [r, List.length_replicate]
  exact afterMoves_regs_congr _ _ _ rfl rfl rfl

theorem afterPoll_confined (n : Nat) (s : State) : Confined s (afterPoll n s) := by
  induction n generalizing s with
  | zero => rw [afterPoll_zero]; exact Confined.refl s
  | succ n ih => rw [← afterPoll_succ]; exact (regRead_confined _ _).trans (ih _)

/-- A poll ends after some number of reads of MODE. -/
theorem pollMode_after (want : Bool) (n : Nat) (s : State) : ∃ m, (pollMode want n s).2 = afterPoll m s := by
  induction n generalizing s with
  | zero => exact ⟨0, by rw [afterPoll_zero]; rfl⟩
  | succ n ih =>
    simp only [pollMode]
    split
    · exact ⟨1, by rw [← afterPoll_succ, afterPoll_zero]⟩
    · obtain ⟨m, hm⟩ := ih (regRead .mode s).2
      exact ⟨m + 1, by rw [hm, afterPoll_succ]⟩

/-- The two ways a wait answers a next state. -/
theorem awaitMode_next {want : Bool} {which : Poll} {s t : State} {k : State → Out}
    (h : awaitMode want which s k = .next t) :
    ∃ m, k (afterPoll m s) = .next t ∨ t = raise (.hwFault which) (afterPoll m s) := by
  obtain ⟨m, hm⟩ := pollMode_after want (pollReads s) s
  refine ⟨m, ?_⟩
  unfold awaitMode at h
  split at h
  · rename_i s1 hp
    rw [hp] at hm
    exact .inl (hm ▸ h)
  · rename_i s1 hp
    rw [hp] at hm
    split at h
    · injection h with h
      exact .inr (hm ▸ h.symm)
    · exact absurd h (by simp)

theorem btSet_confined (t : Timing) (s : State) : Confined s (btSet t s) :=
  (regWrite_confined _ _ _).trans (regWrite_confined _ _ _)

theorem writeFilterCount_confined (s : State) : Confined s (writeFilterCount s) := readModifyWrite_confined _ _ _

theorem applyFlags_confined (s : State) : Confined s (applyFlags s) := by
  rw [applyFlags_eq]
  have h : Confined s (if s.cfg.loopback then readModifyWrite .test (· ||| (1#32 <<< 4)) s else s) := by
    split
    · exact readModifyWrite_confined _ _ _
    · exact Confined.refl s
  split
  · exact h.trans (readModifyWrite_confined _ _ _)
  · exact h

/-- Step 3 of INIT. -/
theorem configure_next {tm : Timing} {s t : State} (h : configure tm s = .next t) :
    Confined s t ∧ KeepsBlock { s with seq := .configEnabled, map := layoutMap s.params s.inst, lastReq := 0 } t := by
  have k1 : KeepsBlock { s with seq := .configEnabled } (enableConfig s) := by
    constructor <;> simp [enableConfig]
  have k := ((k1.trans (btSet_keeps tm _)).trans (applyFlags_keeps _)).trans (writeFilterCount_keeps _)
  have c1 : Confined s (enableConfig s) := (readModifyWrite_confined .mode (· ||| 0x2#32) s).of_eq rfl rfl rfl rfl
  have c := ((c1.trans (btSet_confined tm _)).trans (applyFlags_confined _)).trans
    (writeFilterCount_confined _)
  unfold configure at h
  cases hl : layoutSteps (writeFilterCount (applyFlags (btSet tm (enableConfig s)))) with
  | fault => rw [hl] at h; exact absurd h (by simp [andThen])
  | refused => rw [hl] at h; exact absurd h (by simp [andThen])
  | next u =>
    rw [hl] at h
    injection h with h
    subst h
    obtain ⟨c2, k2, -⟩ := layoutSteps_confined hl
    refine ⟨(c.trans c2).of_eq rfl rfl rfl rfl, ?_⟩
    have hm : u.map = layoutMap s.params s.inst := by
      rw [k2.map]
      show layoutMap _ _ = _
      rw [k.params, k.inst]
    exact ⟨k2.params.trans k.params, k2.inst.trans k.inst, k2.cfg.trans k.cfg, k2.cfgWritten.trans k.cfgWritten, hm, rfl,
      k2.seq.trans k.seq, k2.ready.trans k.ready, k2.status.trans k.status, k2.res.trans k.res, k2.script.trans k.script,
      k2.launch.trans k.launch⟩

/-- The ways INIT answers a next state: rejected before any access, timed out at its entry, timed out at its exit, done. -/
theorem execInit_next {s t : State} (h : execInit s = .next t) :
    Confined s t ∧
    ((∃ o, t = raise o s ∧ (o = .invalidHandle ∨ o = .badConfig))
    ∨ KeepsBlock { s with seq := .requestInit, ready := false, status := .hwFault .entry, launch := { initCfg := s.cfg, loneLayout := false } } t
    ∨ KeepsBlock { s with seq := .configEnabled, ready := false, status := .hwFault .exit
                          map := layoutMap s.params s.inst, lastReq := 0, launch := { initCfg := s.cfg, loneLayout := false } } t
    ∨ KeepsBlock { s with seq := .normal, ready := true, status := .ok
                          map := layoutMap s.params s.inst, lastReq := 0, launch := { initCfg := s.cfg, loneLayout := false } } t) := by
  unfold execInit at h
  split at h
  · split at h
    · injection h with h
      subst h
      exact ⟨(Confined.refl s).of_eq rfl rfl rfl rfl, .inl ⟨_, rfl, .inr rfl⟩⟩
    · rename_i tm _
      have c1 : Confined s (requestInit s) :=
        ((Confined.refl s).of_eq (u := { s with ready := false, launch := { initCfg := s.cfg, loneLayout := false } }) rfl rfl rfl rfl).trans
          ((readModifyWrite_confined .mode (· ||| 0x1#32) { s with ready := false, launch := { initCfg := s.cfg, loneLayout := false } }).of_eq rfl rfl rfl rfl)
      have k1 := (requestInit_spec s).2
      obtain ⟨m, hm⟩ := awaitMode_next h
      have c2 := c1.trans (afterPoll_confined m (requestInit s))
      have k2 := k1.trans (afterPoll_keeps m (requestInit s))
      rcases hm with hm | hm
      · cases hc : configure tm { afterPoll m (requestInit s) with seq := .initializing } with
        | fault => rw [hc] at hm; exact absurd hm (by simp [andThen])
        | refused => rw [hc] at hm; exact absurd hm (by simp [andThen])
        | next u =>
          rw [hc] at hm
          obtain ⟨c3, k3⟩ := configure_next hc
          have c4 := (c2.of_eq (u := { afterPoll m (requestInit s) with seq := .initializing }) rfl rfl rfl rfl).trans c3
          have kp : ({ afterPoll m (requestInit s) with seq := Seq.initializing } : State).params = s.params := k2.params
          have ki : ({ afterPoll m (requestInit s) with seq := Seq.initializing } : State).inst = s.inst := k2.inst
          rw [kp, ki] at k3
          have k4 : KeepsBlock { s with seq := .configEnabled, ready := false, map := layoutMap s.params s.inst
                                        lastReq := 0, launch := { initCfg := s.cfg, loneLayout := false } } u :=
            ⟨k3.params, k3.inst, k3.cfg.trans k2.cfg, k3.cfgWritten.trans k2.cfgWritten,
              k3.map, k3.lastReq, k3.seq, k3.ready.trans k2.ready, k3.status.trans k2.status, k3.res.trans k2.res,
              k3.script.trans k2.script, k3.launch.trans k2.launch⟩
          obtain ⟨n, hn⟩ := awaitMode_next hm
          have c5 := (c4.trans (readModifyWrite_confined .mode (· &&& ~~~0x1#32) u)).trans
            (afterPoll_confined n (releaseInit u))
          have k5 := (k4.trans (releaseInit_keeps u)).trans (afterPoll_keeps n (releaseInit u))
          rcases hn with hn | hn
          · injection hn with hn
            subst hn
            exact ⟨c5.of_eq rfl rfl rfl rfl, .inr (.inr (.inr ⟨k5.params, k5.inst, k5.cfg, k5.cfgWritten, k5.map,
              k5.lastReq, rfl, rfl, rfl, k5.res, k5.script, k5.launch⟩))⟩
          · subst hn
            exact ⟨c5.of_eq rfl rfl rfl rfl, .inr (.inr (.inl ⟨k5.params, k5.inst, k5.cfg, k5.cfgWritten, k5.map,
              k5.lastReq, k5.seq, k5.ready, rfl, k5.res, k5.script, k5.launch⟩))⟩
      · subst hm
        exact ⟨c2.of_eq rfl rfl rfl rfl, .inr (.inl ⟨k2.params, k2.inst, k2.cfg, k2.cfgWritten, k2.map, k2.lastReq,
          k2.seq, k2.ready, rfl, k2.res, k2.script, k2.launch⟩)⟩
  · injection h with h
    subst h
    exact ⟨(Confined.refl s).of_eq rfl rfl rfl rfl, .inl ⟨_, rfl, .inl rfl⟩⟩

end Sys2Proof.Machine
end

