-- ==== Sys2Proof/Tests/Slice0.lean ====
section
/-! SUPPORT. The model's own tests: the checks of `Instr.wf`, one word per row of the opcode table, vectors of
95_test_vectors.md, and for every obligation with hypotheses a witness that meets them together. Expected values are the
spec's or worked by hand from its patterns. -/

namespace Sys2Proof.Tests

set_option Elab.async false

open Sys2Proof.Machine

/-- A buffer beginning with the given bytes. -/
def bufOf (l : List Nat) : Vector Byte 64 := fillBuf (Vector.replicate 64 0) (l.map (BitVec.ofNat 8))

/-- The answer is a next state with the property. -/
def yields (o : Out) (q : State → Bool) : Bool :=
  match o with
  | .next t => q t
  | .fault _ => false
  | .refused _ => false

/-- A ready block of `PSET_G4`, instance 0, with eight filters. -/
def g4 : State :=
  { State.reset with ready := true, map := layoutMap psetG4 0, cfg := { Cfg.zero with nStd := 8 }
                     launch := { initCfg := { Cfg.zero with nStd := 8 }, loneLayout := false } }

/-- `g4` with TXSTAT and both RXSTAT words as given. -/
def g4With (tx r0 r1 : Word) : State :=
  { g4 with regs := { g4.regs with txstat := tx, rxstat0 := r0, rxstat1 := r1 } }

/-- The small parameter set of the INIT tests: 55 words of RAM, polls bounded by 2. -/
def pT : Params :=
  { psetS with nInst := 1, nSf := 1, nXf := 0, nRf0 := 1, nRf1 := 1, nTef := 0, nTxq := 1
               regAddr := g4RegOffsets.map (0x40006400 + ·), tPoll := some 2 }

/-- CFG with every field at the lower end of its range. -/
def cfgLow : Cfg :=
  { loopback := true, presc := 1, sjw := 1, seg1 := 2, seg2 := 2, nStd := 0, nExt := 0, txQueueMode := true }

/-- CFG with every field at the upper end of its range under `pT`. -/
def cfgHigh : Cfg :=
  { loopback := false, presc := 512, sjw := 128, seg1 := 256, seg2 := 128, nStd := 1, nExt := 0, txQueueMode := false }

/-- Every field written. -/
def allSet : CfgWritten :=
  { loopback := true, presc := true, sjw := true, seg1 := true, seg2 := true, nStd := true, nExt := true
    txQueueMode := true }

/-- A block of `pT` just reset, its CFG written; HW's moves to come are `hw`. -/
def fresh (c : Cfg) (tp : Option Nat) (hw : List (List HwAct)) : State :=
  { State.reset with params := { pT with tPoll := tp }, cfg := c, cfgWritten := allSet, hw := hw }

/-- `fresh` with MODE not acknowledged at the start. -/
def freshNormal (c : Cfg) (tp : Option Nat) (hw : List (List HwAct)) : State :=
  { fresh c tp hw with regs := { Regs.powerOn with mode := 0, modeAck := false } }

/-- HW acknowledges exit before the block's access number 71, the first exit read of `cfgLow`. -/
def exitAck : List (List HwAct) := List.replicate 70 [] ++ [[.modeAck false]]

/-! ### Parameters -/

theorem test_psetG4_wf : paramsWf psetG4 = true := by decide
theorem test_psetS_wf : paramsWf psetS = true := by decide
theorem test_pT_wf : paramsWf pT = true := by decide
/-- R8 (a), (c), (d), (e): one ill-formed set per clause that a count or a size decides. -/
theorem test_params_illFormed :
    paramsWf { psetG4 with nInst := 0, regAddr := [] } = false ∧ paramsWf { psetG4 with esSf := 0 } = false
    ∧ paramsWf { psetG4 with esTxq := 68 } = false ∧ paramsWf { psetG4 with nTxq := 33 } = false
    ∧ paramsWf { psetG4 with ramBase := 0x4000A402 } = false ∧ paramsWf { psetG4 with ramBase := 0xFFFFFF00 } = false
    ∧ paramsWf { psetG4 with gfLsb := 28 } = false ∧ paramsWf { psetG4 with tPoll := some 0 } = false := by decide

/-! ### Well-formed instructions: an ill-formed term for each check -/

theorem test_wf_refuses_txw0 : Instr.wf psetG4 (.txw0 3 0) = false := by decide
theorem test_wf_refuses_txw1 : Instr.wf psetG4 (.txw1 3 0) = false := by decide
theorem test_wf_refuses_payw :
    Instr.wf psetG4 (.payw (.tx 3 0) 0 0 0 0) = false ∧ Instr.wf psetG4 (.payw (.tx 2 16) 0 0 0 0) = false
    ∧ Instr.wf psetG4 (.payw (.rx 0 65) 0 0 0 0) = false ∧ Instr.wf psetG4 (.payw (.rx 2 8) 0 0 0 0) = false := by decide
theorem test_wf_refuses_sfw : Instr.wf psetG4 (.sfw 28 0 0 0 0) = false := by decide
theorem test_wf_refuses_timing :
    Instr.wf psetG4 (.btw ⟨0, 0, 0, 1⟩) = false ∧ Instr.wf psetG4 (.regNtim ⟨0, 0, 1, 0⟩) = false
    ∧ Instr.wf psetG4 (.regDtim ⟨0, 0, 1, 0x80⟩) = false := by decide
theorem test_wf_refuses_regTxadd : Instr.wf psetG4 (.regTxadd 8) = false := by decide
theorem test_wf_refuses_regRxack :
    Instr.wf psetG4 (.regRxack0 3) = false ∧ Instr.wf psetG4 (.regRxack1 3) = false := by decide
theorem test_wf_refuses_regGfilt : Instr.wf psetG4 (.regGfilt 32) = false := by decide

/-! ### Decoding: words written out from the patterns -/

/-- A place for the data words. -/
def pl0 : Place := { slot := 2, pay := .tx 2 1, idx := 5 }

theorem test_decode_commands :
    decodeTableWord 8 0b00000001 = some .init ∧ decodeTableWord 8 0b00000010 = some .layout
    ∧ decodeTableWord 8 0b00000011 = some (.filtset 0 0 0 0 0) ∧ decodeTableWord 8 0b00000101 = some (.rxfill false)
    ∧ decodeTableWord 8 0b00010101 = some (.rxfill true) ∧ decodeTableWord 8 0b00000110 = some (.rxrecv false)
    ∧ decodeTableWord 8 0b00010110 = some (.rxrecv true) := by decide
theorem test_decode_txsend : decodeTableWord 8 0b00000100 = some (.txsend 0 0 (Vector.replicate 64 0)) := by decide
/-- 95_test_vectors.md, "Command word". -/
theorem test_decode_illegal :
    [0x00, 0x07, 0x0F, 0x11, 0x14, 0x25, 0x86, 0xFF].all (fun w => decodeTableWord 8 w == none) = true := by decide
theorem test_decode_width : decode [] Ports.zero = .error .notOneByte ∧ decode [1, 0] Ports.zero = .error .notOneByte := by
  decide
theorem test_decode_txw0 :
    decodeWord psetG4 .txw0 pl0 0b00000100100011000000000000000000#32 = .ok (.txw0 2 0x123) := by decide
theorem test_decode_txw1 :
    decodeWord psetG4 .txw1 pl0 0b00000000000011110000000000000000#32 = .ok (.txw1 2 15) := by decide
theorem test_decode_fixedBits :
    decodeWord psetG4 .txw0 pl0 0x24000000#32 = .error .fixedBits ∧ decodeWord psetG4 .txw1 pl0 0x00100000#32 = .error .fixedBits
    ∧ decodeWord psetG4 .sfw pl0 0x00000800#32 = .error .fixedBits := by decide
theorem test_decode_payw :
    decodeWord psetG4 .payw pl0 0b01000000001100000010000000010000#32 = .ok (.payw (.tx 2 1) 0x10 0x20 0x30 0x40) := by decide
/-- V-RX2. -/
theorem test_decode_rxw0 :
    decodeWord psetG4 .rxw0 pl0 0b10000100100011000000000000000000#32 = .ok (.rxw0 true 0x123) := by decide
theorem test_decode_rxw1 :
    decodeWord psetG4 .rxw1 pl0 0b00000101000010001011111011101111#32 = .ok (.rxw1 5 8 0xBEEF) := by decide
/-- V-FS2. -/
theorem test_decode_sfw :
    decodeWord psetG4 .sfw pl0 0b01010001001000110000010001010110#32 = .ok (.sfw 5 1 2 0x123 0x456) := by decide
/-- V-BT4. -/
theorem test_decode_timing :
    decodeWord psetG4 .btw pl0 0b00011110000000010001111100000111#32 = .ok (.btw ⟨15, 1, 31, 7⟩)
    ∧ decodeWord psetG4 .ntim pl0 0b00011110000000010001111100000111#32 = .ok (.regNtim ⟨15, 1, 31, 7⟩)
    ∧ decodeWord psetG4 .dtim pl0 0b00011110000000010001111100000111#32 = .ok (.regDtim ⟨15, 1, 31, 7⟩) := by decide
theorem test_decode_flags :
    decodeWord psetG4 .mode pl0 0b00000000000000000000000000000010#32 = .ok (.regMode true false)
    ∧ decodeWord psetG4 .test pl0 0b00000000000000000000000000010000#32 = .ok (.regTest true)
    ∧ decodeWord psetG4 .txcfg pl0 0b00000001000000000000000000000000#32 = .ok (.regTxcfg true) := by decide
theorem test_decode_status :
    decodeWord psetG4 .txstat pl0 0b00000000001000100000000000000000#32 = .ok (.regTxstat true 2)
    ∧ decodeWord psetG4 .rxstat0 pl0 0b00000000000000000000001000000001#32 = .ok (.regRxstat0 2 1)
    ∧ decodeWord psetG4 .rxstat1 pl0 0b00000000000000000000000100001111#32 = .ok (.regRxstat1 1 15) := by decide
theorem test_decode_whole_words :
    decodeWord psetG4 .txadd pl0 0b00000000000000000000000000000100#32 = .ok (.regTxadd 4)
    ∧ decodeWord psetG4 .rxack0 pl0 0b00000000000000000000000000000010#32 = .ok (.regRxack0 2)
    ∧ decodeWord psetG4 .rxack1 pl0 0b00000000000000000000000000000001#32 = .ok (.regRxack1 1) := by decide
/-- P1: GFILT with the count field 20:16 at 1. -/
theorem test_decode_gfilt :
    decodeWord psetG4 .gfilt pl0 0b00000000000000010000000000111111#32 = .ok (.regGfilt 1) := by decide

/-! ### Vectors of the spec -/

/-- V-LAY1 and V-LAY5. -/
theorem test_layout_map :
    layoutMap psetG4 0 = ⟨0x4000A400, 0x4000A470, 0x4000A4B0, 0x4000A588, 0x4000A660, 0x4000A678⟩
    ∧ layoutMap psetS 1 = ⟨0x11C8, 0x11D0, 0x11D8, 0x1268, 0x12F8, 0x1300⟩ := by decide
/-- V-LAY8 under `pT`: LAYOUT zeroes the RAM and leaves LASTREQ. -/
theorem test_layout_zeroes :
    yields (exec .layout { fresh cfgLow none [] with lastReq := 4, mem := { cells := [(0x1004, 0xEF), (0x10D8, 0xDE)] } })
      (fun t => t.mem.cells.isEmpty && t.lastReq == 4 && t.status == .ok) = true := by decide +kernel
/-- V-BT1, V-BT3, V-BT6, V-BT7. -/
theorem test_timing_words :
    (timingOf 1 4 63 16).map Timing.pack = some 0x06003E0F ∧ (timingOf 512 128 256 128).map Timing.pack = some 0xFFFFFF7F
    ∧ timingOf 0 1 2 2 = none ∧ timingOf 1 129 2 2 = none ∧ timingOf 1 1 2 129 = none := by decide
/-- INIT as in P1: entry at the first read, exit at the first; the flags, the count field, the zeroed RAM. -/
theorem test_init_completes :
    yields (exec .init (fresh cfgLow (some 2) exitAck)) (fun t =>
      t.status == .ok && t.ready && t.seq == .normal && t.regs.ntim == 0x00000101 && t.regs.test == 0x10
        && t.regs.txcfg == 0x01000000 && t.regs.mode == 2 && t.map == layoutMap pT 0) = true := by decide +kernel
/-- P5, command 6. -/
theorem test_init_entry_timeout :
    yields (exec .init (freshNormal cfgHigh (some 2) []))
      (fun t => t.status == .hwFault .entry && t.seq == .requestInit && !t.ready && t.regs.mode == 1
        && t.bus.length == 4) = true := by decide +kernel
/-- V-FS2 and V-FS7. -/
theorem test_filtset :
    yields (exec (.filtset 3 1 2 0x123 0x456) g4) (fun t => t.mem.word 0x4000A40C == 0x51230456 && t.status == .ok) = true
    ∧ yields (exec (.filtset 8 2 1 0 0) g4) (fun t => t.mem.cells.isEmpty && t.status == .indexOutOfRange) = true := by
  decide +kernel
/-- V-TX3. -/
theorem test_txsend_padding :
    yields (exec (.txsend 0x7FF 3 (bufOf [0xAA, 0xBB, 0xCC, 0xDD])) (g4With 0x00010000 0 0)) (fun t =>
      t.mem.words 0x4000A6C0 3 == [0x1FFC0000, 0x00030000, 0x00CCBBAA] && t.lastReq == 2 && t.regs.txadd == 2) = true := by
  decide +kernel
/-- V-TX6 and V-TX7. -/
theorem test_txsend_rejected :
    yields (exec (.txsend 1 0 (bufOf [])) (g4With 0x00030000 0 0)) (fun t => t.status == .slotOutOfRange) = true
    ∧ yields (exec (.txsend 1 0 (bufOf [])) (g4With 0x00230000 0 0)) (fun t => t.status == .queueFull) = true := by
  decide +kernel
/-- V-RF3. -/
theorem test_rxfill : yields (exec (.rxfill true) (g4With 0 0 0xFFFFFFFF)) (fun t => t.res.fill == 15) = true := by
  decide +kernel
/-- V-RX2. -/
theorem test_rxrecv :
    yields (exec (.rxrecv false) { g4With 0 0x201 0 with
      mem := Memory.setWords ⟨[]⟩ 0x4000A540 [0x848C0000, 0x0508BEEF, 0x40302010, 0x80706050] }) (fun t =>
        t.res.rxId == 0x123 && t.res.rxEsi && t.res.rxTs == 0xBEEF && t.res.rxLen == 8 && t.res.rxFidx == 5
          && t.res.rxBuf == bufOf [0x10, 0x20, 0x30, 0x40, 0x50, 0x60, 0x70, 0x80] && t.regs.rxack0 == 2) = true := by
  decide +kernel
/-- V-RX5 and V-RX6. -/
theorem test_rxrecv_rejected :
    yields (exec (.rxrecv false) (g4With 0 0x300 0)) (fun t => t.status == .empty && t.res == Results.zero) = true
    ∧ yields (exec (.rxrecv false) (g4With 0 0x301 0)) (fun t => t.status == .slotOutOfRange) = true := by decide +kernel
/-- The data words of V-TX2 and V-FS1. -/
theorem test_words_stored :
    yields (exec (.txw0 2 0x123) g4) (fun t => t.mem.word 0x4000A708 == 0x048C0000) = true
    ∧ yields (exec (.txw1 2 8) g4) (fun t => t.mem.word 0x4000A70C == 0x00080000) = true
    ∧ yields (exec (.payw (.tx 2 1) 0x50 0x60 0x70 0x80) g4) (fun t => t.mem.word 0x4000A714 == 0x80706050) = true
    ∧ yields (exec (.sfw 0 2 1 0 0) g4) (fun t => t.mem.word 0x4000A400 == 0x88000000) = true := by decide +kernel
/-- The RX words of V-RX4: the fourth byte of the payload word is discarded. -/
theorem test_words_decoded :
    yields (exec (.rxw0 true 1) g4) (fun t => t.res.rxId == 1 && t.res.rxEsi) = true
    ∧ yields (exec (.rxw1 127 3 0x1234) g4) (fun t => t.res.rxLen == 3 && t.res.rxTs == 0x1234) = true
    ∧ yields (exec (.payw (.rx 0 3) 0xAA 0xBB 0xCC 0xDD) g4) (fun t => t.res.rxBuf == bufOf [0xAA, 0xBB, 0xCC]) = true := by
  decide +kernel
/-- V-BT1 through the timing words. -/
theorem test_timing_registers :
    yields (exec (.btw ⟨3, 0, 62, 15⟩) { g4 with seq := .configEnabled })
      (fun t => t.regs.ntim == 0x06003E0F && t.regs.dtim == 0x06003E0F) = true
    ∧ yields (exec (.regNtim ⟨3, 0, 62, 15⟩) { g4 with seq := .configEnabled }) (fun t => t.regs.ntim == 0x06003E0F) = true
    ∧ yields (exec (.regDtim ⟨3, 0, 62, 15⟩) { g4 with seq := .configEnabled }) (fun t => t.regs.dtim == 0x06003E0F) = true := by
  decide +kernel
theorem test_timing_refused : exec (.btw ⟨3, 0, 62, 15⟩) g4 = .refused .timingWriteOutsideConfig := rfl
/-- The read-modify-writes keep what the row does not name (R47, P1 step 3d). -/
theorem test_field_registers :
    yields (exec (.regMode true false) { g4 with regs := { g4.regs with mode := 0xF1 } }) (fun t => t.regs.mode == 0xF2) = true
    ∧ yields (exec (.regTest true) { g4 with regs := { g4.regs with test := 0x80 } }) (fun t => t.regs.test == 0x90) = true
    ∧ yields (exec (.regTxcfg true) g4) (fun t => t.regs.txcfg == 0x01000000) = true
    ∧ yields (exec (.regGfilt 1) { g4 with regs := { g4.regs with gfilt := 0x001F003F } })
        (fun t => t.regs.gfilt == 0x0001003F) = true := by decide +kernel
theorem test_handover_registers :
    yields (exec (.regTxadd 4) { g4 with regs := { g4.regs with txadd := 1 } }) (fun t => t.regs.txadd == 5) = true
    ∧ yields (exec (.regRxack0 2) g4) (fun t => t.regs.rxack0 == 2) = true
    ∧ yields (exec (.regRxack1 1) g4) (fun t => t.regs.rxack1 == 1) = true := by decide +kernel
theorem test_status_registers :
    yields (exec (.regTxstat true 2) (g4With 0xFF0000FF 0 0)) (fun t => t.regs.txstat == 0xFF2200FF) = true
    ∧ yields (exec (.regRxstat0 2 1) (g4With 0 0xF000 0)) (fun t => t.regs.rxstat0 == 0xF201) = true
    ∧ yields (exec (.regRxstat1 1 15) (g4With 0 0 0)) (fun t => t.regs.rxstat1 == 0x10F) = true := by decide +kernel
/-- P3: the loopback delivery, then the acknowledge. -/
theorem test_loopback :
    yields (.next (hwAct { g4With 0 0 0 with
        regs := { g4.regs with test := 0x10, txadd := 1, txstat := 0, rxstat0 := 0 }
        mem := Memory.setWords ⟨[]⟩ 0x4000A678 [0x048C0000, 0x00080000, 0x40302010, 0x80706050] } (.loopback 0 false 0 0 true)))
      (fun t => t.mem.words 0x4000A4B0 4 == [0x848C0000, 0x00080000, 0x40302010, 0x80706050]
        && t.regs.rxstat0 == 1 && t.regs.txadd == 0) = true := by decide +kernel
theorem test_takeAck :
    (hwAct (g4With 0 1 0) (.takeAck false)).regs.rxstat0 = 0x100 := by decide +kernel

/-- The first step after reset runs what `withFetchWord` presents. -/
theorem test_step_after_reset :
    step (State.reset.withFetchWord 8 5) = .next { State.reset with status := .notInitialised }
    ∧ step (State.reset.withFetchWord 8 0x14) = .next { State.reset with status := .illegalCommand }
    ∧ step (State.reset.withFetchWord 32 0) = .refused .operandWidth := ⟨rfl, rfl, rfl⟩

/-! ### Witnesses: the hypotheses of each obligation are met together -/

/-- P3 for `g4`. -/
theorem cfgKept_g4 : CfgKept g4 := ⟨rfl, by decide⟩

/-- Every state with the parameters, the strap and the map of `g4`. -/
theorem mapped_of {s : State} (hp : s.params = psetG4) (hi : s.inst = 0) (hm : s.map = layoutMap psetG4 0) : Mapped s := by
  refine ⟨by rw [hp]; exact test_psetG4_wf, by rw [hp, hi]; decide, by rw [hp, hi, hm]⟩

theorem mapped_g4 : Mapped g4 := mapped_of rfl rfl rfl

/-- `g4` meets P1, P2 and P3. -/
theorem witness_Launched : Launched g4 := ⟨mapped_g4, rfl, rfl, cfgKept_g4⟩

/-- `g4` meets all of R266. -/
theorem witness_LaunchPremises : LaunchPremises g4 := ⟨witness_Launched, rfl, rfl⟩

theorem launch_with (tx r0 r1 : Word) : Launched (g4With tx r0 r1) :=
  ⟨mapped_of rfl rfl rfl, rfl, rfl, cfgKept_g4⟩

/-- HW makes no move: what it has acknowledged stays. -/
theorem ackAt_quiet (s : State) (n : Nat) (h : s.hw = []) : ackAt s n = s.regs.modeAck := by
  rw [ackAt_stable s n (by simp [h]), h]
  rfl

/-- `op` 0, 7 and 15, `f` set at `op` 1 and 4, reserved bits 5 and 7; the legal words at the ends of the ranges. -/
theorem witness_IllegalCommandWords :
    (illegalWord 0x00 ∧ illegalWord 0x07 ∧ illegalWord 0x0F ∧ illegalWord 0x11 ∧ illegalWord 0x14 ∧ illegalWord 0x21
      ∧ illegalWord 0x86)
    ∧ (∃ s : State, paramsWf s.params = true ∧ s.script = [.issue [0x14] Ports.zero])
    ∧ ¬ illegalWord 0x01 ∧ ¬ illegalWord 0x04 ∧ ¬ illegalWord 0x05 ∧ ¬ illegalWord 0x06 ∧ ¬ illegalWord 0x15
    ∧ ¬ illegalWord 0x16 := by
  refine ⟨by unfold illegalWord; decide, ⟨State.reset.withFetchWord 8 0x14, by decide⟩, ?_⟩
  unfold illegalWord
  decide

theorem witness_DecodeEncodeAgree :
    paramsWf psetG4 = true ∧ ([.init, .txsend 0x7FF 15 (bufOf [1]), .rxrecv true, .txw0 2 0x7FF, .txw1 0 15,
      .payw (.tx 2 15) 0xFF 0 0xFF 0, .payw (.rx 15 64) 1 2 3 4, .rxw0 true 0x7FF, .rxw1 127 15 0xFFFF, .sfw 27 3 7 0x7FF 0x7FF,
      .btw ⟨127, 511, 255, 127⟩, .regMode true true, .regTxadd 7, .regRxack0 2, .regGfilt 31].all (Instr.wf psetG4)) = true := by
  decide

theorem witness_TimingWordInvertible :
    (∃ presc sjw seg1 seg2 : Nat, 1 ≤ presc ∧ presc ≤ 512 ∧ 1 ≤ sjw ∧ sjw ≤ 128 ∧ 2 ≤ seg1 ∧ seg1 ≤ 256 ∧ 2 ≤ seg2 ∧ seg2 ≤ 128)
    ∧ ∃ presc sjw seg1 seg2 : Nat,
      ¬ (1 ≤ presc ∧ presc ≤ 512 ∧ 1 ≤ sjw ∧ sjw ≤ 128 ∧ 2 ≤ seg1 ∧ seg1 ≤ 256 ∧ 2 ≤ seg2 ∧ seg2 ≤ 128) :=
  ⟨⟨512, 128, 256, 128, by decide⟩, ⟨512, 128, 256, 129, by decide⟩⟩

theorem witness_PayloadBytesRecovered :
    (∃ len i : Nat, i < 64 ∧ i < len) ∧ ∃ len i : Nat, len ≤ i := ⟨⟨64, 63, by decide⟩, ⟨64, 64, by decide⟩⟩

theorem witness_IgnoredBitsDoNotMatter :
    (∃ w0 w0' w1 w1' : Word, w0 ≠ w0' ∧ w1 ≠ w1' ∧ field w0 18 11 = field w0' 18 11 ∧ w0.getLsbD 31 = w0'.getLsbD 31
      ∧ field w1 0 16 = field w1' 0 16 ∧ field w1 16 4 = field w1' 16 4 ∧ field w1 24 7 = field w1' 24 7
      ∧ unpackPayload [0xDDCCBBAA] (dlcToLen psetG4 (field w1 16 4)) = unpackPayload [0xEECCBBAA] (dlcToLen psetG4 (field w1 16 4)))
    ∧ (∃ v v' : Word, v ≠ v' ∧ v.getLsbD 21 = v'.getLsbD 21 ∧ field v 16 2 = field v' 16 2)
    ∧ ∃ v v' : Word, v ≠ v' ∧ field v 0 4 = field v' 0 4 ∧ field v 8 2 = field v' 8 2 :=
  ⟨⟨0x048C0000, 0x648FFFFF &&& 0x64FC0000 ||| 0x048C0000, 0x00030000, 0x80F30000, by decide⟩,
    ⟨0, 0xFFDCFFFF, by decide⟩, ⟨0x201, 0xF2F1 &&& 0xF2F1 ||| 0x201, by decide⟩⟩

theorem witness_StepRunsDecodedInstruction :
    ∃ (s : State) (bytes : List Byte) (q : Ports) (rest : List HostAct) (i : Instr),
      paramsWf s.params = true ∧ s.script = .issue bytes q :: rest ∧ decode bytes q = .ok i :=
  ⟨State.reset.withFetchWord 8 6, [6], Ports.zero, [], .rxrecv false, by decide⟩

theorem witness_ResetEventLeavesPeripheralAndRam :
    ∃ (s : State) (rest : List HostAct), paramsWf s.params = true ∧ s.script = .resetBlock :: rest :=
  ⟨{ g4 with script := [.resetBlock] }, [], by decide, rfl⟩

theorem witness_InstancesDisjoint : ∃ i j : Nat, i < j ∧ j < psetG4.nInst := ⟨1, 2, by decide⟩

theorem witness_MapHoldsLayoutAddresses :
    ∃ s t : State, paramsWf s.params = true ∧ s.inst < s.params.nInst ∧ exec .layout s = .next t
      ∧ layoutAt s.params s.inst 5 < 2 ^ 32 := by
  obtain ⟨t, h, -⟩ := layoutSteps_spec (fresh cfgLow none []) (paramsOk (by decide)) (by decide)
  exact ⟨fresh cfgLow none [], _, by decide, by decide, by simp only [exec, execLayout, h, andThen]; rfl, by decide⟩

theorem witness_LayoutResult :
    ∃ s : State, paramsWf s.params = true ∧ s.inst < s.params.nInst ∧ s.mem.wf = true ∧ s.hwSpares 0x1000 = true :=
  ⟨fresh cfgLow none [], by decide⟩

theorem witness_InitInvalidHandle : ∃ s : State, s.params.nInst ≤ s.inst := ⟨{ g4 with inst := 3 }, by decide⟩

/-- `cfgLow` and `cfgHigh`, the two ends of every range, are accepted; `reset`, with nothing written, is not. -/
theorem configOk_low (tp : Option Nat) (hw : List (List HwAct)) : ConfigOk (fresh cfgLow tp hw) where
  written := rfl
  presc := show 1 ≤ 1 ∧ 1 ≤ 512 by decide
  sjw := show 1 ≤ 1 ∧ 1 ≤ 128 by decide
  seg1 := show 2 ≤ 2 ∧ 2 ≤ 256 by decide
  seg2 := show 2 ≤ 2 ∧ 2 ≤ 128 by decide
  nStd := show 0 ≤ 1 ∧ 0 < 2 ^ 5 by decide
  nExt := show 0 ≤ 0 by decide
theorem configOk_high (tp : Option Nat) (hw : List (List HwAct)) : ConfigOk (freshNormal cfgHigh tp hw) where
  written := rfl
  presc := show 1 ≤ 512 ∧ 512 ≤ 512 by decide
  sjw := show 1 ≤ 128 ∧ 128 ≤ 128 by decide
  seg1 := show 2 ≤ 256 ∧ 256 ≤ 256 by decide
  seg2 := show 2 ≤ 128 ∧ 128 ≤ 128 by decide
  nStd := show 1 ≤ 1 ∧ 1 < 2 ^ 5 by decide
  nExt := show 0 ≤ 0 by decide
theorem witness_InitBadConfig : ∃ s : State, s.inst < s.params.nInst ∧ ¬ ConfigOk s :=
  ⟨State.reset, by decide, fun h => absurd h.written (by decide)⟩

/-- The state of the completion and order statements: entry seen at its first read, exit at its first. -/
theorem witness_InitCompletes :
    ∃ (s : State) (k m : Nat), paramsWf s.params = true ∧ s.inst < s.params.nInst ∧ ConfigOk s
      ∧ pollSees s true 2 k ∧ pollSees s false (initAccesses s k) m ∧ s.mem.wf = true ∧ s.hwSpares 0x1000 = true := by
  refine ⟨fresh cfgLow (some 2) exitAck, 0, 0, by decide, by decide, configOk_low _ _,
    ⟨fun j h => absurd h (Nat.not_lt_zero j), by decide +kernel, fun t h => ?_⟩,
    ⟨fun j h => absurd h (Nat.not_lt_zero j), by decide +kernel, fun t h => ?_⟩, by decide, by decide +kernel⟩ <;>
    (have : t = 2 := (Option.some.inj h).symm
     omega)

theorem witness_InitAccessOrder :
    ∃ (s t : State) (k m : Nat), paramsWf s.params = true ∧ s.inst < s.params.nInst ∧ ConfigOk s
      ∧ pollSees s true 2 k ∧ pollSees s false (initAccesses s k) m ∧ exec .init s = .next t := by
  obtain ⟨s, k, m, h1, h2, h3, h4, h5, -⟩ := witness_InitCompletes
  obtain ⟨_, _, u, -, h, -, -, -, -, h6, h7, -⟩ := init_toExit s k h1 h2 h3 h4
  have hp : (releaseInit u).params = s.params := (releaseInit_keeps u).params.trans h7.params
  refine ⟨s, finishInit (afterPoll (m + 1) (releaseInit u)), k, m, h1, h2, h3, h4, h5, ?_⟩
  rw [h, awaitMode_sees false .exit m (releaseInit u) _
    (fun j hj => by
      rw [h6.ackAt, show initAccesses s k + (1 + j) = initAccesses s k + 1 + j by omega]
      exact h5.1 j hj)
    (by rw [h6.ackAt, show initAccesses s k + (1 + m) = initAccesses s k + 1 + m by omega]; exact h5.2.1)
    (by rw [hp]; exact h5.2.2)]

theorem witness_InitEntryTimeout :
    ∃ (s : State) (n : Nat), paramsWf s.params = true ∧ s.inst < s.params.nInst ∧ ConfigOk s ∧ s.params.tPoll = some n
      ∧ (∀ j, j < n → ackAt s (3 + j) = false) ∧ s.mem.wf = true ∧ s.hwSpares 0x1000 = true ∧ s.hwQuiet = true :=
  ⟨freshNormal cfgHigh (some 2) [], 2, by decide, by decide, configOk_high _ _, rfl,
    fun j _ => ackAt_quiet _ _ rfl, by decide, by decide, by decide⟩

theorem witness_InitExitTimeout :
    ∃ (s : State) (n k : Nat), paramsWf s.params = true ∧ s.inst < s.params.nInst ∧ ConfigOk s
      ∧ s.params.tPoll = some n ∧ pollSees s true 2 k ∧ (∀ j, j < n → ackAt s (initAccesses s k + 1 + j) = true) := by
  refine ⟨fresh cfgLow (some 2) [], 2, 0, by decide, by decide, configOk_low _ _, rfl,
    ⟨fun j h => absurd h (Nat.not_lt_zero j), ackAt_quiet _ _ rfl, fun t h => ?_⟩, fun j _ => ackAt_quiet _ _ rfl⟩
  have : t = 2 := (Option.some.inj h).symm
  omega

theorem witness_UnboundedPollNeverEnds :
    (∃ s : State, s.inst < s.params.nInst ∧ ConfigOk s ∧ s.params.tPoll = none ∧ ∀ j, ackAt s (3 + j) = false)
    ∧ ∃ (s : State) (k : Nat), paramsWf s.params = true ∧ s.inst < s.params.nInst ∧ ConfigOk s
      ∧ s.params.tPoll = none ∧ pollSees s true 2 k ∧ ∀ j, ackAt s (initAccesses s k + 1 + j) = true :=
  ⟨⟨freshNormal cfgHigh none [], by decide, configOk_high _ _, rfl, fun j => ackAt_quiet _ _ rfl⟩,
    ⟨fresh cfgLow none [], 0, by decide, by decide, configOk_low _ _, rfl,
      ⟨fun j h => absurd h (Nat.not_lt_zero j), ackAt_quiet _ _ rfl, fun t h => nomatch h⟩,
      fun j => ackAt_quiet _ _ rfl⟩⟩

theorem witness_NotReadyRejected : ∃ s : State, s.ready = false := ⟨State.reset, rfl⟩

/-- One budget beyond INIT's. -/
def g4Changed : State := { g4 with cfg := { g4.cfg with nStd := 9 } }

theorem witness_ChangedCfgAndFiltsetIndexChecked :
    (∃ (s : State) (idx : Nat), s.ready = true ∧ s.cfg = s.launch.initCfg ∧ s.cfg.nStd ≤ idx)
    ∧ ∃ s : State, s.ready = true ∧ s.cfg ≠ s.launch.initCfg := ⟨⟨g4, 8, by decide⟩, g4Changed, by decide⟩

theorem witness_FiltsetStores :
    ∃ (s : State) (idx : Nat), Launched s ∧ idx < s.cfg.nStd ∧ s.mem.wf = true
      ∧ s.hwSpares 0x4000A404 = true ∧ ¬ (filterElement s idx ≤ 0x4000A404 ∧ 0x4000A404 < filterElement s idx + 4) :=
  ⟨{ g4 with cfg := { g4.cfg with nStd := 28 }, launch := { initCfg := { g4.cfg with nStd := 28 }, loneLayout := true } }, 27,
    ⟨mapped_of rfl rfl rfl, rfl, rfl, rfl, by decide⟩, by decide⟩

theorem witness_TxsendQueueFull : ∃ s : State,
    s.ready = true ∧ s.cfg = s.launch.initCfg ∧ (hwMoves s).regs.txstat.getLsbD 21 = true :=
  ⟨g4With 0x00230000 0 0, by decide⟩

theorem witness_TxsendSlotChecked :
    ∃ s : State, s.ready = true ∧ s.cfg = s.launch.initCfg ∧ (hwMoves s).regs.txstat.getLsbD 21 = false
      ∧ s.params.nTxq ≤ (field (hwMoves s).regs.txstat 16 2).toNat := ⟨g4With 0x00030000 0 0, by decide⟩

/-- The last slot, the longest frame; also the premises of `TxsendElementInRam` and `TxsendIsItsWords`. -/
theorem witness_TxsendResult :
    ∃ (s t : State) (dlc : BitVec 4) (put : BitVec 2), Launched s ∧ s.mem.wf = true
      ∧ (hwMoves s).regs.txstat.getLsbD 21 = false ∧ put = field (hwMoves s).regs.txstat 16 2
      ∧ put.toNat < s.params.nTxq ∧ dlcToLen s.params dlc = 64 ∧ s.hwSpares 0x4000A400 = true
      ∧ exec (.txsend 0x7FF dlc (bufOf [1])) s = .next t := by
  obtain ⟨v, -, h, -⟩ := txsend_stores (g4With 0x00020000 0 0) 0x7FF 15 (bufOf [1]) 2 _ (launch_with _ _ _) (by decide)
    (by decide) (by decide) rfl
  exact ⟨g4With 0x00020000 0 0, _, 15, 2, launch_with _ _ _, by decide, by decide, by decide, by decide, by decide,
    by decide, h⟩

theorem witness_RxfillResult : ∃ s : State, s.ready = true ∧ s.cfg = s.launch.initCfg := ⟨g4, rfl, rfl⟩

theorem witness_RxrecvEmpty : ∃ (s : State) (f : Bool),
    s.ready = true ∧ s.cfg = s.launch.initCfg ∧ field ((hwMoves s).regs.rxStat f) 0 4 = 0 :=
  ⟨g4With 0 0x300 0, false, by decide⟩

theorem witness_RxrecvSlotChecked :
    ∃ (s : State) (f : Bool), s.ready = true ∧ s.cfg = s.launch.initCfg ∧ field ((hwMoves s).regs.rxStat f) 0 4 ≠ 0
      ∧ rxSlots s.params f ≤ (field ((hwMoves s).regs.rxStat f) 8 2).toNat := ⟨g4With 0 0 0x301, true, by decide⟩

/-- The last slot of FIFO 1; also the premises of `RxrecvFillsBuffer` and `RxrecvIsItsWords`. -/
theorem witness_RxrecvResult :
    ∃ (s t : State) (f : Bool) (get : BitVec 2), Launched s ∧ field ((hwMoves s).regs.rxStat f) 0 4 ≠ 0
      ∧ get = field ((hwMoves s).regs.rxStat f) 8 2 ∧ get.toNat < rxSlots s.params f ∧ exec (.rxrecv f) s = .next t := by
  obtain ⟨z, -, h⟩ := rxrecv_loads (g4With 0 0 0x20F) true 2 _ _ _ _ (launch_with _ _ _) (by decide) (by decide) (by decide)
    rfl rfl rfl rfl
  exact ⟨g4With 0 0 0x20F, _, true, 2, launch_with _ _ _, by decide, by decide, by decide, h⟩

/-- A frame of no payload (V-TX4), its two zero words standing in RX FIFO 0 slot 0 of a machine whose RAM is empty. -/
theorem witness_SendReceiveRoundTrip :
    ∃ (s t u : State) (id : BitVec 11) (dlc : BitVec 4) (buf : Vector Byte 64) (put get : BitVec 2) (f : Bool) (n : Nat),
      Launched s ∧ s.mem.wf = true ∧ (hwMoves s).regs.txstat.getLsbD 21 = false
      ∧ put = field (hwMoves s).regs.txstat 16 2 ∧ put.toNat < s.params.nTxq ∧ exec (.txsend id dlc buf) s = .next t
      ∧ Launched u ∧ u.mem.wf = true ∧ u.params = s.params ∧ field ((hwMoves u).regs.rxStat f) 0 4 ≠ 0
      ∧ get = field ((hwMoves u).regs.rxStat f) 8 2 ∧ get.toNat < rxSlots u.params f
      ∧ n = 2 + (dlcToLen s.params dlc + 3) / 4 ∧ u.mem.words (rxSlotElement u f get) n = t.mem.words (txSlotElement s put) n
      ∧ ∀ b, rxSlotElement u f get ≤ b → b < rxSlotElement u f get + 4 * n → u.hwSpares b = true := by
  have hx : ∃ t, exec (.txsend 0 0 (bufOf [])) (g4With 0 0 0) = .next t ∧ t.mem = ⟨[]⟩ := by
    obtain ⟨v, h1, h2, -⟩ := txsend_stores (g4With 0 0 0) 0 0 (bufOf []) 0 _ (launch_with _ _ _) (by decide) (by decide)
      (by decide) rfl
    refine ⟨_, h2, ?_⟩
    have : yields (exec (.txsend 0 0 (bufOf [])) (g4With 0 0 0)) (fun t => t.mem == ⟨[]⟩) = true := by decide +kernel
    rw [h2] at this
    simpa [yields] using this
  obtain ⟨t, h1, h2⟩ := hx
  refine ⟨g4With 0 0 0, t, g4With 0 1 0, 0, 0, bufOf [], 0, 0, false, 2, launch_with _ _ _, by decide, by decide, by decide,
    by decide, h1, launch_with _ _ _, by decide, by decide, by decide, by decide, by decide, by decide, ?_, fun b _ _ => by rfl⟩
  rw [h2]
  decide +kernel

theorem witness_TxWordsStored : ∃ (s : State) (slot : BitVec 2) (k : Nat), Mapped s ∧ slot.toNat < s.params.nTxq ∧ k < 16 :=
  ⟨g4, 2, 15, mapped_g4, by decide⟩

theorem witness_WordStoreLittleEndian : ∃ (m : Memory) (a b : Nat), m.wf = true ∧ ¬ (a ≤ b ∧ b < a + 4) :=
  ⟨⟨[(5, 1)]⟩, 8, 12, by decide⟩

theorem witness_TxWordsSlotChecked : ∃ (s : State) (slot : BitVec 2), s.params.nTxq ≤ slot.toNat := ⟨g4, 3, by decide⟩

theorem witness_RxWordsDecoded : ∃ k len : Nat, len ≤ 64 ∧ k < (len + 3) / 4 := ⟨15, 64, by decide⟩

theorem witness_FilterWordStored :
    (∃ (s : State) (idx : Nat), (s.ready = true → s.cfg = s.launch.initCfg) ∧ s.cfg.nStd ≤ idx)
    ∧ (∃ s : State, s.ready = true ∧ s.cfg ≠ s.launch.initCfg)
    ∧ ∃ (s : State) (idx : Nat), Launched s ∧ idx < s.cfg.nStd :=
  ⟨⟨g4, 8, by decide⟩, ⟨g4Changed, by decide⟩, ⟨g4, 7, witness_Launched, by decide⟩⟩

theorem witness_TimingWordsWritten : ∃ s : State, s.seq = .configEnabled := ⟨{ g4 with seq := .configEnabled }, rfl⟩

theorem witness_TimingWriteOutsideConfigRefused : ∃ s : State, s.seq ≠ .configEnabled := ⟨g4, by decide⟩

theorem witness_FieldRegistersWritten :
    ∃ (s : State) (v n : Word), v = (hwMoves s).regs.gfilt ∧ s.params.gfLsb + s.params.gfW ≤ 32 ∧ n.toNat < 2 ^ s.params.gfW :=
  ⟨g4, 0, 31, by decide⟩

theorem witness_DataWordFrames :
    ∃ (i : Instr) (s t : State) (b : Nat), (formatOf i).isSome = true ∧ paramsWf s.params = true ∧ s.mem.wf = true
      ∧ s.hwSpares b = true ∧ exec i s = .next t ∧ ∀ a, storesAt s i = some a → ¬ (a ≤ b ∧ b < a + 4) := by
  have h := storeFilter_next g4 7 (filtPack 3 7 0 0) (fun s1 => .next s1) mapped_g4 cfgKept_g4 (by decide)
  refine ⟨.sfw 7 3 7 0 0, g4, _, 0x4000A420, rfl, by decide, by decide, by decide, h, fun a ha => ?_⟩
  have : a = 0x4000A41C := by
    have : filterAddress g4 7 = 0x4000A41C := by decide
    rw [← this]
    exact (Option.some.inj ha).symm
  omega

theorem witness_RxrecvIsItsWords :
    ∃ (s t u : State) (f : Bool) (get : BitVec 2) (w0 w1 : Word) (ws : List Word) (len : Nat), Launched s
      ∧ field ((hwMoves s).regs.rxStat f) 0 4 ≠ 0 ∧ get = field ((hwMoves s).regs.rxStat f) 8 2
      ∧ get.toNat < rxSlots s.params f ∧ w0 = (afterMoves 2 s).mem.word (rxSlotElement s f get)
      ∧ w1 = (afterMoves 3 s).mem.word (rxSlotElement s f get + 4) ∧ len = dlcToLen s.params (field w1 16 4)
      ∧ ws = loadedWords (rxSlotElement s f get + 8) (ceil4 len) (afterMoves 3 s) ∧ exec (.rxrecv f) s = .next t
      ∧ execAll (.rxw0 (w0.getLsbD 31) (field w0 18 11) :: .rxw1 (field w1 24 7) (field w1 16 4) (field w1 0 16) ::
          (List.range (ceil4 len)).map fun k => Instr.payw (.rx k len) (unpackByte (ws.getD k 0) 0)
            (unpackByte (ws.getD k 0) 1) (unpackByte (ws.getD k 0) 2) (unpackByte (ws.getD k 0) 3)) s = .next u := by
  obtain ⟨z, -, h⟩ := rxrecv_loads (g4With 0 0 0x20F) true 2 0 0 [] 0 (launch_with _ _ _) (by decide) (by decide) (by decide)
    (by decide) (by decide) (by decide) rfl
  exact ⟨g4With 0 0 0x20F, _, _, true, 2, 0, 0, [], 0, launch_with _ _ _, by decide, by decide, by decide, by decide,
    by decide, by decide, rfl, h, rfl⟩

theorem witness_TimingAndFilterAreTheirWords :
    (∃ s : State, s.seq = .configEnabled)
    ∧ ∃ (s u : State) (idx : Nat), s.ready = true ∧ idx < s.cfg.nStd ∧ exec (.sfw idx 1 2 0x123 0x456) s = .next u :=
  ⟨⟨{ g4 with seq := .configEnabled }, rfl⟩,
    ⟨g4, _, 7, rfl, by decide,
      storeFilter_next g4 7 (filtPack 1 2 0x123 0x456) (fun s1 => .next s1) mapped_g4 cfgKept_g4 (by decide)⟩⟩

theorem witness_HardwareSparesBlockRegions :
    ∃ (s : State) (b c i : Nat), paramsWf s.params = true ∧ s.mem.wf = true ∧ s.hwSpares b = true
      ∧ (layoutAt s.params s.inst 0 ≤ b ∧ b < layoutAt s.params s.inst 2)
      ∧ (layoutAt s.params s.inst 5 ≤ c ∧ c < ibase s.params s.inst + total s.params)
      ∧ s.params.gfLsb ≤ i ∧ i < s.params.gfLsb + s.params.gfW :=
  ⟨g4, 0x4000A4AF, 0x4000A74F, 20, by decide⟩

/-- The two clauses of `HardwareSparesBlockRegions` about a HW that keeps R76: the put index answers a pending request; HW
fills the free slot 1 beside the queued slot 0, of which byte 71 is asked. -/
theorem witness_HardwareSparesBlockRegions_kept :
    (∃ (s : State) (x : HwAct), paramsWf s.params = true ∧ (hwAct s x).regs.duty.kept = true
      ∧ field (hwAct s x).regs.txstat 16 2 ≠ field s.regs.txstat 16 2)
    ∧ (∃ (s : State) (x : HwAct), paramsWf s.params = true ∧ (hwAct s x).regs.duty.kept = true
      ∧ field ((hwAct s x).regs.rxStat false) 8 2 ≠ field (s.regs.rxStat false) 8 2)
    ∧ ∃ (s : State) (n : Nat) (f : Bool) (get : BitVec 2) (b : Nat), paramsWf s.params = true ∧ s.inst < s.params.nInst
      ∧ s.mem.wf = true ∧ get = field (s.regs.rxStat f) 8 2 ∧ get.toNat < rxSlots s.params f
      ∧ field (s.regs.rxStat f) 0 4 ≠ 0 ∧ s.regs.duty.getDue f = 0 ∧ (afterMoves n s).regs.duty.kept = true
      ∧ rxSlotElement s f get ≤ b ∧ b < rxSlotElement s f get + rxElemSize s.params f :=
  ⟨⟨{ g4 with regs := g4.regs.write .txadd 1 }, .txStat 0x00010003, by decide, by decide, by decide⟩,
    ⟨{ g4With 0 1 0 with regs := (g4With 0 1 0).regs.write .rxack0 0 }, .takeAck false, by decide, by decide, by decide⟩,
    { g4With 0 1 0 with hw := [[.deliver false 1 0 7, .rxStat false 2]] }, 1, false, 0, 0x4000A4F7, by decide⟩

/-- R76 (b), (d): HW writing a queued slot, or moving the put index with no request, is not a HW that keeps R76. -/
theorem test_duty_broken :
    (hwAct (g4With 0 1 0) (.deliver false 0 0 7)).regs.duty.kept = false
    ∧ (hwAct g4 (.txStat 0x00010003)).regs.duty.kept = false
    ∧ (hwAct (g4With 0 1 0) (.takeAck false)).regs.duty.kept = false := by decide

/-- R76 (e): CCE is the block's while it requests initialization mode, HW's after the release. -/
theorem test_cce_held :
    (hwAct { g4 with regs := { g4.regs with mode := 3 } } (.ownBits .mode 0)).regs.mode = 3
    ∧ (hwAct { g4 with regs := { g4.regs with mode := 2 } } (.ownBits .mode 0)).regs.mode = 0 := by decide

/-- R273: the four commands under a CFG changed since INIT. -/
theorem test_cfg_changed :
    exec (.filtset 0 2 1 0 0) g4Changed = .refused .cfgChangedAfterInit
    ∧ exec (.txsend 0 0 (bufOf [])) g4Changed = .refused .cfgChangedAfterInit
    ∧ exec (.rxfill true) g4Changed = .refused .cfgChangedAfterInit
    ∧ exec (.rxrecv false) g4Changed = .refused .cfgChangedAfterInit := ⟨rfl, rfl, rfl, rfl⟩

theorem witness_HeaderWordsRoundTrip :
    ∃ (p : Params) (d : BitVec 4), paramsWf p = true ∧ dlcToLen p d = 64 ∧ ∀ e : BitVec 4, dlcToLen p e ≠ 9 :=
  ⟨psetG4, 15, by decide⟩

/-- The table of R113, its default, backwards. -/
theorem test_lenToDlc :
    [0, 8, 12, 64].map (lenToDlc psetG4) = [some 0, some 8, some 9, some 15]
    ∧ [9, 28, 36, 40, 60, 65].map (lenToDlc psetG4) = [none, none, none, none, none, none] := by decide

theorem witness_AcknowledgeAdvancesFifo :
    ∃ (s : State) (f : Bool), paramsWf s.params = true ∧ 0 < rxSlots s.params f ∧ rxSlots s.params f ≤ 4
      ∧ field (s.regs.rxStat f) 0 4 ≠ 0 ∧ (s.regs.rxAck f).toNat < rxSlots s.params f :=
  ⟨{ g4 with regs := { g4.regs with rxstat1 := 0x201, rxack1 := 2 } }, true, by decide⟩

theorem witness_LoopbackDelivers :
    ∃ (s : State) (slot : BitVec 2) (f : Bool), paramsWf s.params = true ∧ s.mem.wf = true
      ∧ s.regs.test.getLsbD 4 = true ∧ s.regs.txadd.getLsbD slot.toNat = true ∧ slot.toNat < s.params.nTxq
      ∧ (field (s.regs.rxStat f) 0 4).toNat < rxSlots s.params f ∧ (field (s.regs.rxStat f) 0 4).toNat < 15 :=
  ⟨{ g4 with regs := { g4.regs with test := 0x10, txadd := 4, rxstat1 := 0x202 } }, 2, true, by decide⟩

theorem witness_StepKeepsInv : ∃ s t : State, Inv s ∧ step s = .next t :=
  ⟨State.reset.withFetchWord 8 6, { State.reset with status := .notInitialised },
    ⟨by decide, by decide, by decide, by decide, by decide, by decide, by decide⟩, rfl⟩

theorem witness_BlockRegisterWriters :
    (∃ (i : Instr) (s t : State), exec i s = .next t ∧ i ≠ .layout ∧ i ≠ .init)
    ∧ ∃ s : State, paramsWf s.params = true ∧ s.script = [.setCfg (.nStd 0)] :=
  ⟨⟨.rxfill false, g4, _, rfl, by decide⟩, { g4 with script := [.setCfg (.nStd 0)] }, by decide, rfl⟩

/-- Of `ResultPortWriters`, `TimingRegistersOnlyByInit` and `OutcomesPrecise`: a command, not INIT, that does not end with
`Ok` or `HwFault`. -/
theorem witness_OutcomesPrecise :
    ∃ (i : Instr) (s t : State), (cmdOf i).isSome = true ∧ i ≠ .init ∧ exec i s = .next t ∧ t.status ≠ .ok
      ∧ ∀ w, t.status ≠ .hwFault w :=
  ⟨.rxrecv true, State.reset, { State.reset with status := .notInitialised }, rfl, by decide, rfl,
    by decide, fun w => by cases w <;> decide⟩

theorem witness_InstanceIsolation :
    ∃ (i : Instr) (s t : State) (b : Nat), paramsWf s.params = true ∧ s.inst < s.params.nInst ∧ s.mem.wf = true
      ∧ ¬ (ibase s.params s.inst ≤ b ∧ b < ibase s.params s.inst + total s.params)
      ∧ (∀ x ∈ s.hw, ∀ y ∈ x, ∀ a w, y = .other a w → ¬ (a ≤ b ∧ b < a + 4)) ∧ exec i s = .next t :=
  ⟨.regTxadd 1, g4, _, 0x4000A750, by decide, by decide, by decide, by decide,
    fun x hx => absurd hx (by simp [g4, State.reset]), rfl⟩

end Sys2Proof.Tests
end

section
/-! PROOFS. The command decoder reads a byte as a command exactly where R93 does not call it illegal; the fields of the
packed filter and timing words by division. -/

namespace Sys2Proof

open Sys2Proof.Machine

/-! ### The command decoder -/

/-- R91: a command word whose reserved bits are 0 is its command number with its selector. -/
theorem cmdByte_of_reserved_zero {cmd : Byte} (hres : cmd.extractLsb' 5 3 = 0) :
    cmdByte (cmd.extractLsb' 0 4).toNat (cmd.getLsbD 4) = cmd := by
  have hlt := cmd.isLt
  have hres' : cmd.toNat / 2 ^ 5 % 2 ^ 3 = 0 := by
    simpa [Nat.shiftRight_eq_div_pow] using congrArg BitVec.toNat hres
  apply BitVec.eq_of_toNat_eq
  simp only [cmdByte, BitVec.toNat_ofNat, BitVec.extractLsb'_toNat, Nat.shiftRight_eq_div_pow, BitVec.getLsbD,
    Nat.testBit_eq_decide_div_mod_eq, decide_eq_true_eq]
  split <;> omega

/-- R92, R93: what the command decoder can answer: a legal command word is the command it is the word of, an illegal one
is rejected, and never for its width. -/
theorem decode_byte_cases (cmd : Byte) (q : Ports) :
    (¬ illegalWord cmd ∧ ∃ i, decode [cmd] q = .ok i ∧ cmdOf i = some cmd)
    ∨ (illegalWord cmd ∧ ∃ r, decode [cmd] q = .error r ∧ r ≠ .notOneByte) := by
  simp only [decode, decodeCmd, illegalWord]
  by_cases hres : cmd.extractLsb' 5 3 = 0
  · have hbyte := cmdByte_of_reserved_zero hres
    generalize (cmd.extractLsb' 0 4).toNat = op at *
    generalize cmd.getLsbD 4 = f at *
    simp only [hres, ne_eq, not_true_eq_false, if_false, false_or]
    split
    -- INIT, LAYOUT, FILTSET, TXSEND: the selector decides
    case h_1 | h_2 | h_3 | h_4 => cases f <;> simp [cmdOf, ← hbyte]
    case h_5 | h_6 => simp [cmdOf, ← hbyte]
    case h_7 =>
      have hop : op = 0 ∨ 7 ≤ op := by simp only [imp_false] at *; omega
      exact .inr ⟨hop.imp_right .inl, .illegalOp, rfl, by simp⟩
  · exact .inr ⟨.inr (.inr (.inl hres)), .reservedBits, if_pos hres, by simp⟩

theorem decode_legal {cmd : Byte} (q : Ports) (h : ¬ illegalWord cmd) :
    ∃ i, decode [cmd] q = .ok i ∧ cmdOf i = some cmd := by
  obtain ⟨-, hok⟩ | ⟨hill, -⟩ := decode_byte_cases cmd q
  · exact hok
  · exact absurd hill h

theorem decode_illegal {cmd : Byte} (q : Ports) (h : illegalWord cmd) :
    ∃ r, decode [cmd] q = .error r ∧ r ≠ .notOneByte := by
  obtain ⟨hleg, -⟩ | ⟨-, herr⟩ := decode_byte_cases cmd q
  · exact absurd h hleg
  · exact herr

/-- A step with a presentation at the head of HOST's script takes it off and runs what it decodes to. -/
theorem step_issue {s : State} {bytes : List Byte} {q : Ports} {rest : List HostAct}
    (hwf : paramsWf s.params = true) (hs : s.script = .issue bytes q :: rest) :
    step s = runDecoded (decode bytes q) { s with script := rest } := by
  simp [step, hwf, hs, hostStep]

/-- R93: a rejected byte on the command port ends with `IllegalCommand`. -/
theorem runDecoded_error {r : Reject} (s : State) (hr : r ≠ .notOneByte) :
    runDecoded (.error r) s = .next { s with status := .illegalCommand } := by
  cases r
  case notOneByte => exact absurd rfl hr
  all_goals rfl

/-! ### Fields of packed words -/

/-- R13: the value of a field. -/
theorem toNat_field (w : Word) (lo n : Nat) : (field w lo n).toNat = w.toNat / 2 ^ lo % 2 ^ n := by
  simp [field, Nat.shiftRight_eq_div_pow]

/-- R111: the four fields of a filter word come back. -/
theorem field_filtPack (ft : BitVec 2) (fc : BitVec 3) (a b : BitVec 11) :
    field (filtPack ft fc a b) 30 2 = ft ∧ field (filtPack ft fc a b) 27 3 = fc
    ∧ field (filtPack ft fc a b) 16 11 = a ∧ field (filtPack ft fc a b) 0 11 = b := by
  have hft := ft.isLt
  have hfc := fc.isLt
  have ha := a.isLt
  have hb := b.isLt
  refine ⟨?_, ?_, ?_, ?_⟩ <;> apply BitVec.eq_of_toNat_eq <;> rw [toNat_field, filtPack_toNat] <;> omega

/-- R104: the four fields of a packed timing word. -/
theorem Timing.field_pack (t : Timing) :
    field t.pack 25 7 = t.sjw ∧ field t.pack 16 9 = t.presc ∧ field t.pack 8 8 = t.seg1 ∧ field t.pack 0 8 = t.seg2 :=
  have h := t.unpack_pack
  ⟨congrArg Timing.sjw h, congrArg Timing.presc h, congrArg Timing.seg1 h, congrArg Timing.seg2 h⟩

/-- A "value - 1" field that holds its value gives it back. -/
theorem toNat_ofNat_pred_add_one {n k : Nat} (h1 : 1 ≤ n) (hk : n ≤ 2 ^ k) :
    (BitVec.ofNat k (n - 1)).toNat + 1 = n := by
  rw [BitVec.toNat_ofNat, Nat.mod_eq_of_lt (by omega)]
  omega

/-! ### The obligations -/

/-- Settles O3: the decoder rejects exactly the illegal command words, and the step turns a rejection into STATUS. -/
theorem illegalCommandWords : Obligations.IllegalCommandWords := by
  unfold Obligations.IllegalCommandWords
  refine ⟨fun s cmd q rest hwf hs hill => ?_, fun cmd q hleg => decode_legal q hleg⟩
  obtain ⟨r, hdec, hr⟩ := decode_illegal q hill
  rw [step_issue hwf hs, hdec, runDecoded_error _ hr]

/-- Settles O6: the word is the sum of its fields, from which division gives each back. -/
theorem filterWordRoundTrip : Obligations.FilterWordRoundTrip :=
  fun ft fc a b => ⟨filtPack_toNat ft fc a b, field_filtPack ft fc a b⟩

/-- Settles O7: the packed fields come back as "value - 1"; outside the ranges `timingOf` has no answer. -/
theorem timingWordInvertible : Obligations.TimingWordInvertible := by
  unfold Obligations.TimingWordInvertible
  refine fun presc sjw seg1 seg2 => ⟨fun h => ?_, fun h => if_neg h⟩
  obtain ⟨t, hsome, ht, hpack⟩ := timingOf_pack h
  obtain ⟨p1, p2, j1, j2, a1, a2, b1, b2⟩ := h
  obtain ⟨hsjw, hpresc, hseg1, hseg2⟩ := t.field_pack
  refine ⟨t, hsome, hpack, ?_, ?_, ?_, ?_⟩
  · rw [hpresc, ht]; exact toNat_ofNat_pred_add_one p1 p2
  · rw [hsjw, ht]; exact toNat_ofNat_pred_add_one j1 j2
  · rw [hseg1, ht]; exact toNat_ofNat_pred_add_one (by omega) a2
  · rw [hseg2, ht]; exact toNat_ofNat_pred_add_one (by omega) (by omega)

/-- Settles O1, by evaluating the decoder on each of the eight words. -/
theorem commandWordsDecode : Obligations.CommandWordsDecode :=
  fun _ => ⟨rfl, rfl, rfl, rfl, rfl, rfl, rfl, rfl⟩

end Sys2Proof
end

section
/-! PROOFS. The six regions of an instance stand end to end and fill its part of the RAM, and the parts stand end to
end too: hence regions and parts are disjoint (R140, R141). -/

namespace Sys2Proof

open Sys2Proof.Machine

/-! ### Where regions and parts end -/

/-- R133: a region starts where the one before it ends. -/
theorem layoutAt_succ (p : Params) (i k : Nat) : layoutAt p i (k + 1) = layoutAt p i k + regionSize p k := by
  simp only [layoutAt, regionSize, List.take_add_one, List.sum_append, List.getD_eq_getElem?_getD, Nat.add_assoc]
  cases (regionSizes p)[k]? <;> simp

/-- R133: what follows the last region is the end of the instance's part. -/
theorem layoutAt_six (p : Params) (i : Nat) : layoutAt p i 6 = ibase p i + total p := rfl

/-- R132: the part of an instance starts where the one before it ends. -/
theorem ibase_succ (p : Params) (i : Nat) : ibase p (i + 1) = ibase p i + total p := by
  simp only [ibase, Nat.succ_mul, Nat.add_assoc]

theorem layoutAt_mono (p : Params) (i : Nat) : Monotone (layoutAt p i) :=
  monotone_nat_of_le_succ fun k => layoutAt_succ p i k ▸ Nat.le_add_right _ _

theorem ibase_mono (p : Params) : Monotone (ibase p) :=
  monotone_nat_of_le_succ fun i => ibase_succ p i ▸ Nat.le_add_right _ _

/-- R140: a region ends at or before each later start of the same instance. -/
theorem region_end_le_layoutAt (p : Params) (i : Nat) {j k : Nat} (h : j < k) :
    layoutAt p i j + regionSize p j ≤ layoutAt p i k :=
  layoutAt_succ p i j ▸ layoutAt_mono p i h

/-- R141: the part of an instance ends at or before the part of each later one starts. -/
theorem part_end_le_ibase (p : Params) {i j : Nat} (h : i < j) : ibase p i + total p ≤ ibase p j :=
  ibase_succ p i ▸ ibase_mono p h

/-! ### Offsets -/

/-- R135: an offset and the start of the RAM make the address; the subtraction never truncates. -/
theorem ramBase_add_layoutOffset (p : Params) (i k : Nat) : p.ramBase + layoutOffset p i k = layoutAt p i k :=
  Nat.add_sub_cancel' ((Nat.le_add_right _ _).trans (ibase_le_layoutAt p i k))

/-- R135: an offset is the one before plus the size of its region. -/
theorem layoutOffset_succ (p : Params) (i k : Nat) :
    layoutOffset p i (k + 1) = layoutOffset p i k + regionSize p k := by
  apply Nat.add_left_cancel (n := p.ramBase)
  rw [← Nat.add_assoc, ramBase_add_layoutOffset, ramBase_add_layoutOffset, layoutAt_succ]

/-- R135: the first region's offset is that of the part. -/
theorem layoutOffset_zero (p : Params) (i : Nat) : layoutOffset p i 0 = i * total p := by
  apply Nat.add_left_cancel (n := p.ramBase)
  rw [ramBase_add_layoutOffset, layoutAt_zero, ibase]

/-- R140: the last region ends where the next instance's part starts. -/
theorem layoutOffset_last_end (p : Params) (i : Nat) : layoutOffset p i 5 + regionSize p 5 = (i + 1) * total p := by
  apply Nat.add_left_cancel (n := p.ramBase)
  rw [← layoutOffset_succ, ramBase_add_layoutOffset, layoutAt_six, ← ibase_succ, ibase]

/-! ### The obligations -/

/-- Settles O12: each start is the one before plus a size, and the starts run from the part's start to its end. -/
theorem regionsContiguous : Obligations.RegionsContiguous := by
  unfold Obligations.RegionsContiguous
  refine fun p i => ⟨layoutAt_zero p i, fun k _ => ⟨layoutOffset_succ p i k, ?_⟩, layoutOffset_last_end p i, ?_,
    fun j k hjk _ => region_end_le_layoutAt p i hjk⟩
  · rw [layoutOffset_succ]
    exact Nat.lt_add_right_iff_pos
  · rw [layoutOffset_last_end, layoutOffset_zero, Nat.succ_mul, Nat.add_sub_cancel_left]

/-- Settles O13: a region of the earlier instance ends inside its part, which ends before the later part starts. -/
theorem instancesDisjoint : Obligations.InstancesDisjoint := by
  unfold Obligations.InstancesDisjoint
  refine fun p i j hij => ⟨part_end_le_ibase p hij, fun k l hk _ => ?_⟩
  calc layoutAt p i k + regionSize p k
      ≤ layoutAt p i 6 := region_end_le_layoutAt p i hk
    _ = ibase p i + total p := layoutAt_six p i
    _ ≤ ibase p j := part_end_le_ibase p hij
    _ ≤ layoutAt p j l := ibase_le_layoutAt p j l

end Sys2Proof
end

section
/-! PROOFS. INIT: the two checks that end it before any access (R157, R158), and the record of its accesses, followed
from step to step (R159 to R167). -/

namespace Sys2Proof

open Sys2Proof.Machine

/-! ### The checks -/

/-- R157: the first check. -/
theorem execInit_of_nInst_le {s : State} (h : s.params.nInst ≤ s.inst) : execInit s = .next (raise .invalidHandle s) :=
  if_neg (Nat.not_lt.mpr h)

/-- R158: the second check. -/
theorem execInit_of_not_configOk {s : State} (hi : s.inst < s.params.nInst) (hc : ¬ ConfigOk s) :
    execInit s = .next (raise .badConfig s) := by
  simp only [execInit, if_pos hi, checkedTiming_bad hc]

/-! ### A poll of the run, seen from its start -/

/-- R160, R167: a poll that `pollSees` speaks of, in the state `t` where it begins: it ends after read `k + 1`. -/
theorem awaitMode_of_pollSees {s t : State} {want : Bool} {n k : Nat} (hf : Follows n s t) (hp : t.params = s.params)
    (hs : pollSees s want n k) (which : Poll) (c : State → Out) :
    awaitMode want which t c = c (afterPoll (k + 1) t) := by
  obtain ⟨hno, hyes, hbound⟩ := hs
  have hack : ∀ j, ackAt t (1 + j) = ackAt s (n + 1 + j) := fun j => by rw [hf.ackAt, Nat.add_assoc]
  exact awaitMode_sees want which k t c (fun j hj => hack j ▸ hno j hj) (hack k ▸ hyes) (hp ▸ hbound)

/-! ### The record of accesses -/

/-- The block has come from `s` to `t`, and its accesses up to `t`, oldest first, are `l`. What their addresses and INIT's
choices rest on, the parameters, the strap and CFG, is as in `s`. -/
structure Recorded (s : State) (l : List Access) (t : State) : Prop where
  params : t.params = s.params
  inst : t.inst = s.inst
  cfg : t.cfg = s.cfg
  bus : t.bus.reverse = l

section

variable {s t : State} {l : List Access}

theorem Recorded.refl (s : State) : Recorded s s.bus.reverse s := ⟨rfl, rfl, rfl, rfl⟩

theorem Recorded.readOf_eq (h : Recorded s l t) (r : Reg) : readOf t r = readOf s r := by
  funext v
  rw [readOf, readOf, h.params, h.inst]

/-- An operation that keeps the block's own registers adds its accesses at the end. -/
theorem Recorded.extend (h : Recorded s l t) {u : State} {xs : List Access} (k : KeepsBlock t u)
    (hb : u.bus = xs.reverse ++ t.bus) : Recorded s (l ++ xs) u :=
  ⟨k.params.trans h.params, k.inst.trans h.inst, k.cfg.trans h.cfg, by simp [hb, h.bus]⟩

/-- R147 to R149: NTIM, then DTIM. -/
theorem Recorded.after_btSet (h : Recorded s l t) (tm : Timing) :
    Recorded s (l ++ [writeOf s .ntim tm.pack, writeOf s .dtim tm.pack]) (btSet tm t) :=
  h.extend (btSet_keeps tm t) (by simp [btSet, writeOf, h.params, h.inst])

/-- R47: the word written is the word read, with its named bits changed. -/
theorem Recorded.after_readModifyWrite (h : Recorded s l t) (r : Reg) (g : Word → Word) :
    ∃ v, Recorded s (l ++ [readOf s r v, writeOf s r (g v)]) (readModifyWrite r g t) :=
  ⟨(regRead r t).1, h.extend (readModifyWrite_keeps r g t)
    (by simp [readModifyWrite, regRead_fst, readOf, writeOf, h.params, h.inst])⟩

/-- A read-modify-write that a flag asks for. -/
theorem Recorded.after_readModifyWrite_if (h : Recorded s l t) (c : Bool) (r : Reg) (g : Word → Word) :
    ∃ v, Recorded s (l ++ if c then [readOf s r v, writeOf s r (g v)] else [])
      (if c then readModifyWrite r g t else t) := by
  cases c with
  | false => exact ⟨0, by simpa using h⟩
  | true => exact h.after_readModifyWrite r g

/-- R160, R167: the reads of a poll. -/
theorem Recorded.after_poll (h : Recorded s l t) (n : Nat) :
    ∃ es : List Word, es.length = n ∧ Recorded s (l ++ es.map (readOf s .mode)) (afterPoll n t) := by
  obtain ⟨es, hlen, hreads⟩ := modeReads_map n t
  refine ⟨es, hlen, h.extend (afterPoll_keeps n t) ?_⟩
  rw [← h.readOf_eq, ← hreads, List.reverse_reverse, afterPoll]

/-! ### The steps of INIT -/

/-- R159. -/
theorem recorded_requestInit (s : State) :
    ∃ v, Recorded s (s.bus.reverse ++ [readOf s .mode v, writeOf s .mode (v ||| 0x1)]) (requestInit s) := by
  have h : Recorded s s.bus.reverse { s with ready := false, launch := { initCfg := s.cfg, loneLayout := false } } :=
    ⟨rfl, rfl, rfl, rfl⟩
  obtain ⟨v, hv⟩ := h.after_readModifyWrite .mode (· ||| 0x1#32)
  exact ⟨v, hv.params, hv.inst, hv.cfg, hv.bus⟩

/-- R161. -/
theorem Recorded.after_enableConfig (h : Recorded s l t) :
    ∃ v, Recorded s (l ++ [readOf s .mode v, writeOf s .mode (v ||| 0x2)]) (enableConfig t) := by
  obtain ⟨v, hv⟩ := h.after_readModifyWrite .mode (· ||| 0x2#32)
  exact ⟨v, hv.params, hv.inst, hv.cfg, hv.bus⟩

/-- R163: TEST, then TXCFG, each where its flag asks for it. -/
theorem Recorded.after_applyFlags (h : Recorded s l t) :
    ∃ v w, Recorded s
      (l ++ (if s.cfg.loopback then [readOf s .test v, writeOf s .test (v ||| 1#32 <<< 4)] else [])
        ++ (if s.cfg.txQueueMode then [readOf s .txcfg w, writeOf s .txcfg (w ||| 1#32 <<< 24)] else []))
      (applyFlags t) := by
  obtain ⟨v, hv⟩ := h.after_readModifyWrite_if s.cfg.loopback .test (· ||| 1#32 <<< 4)
  obtain ⟨w, hw⟩ := hv.after_readModifyWrite_if s.cfg.txQueueMode .txcfg (· ||| 1#32 <<< 24)
  refine ⟨v, w, ?_⟩
  simpa only [applyFlags, h.cfg, hv.cfg] using hw

/-- R164. -/
theorem Recorded.after_writeFilterCount (h : Recorded s l t) :
    ∃ v, Recorded s (l ++ [readOf s .gfilt v,
        writeOf s .gfilt (putField v s.params.gfLsb s.params.gfW (BitVec.ofNat 32 s.cfg.nStd))])
      (writeFilterCount t) := by
  rw [writeFilterCount, h.params, h.cfg]
  exact h.after_readModifyWrite .gfilt _

end

/-! ### The obligations -/

/-- Settles O19: the record grows, step by step, by the accesses of that step. -/
theorem initAccessOrder : Obligations.InitAccessOrder := by
  unfold Obligations.InitAccessOrder
  intro s t k m hwf hi hc hentry hexit hexec
  obtain ⟨tm, w, u, hpack, hrun, hw, -, -, hzero, hfollows, hkeeps, -⟩ := init_toExit s k hwf hi hc hentry
  have hpar : (releaseInit u).params = s.params := (releaseInit_keeps u).params.trans hkeeps.params
  rw [hrun, awaitMode_of_pollSees hfollows hpar hexit] at hexec
  injection hexec with ht
  obtain ⟨v0, h0⟩ := recorded_requestInit s
  obtain ⟨es, hes, hpoll⟩ := h0.after_poll (k + 1)
  have hinit : Recorded s _ { afterPoll (k + 1) (requestInit s) with seq := .initializing } :=
    ⟨hpoll.params, hpoll.inst, hpoll.cfg, hpoll.bus⟩
  obtain ⟨v1, h1⟩ := hinit.after_enableConfig
  obtain ⟨v2, v3, h2⟩ := (h1.after_btSet tm).after_applyFlags
  obtain ⟨v4, h4⟩ := h2.after_writeFilterCount
  rw [← hw, hpack] at h4
  have hlayout : Recorded s _ u :=
    ⟨hkeeps.params, hkeeps.inst, hkeeps.cfg, by rw [hzero, List.reverse_append, List.reverse_reverse, h4.bus]⟩
  obtain ⟨v5, h5⟩ := hlayout.after_readModifyWrite .mode (· &&& ~~~0x1#32)
  obtain ⟨xs, hxs, hend⟩ := h5.after_poll (m + 1)
  exact ⟨v0, v1, v2, v3, v4, v5, es, xs, hes, hxs, ht ▸ hend.bus⟩

/-- Settles O17: the configuration check fails before any access. -/
theorem initBadConfig : Obligations.InitBadConfig :=
  fun _ hi hc => execInit_of_not_configOk hi hc

/-- Settles O16: the selector is checked before anything else. -/
theorem initInvalidHandle : Obligations.InitInvalidHandle :=
  fun _ hi => execInit_of_nInst_le hi

end Sys2Proof
end

section
/-! PROOFS. FILTSET: the check of READY it shares with the three frame commands (R176), the one store of an admitted index
and what the store leaves (R178, R179). -/

namespace Sys2Proof

open Sys2Proof.Machine

/-! ### The check of READY -/

/-- R176, R186, R206, R210: a block that is not ready goes no further, whatever the command would do. -/
theorem whenReady_of_not_ready {s : State} (h : s.ready = false) (k : State → Out) :
    whenReady s k = .next (raise .notInitialised s) := by
  rw [whenReady, h]
  exact if_neg Bool.false_ne_true

/-! ### The store -/

/-- R178, R179: FILTSET on an admitted index is both checks passed, then the one store and the outcome. -/
theorem execFiltset_of_launched {s : State} (hL : Launched s) {idx : Nat} (h : idx < s.cfg.nStd)
    (ft : BitVec 2) (fc : BitVec 3) (a b : BitVec 11) :
    execFiltset idx ft fc a b s = .next { s with
      status := .ok, regs := (hwMoves s).regs, hw := s.hw.tail
      mem := (hwMoves s).mem.setWord (filterElement s idx) (filtPack ft fc a b)
      bus := .memWrite (filterElement s idx) (filtPack ft fc a b) :: s.bus } := by
  rw [execFiltset, whenReady_kept hL.ready hL.cfgKept.1, storeFilter_next s idx _ _ hL.mapped hL.cfgKept h]
  rfl

/-- R61, R76: a word store of the block, HW's moves before it included, leaves a spared byte outside the word alone. -/
theorem byte_hwMoves_setWord_outside {s : State} (hp : ParamsOk s.params) (hwf : s.mem.wf = true) {a c : Nat} (w : Word)
    (hspared : s.hwSpares c = true) (hout : ¬ (a ≤ c ∧ c < a + 4)) :
    ((hwMoves s).mem.setWord a w).byte c = s.mem.byte c := by
  rw [Memory.byte_setWord _ _ _ _ (hwMoves_wf s hwf), if_neg hout, hwMoves_byte s c hp hwf hspared]

/-! ### The obligations -/

/-- Settles O25: the store of an admitted index, read back, and its frame. -/
theorem filtsetStores : Obligations.FiltsetStores := by
  unfold Obligations.FiltsetStores
  intro s idx ft fc a b hL hidx
  refine ⟨_, execFiltset_of_launched hL hidx ft fc a b, rfl, fun hwf => ?_, fun c hwf hspared hout => ?_⟩
  · exact Memory.word_setWord_same _ _ _ (hwMoves_wf s hwf)
  · exact byte_hwMoves_setWord_outside (paramsOk hL.mapped.1) hwf _ hspared hout

/-- Settles O23: each of the four commands begins with the check of READY. -/
theorem notReadyRejected : Obligations.NotReadyRejected :=
  fun _ h => ⟨fun _ _ _ _ _ => whenReady_of_not_ready h _, fun _ _ _ => whenReady_of_not_ready h _,
    fun _ => whenReady_of_not_ready h _, fun _ => whenReady_of_not_ready h _⟩

end Sys2Proof
end

section
/-! PROOFS. TXSEND on a full queue (R188); the words a send leaves in its element (R193, R194); what RXRECV makes of an
element HW spares; and the two together, the round trip of R203. -/

namespace Sys2Proof

open Sys2Proof.Machine

/-! ### One register read -/

/-- R14, R74: the state after a register read: HW's moves before it, and the access in the record. -/
theorem regRead_snd (r : Reg) (s : State) :
    (regRead r s).2 = { s with
      regs := (hwMoves s).regs, mem := (hwMoves s).mem, hw := s.hw.tail
      bus := readOf s r ((hwMoves s).regs.read r) :: s.bus } := by
  ext1 <;> simp [readOf]

/-- R188: a status word with the full flag set ends the send. -/
theorem sendFrom_of_full {v : Word} (h : v.getLsbD 21 = true) (id : BitVec 11) (dlc : BitVec 4) (buf : Vector Byte 64)
    (s : State) : sendFrom v id dlc buf s = .next (raise .queueFull s) :=
  if_pos h

/-! ### The words of an element, written and read -/

/-- R107, R100: a TX word 0 is an RX word 0 without the error-state flag. -/
theorem encTxW0_eq_encRxW0 (id : BitVec 11) : encTxW0 id = encRxW0 false id := by
  simp [encTxW0, encRxW0, bitWord]

/-- R107, R101: a TX word 1 is an RX word 1 with filter index and timestamp 0. -/
theorem encTxW1_eq_encRxW1 (dlc : BitVec 4) : encTxW1 dlc = encRxW1 0 dlc 0 := by
  simp [encTxW1, encRxW1]

/-- R107, R110: what the RX decoder reads in a TX word 0. -/
theorem rxW0_encTxW0 (id : BitVec 11) : rxW0Id (encTxW0 id) = id ∧ rxW0Esi (encTxW0 id) = false :=
  encTxW0_eq_encRxW0 id ▸ rxW0_encRxW0 false id

/-- R107, R110: what the RX decoder reads in a TX word 1. -/
theorem rxW1_encTxW1 (dlc : BitVec 4) :
    rxW1Fidx (encTxW1 dlc) = 0 ∧ rxW1Dlc (encTxW1 dlc) = dlc ∧ rxW1Ts (encTxW1 dlc) = 0 :=
  encTxW1_eq_encRxW1 dlc ▸ rxW1_encRxW1 0 dlc 0

/-- R108, R109: byte `j` of a packed word. -/
theorem unpackByte_packWord (buf : Vector Byte 64) (len k : Nat) {j : Nat} (hj : j < 4) :
    unpackByte (packWord buf k len) j = paddedByte buf len (4 * k + j) := by
  obtain ⟨h0, h1, h2, h3⟩ := unpackByte_wordOfBytes (paddedByte buf len (4 * k)) (paddedByte buf len (4 * k + 1))
    (paddedByte buf len (4 * k + 2)) (paddedByte buf len (4 * k + 3))
  match j, hj with
  | 0, _ => exact h0
  | 1, _ => exact h1
  | 2, _ => exact h2
  | 3, _ => exact h3

/-- R108: a padded byte below the length is the buffer's. -/
theorem paddedByte_of_lt (buf : Vector Byte 64) {len i : Nat} (hi : i < len) (h : i < 64) :
    paddedByte buf len i = buf[i] := by
  simp [paddedByte, hi, h]

theorem packPayload_length (buf : Vector Byte 64) (len : Nat) : (packPayload buf len).length = ceil4 len := by
  simp [packPayload]

theorem packPayload_getD (buf : Vector Byte 64) {len k : Nat} (hk : k < ceil4 len) :
    (packPayload buf len).getD k 0 = packWord buf k len := by
  simp [packPayload, hk]

/-- R14: the payload words have room for the payload. -/
theorem le_four_mul_ceil4 (len : Nat) : len ≤ 4 * ceil4 len := by
  unfold ceil4; omega

/-- R203: packing, then unpacking, gives each byte of the payload back. -/
theorem unpackPayload_packPayload_getD (buf : Vector Byte 64) {len i : Nat} (hi : i < len) (h : i < 64) :
    (unpackPayload (packPayload buf len) len).getD i 0 = buf[i] := by
  have hroom : len ≤ 4 * (packPayload buf len).length := packPayload_length buf len ▸ le_four_mul_ceil4 len
  have hword : i / 4 < ceil4 len := by unfold ceil4; omega
  have hbyte : i % 4 < 4 := Nat.mod_lt i (by decide)
  rw [unpackPayload_getD _ _ _ hroom hi, packPayload_getD buf hword, unpackByte_packWord buf len _ hbyte,
    Nat.div_add_mod, paddedByte_of_lt buf hi h]

/-- R203: the header ports the decoder makes of a sent frame's words. -/
theorem takeFrame_sent_header {p : Params} (hp : ParamsOk p) (id : BitVec 11) (dlc : BitVec 4) (ws : List Word)
    (r : Results) :
    (takeFrame p (encTxW0 id) (encTxW1 dlc) ws r).rxId = id
    ∧ (takeFrame p (encTxW0 id) (encTxW1 dlc) ws r).rxDlc = dlc
    ∧ (takeFrame p (encTxW0 id) (encTxW1 dlc) ws r).rxLen.toNat = dlcToLen p dlc
    ∧ (takeFrame p (encTxW0 id) (encTxW1 dlc) ws r).rxEsi = false
    ∧ (takeFrame p (encTxW0 id) (encTxW1 dlc) ws r).rxTs = 0
    ∧ (takeFrame p (encTxW0 id) (encTxW1 dlc) ws r).rxFidx = 0 := by
  obtain ⟨hid, hesi⟩ := rxW0_encTxW0 id
  obtain ⟨hfidx, hdlc, hts⟩ := rxW1_encTxW1 dlc
  have hlen := dlcToLen_le hp dlc
  refine ⟨hid, hdlc, ?_, hesi, hts, hfidx⟩
  simp only [takeFrame, takePayload, takeRxW1, hdlc, BitVec.toNat_ofNat]
  exact Nat.mod_eq_of_lt (by omega)

/-- R203: the bytes below the length that the decoder makes of a sent frame's words. -/
theorem takeFrame_sent_byte {p : Params} (hp : ParamsOk p) (w0 : Word) (dlc : BitVec 4) (buf : Vector Byte 64)
    (r : Results) {i : Nat} (hi : i < dlcToLen p dlc) (h : i < 64) :
    (takeFrame p w0 (encTxW1 dlc) (packPayload buf (dlcToLen p dlc)) r).rxBuf[i] = buf[i] := by
  have hroom : dlcToLen p dlc ≤ 4 * (packPayload buf (dlcToLen p dlc)).length :=
    packPayload_length buf _ ▸ le_four_mul_ceil4 _
  have hlen := unpackPayload_length _ _ hroom
  simp only [takeFrame, takePayload, (rxW1_encTxW1 dlc).2.1]
  rw [fillBuf_get _ _ (hlen.trans_le (dlcToLen_le hp dlc)) i h, hlen, if_pos hi, unpackPayload_packPayload_getD buf hi h]

/-! ### The element after TXSEND -/

theorem txWords_length (p : Params) (id : BitVec 11) (dlc : BitVec 4) (buf : Vector Byte 64) :
    (txWords p id dlc buf).length = ceil4 (dlcToLen p dlc) + 2 := by
  simp [txWords, packPayload_length]

/-- R193, R194, R76 (a): a send that found a free slot leaves the frame's words in its element, HW's moves before the
hand-off included. -/
theorem words_of_txsend {s t : State} {id : BitVec 11} {dlc : BitVec 4} {buf : Vector Byte 64} {put : BitVec 2}
    (hL : Launched s) (hwf : s.mem.wf = true) (hfree : (hwMoves s).regs.txstat.getLsbD 21 = false)
    (hput : put = field (hwMoves s).regs.txstat 16 2) (hslot : put.toNat < s.params.nTxq)
    (hexec : exec (.txsend id dlc buf) s = .next t) :
    t.mem.words (txSlotElement s put) (txWords s.params id dlc buf).length = txWords s.params id dlc buf := by
  have hp := paramsOk hL.mapped.1
  have hlen : (txWords s.params id dlc buf).length ≤ 18 := txElementWords_length s.params hp id dlc buf
  obtain ⟨v, -, hrun, hv, hvwf, hbytes⟩ := txsend_stores s id dlc buf put (txWords s.params id dlc buf)
    hL hfree hput hslot rfl
  injection hrun.symm.trans hexec with ht
  have hvp : v.params = s.params := by rw [hv]; simp
  have hvi : v.inst = s.inst := by rw [hv]; simp
  have hvh : v.hw = s.hw.drop ((txWords s.params id dlc buf).length + 1) := by rw [hv]; simp
  refine Memory.words_of_bytes _ _ _ fun b hlo hhi => ?_
  have hspared := hwSpares_txSlot s hL.mapped put hslot b hlo (by omega)
  have hhand : t.mem.byte b = (hwMoves v).mem.byte b := by rw [← ht]; simp [handOff]
  rw [hhand, hwMoves_byte v b (hvp ▸ hp) (hvwf hwf) (hwSpares_of_drop hvh hvp hvi hspared), hbytes b hwf hspared,
    if_pos ⟨hlo, hhi⟩]

/-! ### RXRECV on an element HW spares -/

section

variable {s : State} (hp : ParamsOk s.params) (hwf : s.mem.wf = true)

include hp hwf

/-- A spared word is the same after HW's moves. -/
theorem afterMoves_word {a : Nat} (n : Nat) (h : ∀ b, a ≤ b → b < a + 4 → s.hwSpares b = true) :
    (afterMoves n s).mem.word a = s.mem.word a :=
  Memory.word_congr _ _ _ fun b hlo hhi => afterMoves_byte n s b hp hwf (h b hlo hhi)

/-- Loads of spared words return what the RAM held before HW's moves. -/
theorem loadedWords_of_spared (n : Nat) {a : Nat} (k : Nat)
    (h : ∀ b, a ≤ b → b < a + 4 * n → s.hwSpares b = true) :
    loadedWords a n (afterMoves k s) = s.mem.words a n := by
  induction n generalizing a k with
  | zero => rfl
  | succ n ih =>
    have hmoves : hwMoves (afterMoves k s) = afterMoves (k + 1) s := (afterMoves_add k 1 s).symm
    rw [loadedWords, Memory.words, hmoves, afterMoves_word hp hwf (k + 1) fun b hlo hhi => h b hlo (by omega),
      ih (k + 1) fun b hlo hhi => h b (by omega) (by omega)]

end

/-- R212 to R224: RXRECV on a queued element that HW spares ends with `Ok` and decodes the words the RAM held when the
command was issued. -/
theorem rxrecv_of_spared {u : State} {f : Bool} {get : BitVec 2} {w0 w1 : Word} {ws : List Word}
    (hL : Launched u) (hwf : u.mem.wf = true) (hfill : field ((hwMoves u).regs.rxStat f) 0 4 ≠ 0)
    (hget : get = field ((hwMoves u).regs.rxStat f) 8 2) (hslot : get.toNat < rxSlots u.params f)
    (hlen : ws.length = ceil4 (dlcToLen u.params (rxW1Dlc w1)))
    (hwords : u.mem.words (rxSlotElement u f get) (ws.length + 2) = w0 :: w1 :: ws)
    (hspared : ∀ b, rxSlotElement u f get ≤ b → b < rxSlotElement u f get + 4 * (ws.length + 2) →
      u.hwSpares b = true) :
    ∃ v, exec (.rxrecv f) u = .next v ∧ v.status = .ok ∧ v.res = takeFrame u.params w0 w1 ws u.res := by
  have hp := paramsOk hL.mapped.1
  obtain ⟨hw0, hw1, hws⟩ : u.mem.word (rxSlotElement u f get) = w0 ∧ u.mem.word (rxSlotElement u f get + 4) = w1
      ∧ u.mem.words (rxSlotElement u f get + 8) ws.length = ws := by
    simpa [Memory.words] using hwords
  have hload0 : w0 = (afterMoves 2 u).mem.word (rxSlotElement u f get) := by
    rw [afterMoves_word hp hwf 2 fun b hlo hhi => hspared b hlo (by omega), hw0]
  have hload1 : w1 = (afterMoves 3 u).mem.word (rxSlotElement u f get + 4) := by
    rw [afterMoves_word hp hwf 3 fun b hlo hhi => hspared b (by omega) (by omega), hw1]
  have hloads : ws = loadedWords (rxSlotElement u f get + 8) (ceil4 (dlcToLen u.params (rxW1Dlc w1)))
      (afterMoves 3 u) := by
    rw [← hlen, loadedWords_of_spared hp hwf _ 3 fun b hlo hhi => hspared b (by omega) (by omega), hws]
  obtain ⟨z, -, hexec⟩ := rxrecv_loads u f get w0 w1 ws _ hL hfill hget hslot hload0 hload1 rfl hloads
  exact ⟨_, hexec, rfl, by simp⟩

/-! ### The obligations -/

/-- Settles O35: the element TXSEND leaves holds the frame's words, RXRECV decodes those words from the copy, and each
port of their decoding is the operand that was sent. -/
theorem sendReceiveRoundTrip : Obligations.SendReceiveRoundTrip := by
  unfold Obligations.SendReceiveRoundTrip
  intro s t u id dlc buf put get f n hLs hwfs hfree hput hputSlot hsend hLu hwfu hparams hfill hget hgetSlot hn hcopy
    hspared
  have hp := paramsOk hLs.mapped.1
  have hlen := packPayload_length buf (dlcToLen s.params dlc)
  have hn' : n = (packPayload buf (dlcToLen s.params dlc)).length + 2 := by rw [hn, hlen, ceil4]; omega
  have hsent : t.mem.words (txSlotElement s put) n = txWords s.params id dlc buf := by
    rw [hn', hlen, ← txWords_length s.params id dlc buf]
    exact words_of_txsend hLs hwfs hfree hput hputSlot hsend
  rw [hsent, hn'] at hcopy
  rw [hn'] at hspared
  obtain ⟨v, hrecv, hok, hres⟩ := rxrecv_of_spared hLu hwfu hfill hget hgetSlot
    (by rw [hlen, (rxW1_encTxW1 dlc).2.1, hparams]) hcopy hspared
  rw [hparams] at hres
  obtain ⟨hid, hdlc, hrxLen, hesi, hts, hfidx⟩ := takeFrame_sent_header hp id dlc
    (packPayload buf (dlcToLen s.params dlc)) u.res
  refine ⟨v, hrecv, hok, ?_⟩
  rw [hres]
  exact ⟨hid, hdlc, hrxLen, hesi, hts, hfidx, fun i h hi => takeFrame_sent_byte hp (encTxW0 id) dlc buf u.res hi h⟩

/-- Settles O26: the first check passes, the one read returns the full flag, and the send ends there. -/
theorem txsendQueueFull : Obligations.TxsendQueueFull := by
  unfold Obligations.TxsendQueueFull
  intro s id dlc buf hready hcfg hfull
  have hrun : execTxsend id dlc buf s = .next (raise .queueFull (regRead .txstat s).2) := by
    rw [execTxsend, whenReady_kept hready hcfg]
    exact sendFrom_of_full hfull id dlc buf _
  exact hrun.trans (by rw [regRead_snd]; rfl)

end Sys2Proof
end

section
/-! PROOFS. The one status read of RXFILL and RXRECV (R207, R211), and the two paths that end right after it: RXFILL, and
RXRECV on an empty FIFO (R212). -/

namespace Sys2Proof

open Sys2Proof.Machine

/-- R207, R211: a read of RXSTATf returns the word HW's moves have left there, and costs the block one register access. -/
theorem regRead_rxStatReg (f : Bool) (s : State) :
    regRead (rxStatReg f) s = ((hwMoves s).regs.rxStat f, { s with
      regs := (hwMoves s).regs, mem := (hwMoves s).mem, hw := s.hw.tail
      bus := readOf s (rxStatReg f) ((hwMoves s).regs.rxStat f) :: s.bus }) := by
  refine Prod.ext (read_rxStatReg _ f) ?_
  rw [regRead_snd, read_rxStatReg]

/-- R212: a status word of fill level 0 ends the reception, whatever its get index. -/
theorem receiveFrom_of_empty {v : Word} (h : field v 0 4 = 0) (f : Bool) (s : State) :
    receiveFrom v f s = .next (raise .empty s) :=
  if_pos h

/-- Settles O30: the first check passes, and the rest is the one read, from which FILL is taken. -/
theorem rxfillResult : Obligations.RxfillResult := by
  unfold Obligations.RxfillResult
  intro s f hready hcfg
  change execRxfill f s = _
  rw [execRxfill, whenReady_kept hready hcfg, regRead_rxStatReg]
  rfl

/-- Settles O31: the first check passes, the one read returns fill level 0, and the reception ends there. -/
theorem rxrecvEmpty : Obligations.RxrecvEmpty := by
  unfold Obligations.RxrecvEmpty
  intro s f hready hcfg hempty
  change execRxrecv f s = _
  rw [execRxrecv, whenReady_kept hready hcfg, regRead_rxStatReg]
  exact receiveFrom_of_empty hempty f _

end Sys2Proof
end

section
/-! PROOFS. HOST's acts as steps of the machine, and the reset event among them (R260 to R262). -/

namespace Sys2Proof

open Sys2Proof.Machine

/-- A step takes the act at the head of HOST's script off it and performs the act. -/
theorem step_cons {s : State} {h : HostAct} {rest : List HostAct} (hwf : paramsWf s.params = true)
    (hs : s.script = h :: rest) : step s = hostStep h { s with script := rest } := by
  simp [step, hwf, hs]

@[simp] theorem resetBlock_seq (s : State) : (resetBlock s).seq = .normal := rfl
@[simp] theorem resetBlock_ready (s : State) : (resetBlock s).ready = false := rfl

/-- R260: with the reset event at the head of HOST's script, the step is the reset of the block. -/
theorem step_resetBlock {s : State} {rest : List HostAct} (hwf : paramsWf s.params = true)
    (hs : s.script = .resetBlock :: rest) : step s = .next (resetBlock { s with script := rest }) :=
  step_cons hwf hs

/-- Settles O11: the step is the reset of the block, of which each field named is known. -/
theorem resetEventLeavesPeripheralAndRam : Obligations.ResetEventLeavesPeripheralAndRam := by
  unfold Obligations.ResetEventLeavesPeripheralAndRam
  refine ⟨rfl, rfl, fun s rest hwf hs => ⟨_, step_resetBlock hwf hs, ?_⟩⟩
  simp only [resetBlock_seq, resetBlock_ready, resetBlock_params, resetBlock_inst, resetBlock_regs, resetBlock_mem,
    resetBlock_script, and_self]

end Sys2Proof
end

section
/-! PROOFS. The encodings (30_encoding.md): the words of each data row back to their fields, hence decode after encode;
the TX header words and the payload bytes by value; what the rows ignore. -/

namespace Sys2Proof

open Sys2Proof.Machine

/-! ### Words and their values -/

/-- R107: the value of a TX word 0. -/
theorem encTxW0_toNat (id : BitVec 11) : (encTxW0 id).toNat = id.toNat * 2 ^ 18 := by
  have hid := id.isLt
  simp only [encTxW0, BitVec.toNat_shiftLeft, BitVec.toNat_setWidth, Nat.shiftLeft_eq]
  omega

/-- R97: a TX word 0 holds the identifier, and 0 where its row fixes 0. -/
theorem encTxW0_fields (id : BitVec 11) :
    field (encTxW0 id) 29 3 = 0 ∧ field (encTxW0 id) 0 18 = 0 ∧ field (encTxW0 id) 18 11 = id := by
  have hid := id.isLt
  refine ⟨?_, ?_, ?_⟩ <;> apply BitVec.eq_of_toNat_eq <;> rw [toNat_field, encTxW0_toNat] <;> simp <;> omega

/-- R107: the value of a TX word 1. -/
theorem encTxW1_toNat (dlc : BitVec 4) : (encTxW1 dlc).toNat = dlc.toNat * 2 ^ 16 := by
  simp [encTxW1_eq_encRxW1, encRxW1_toNat]

/-- R98: a TX word 1 holds the length code, and 0 where its row fixes 0. -/
theorem encTxW1_fields (dlc : BitVec 4) :
    field (encTxW1 dlc) 20 12 = 0 ∧ field (encTxW1 dlc) 0 16 = 0 ∧ field (encTxW1 dlc) 16 4 = dlc := by
  have hdlc := dlc.isLt
  refine ⟨?_, ?_, ?_⟩ <;> apply BitVec.eq_of_toNat_eq <;> rw [toNat_field, encTxW1_toNat] <;> simp <;> omega

/-- R103: the bits 15:11 of a filter word are 0. -/
theorem filtPack_fixed (ft : BitVec 2) (fc : BitVec 3) (a b : BitVec 11) : field (filtPack ft fc a b) 11 5 = 0 := by
  have hb := b.isLt
  apply BitVec.eq_of_toNat_eq
  rw [toNat_field, filtPack_toNat]
  simp
  omega

/-- R42: the two fields of a TXSTAT word. -/
theorem txstatWord_fields (full : Bool) (put : BitVec 2) :
    (bitWord full <<< 21 ||| put.setWidth 32 <<< 16).getLsbD 21 = full
    ∧ field (bitWord full <<< 21 ||| put.setWidth 32 <<< 16) 16 2 = put := by
  revert full put; decide

/-- R44: the two fields of an RXSTATf word. -/
theorem rxstatWord_fields (get : BitVec 2) (fill : BitVec 4) :
    field (get.setWidth 32 <<< 8 ||| fill.setWidth 32 : Word) 8 2 = get
    ∧ field (get.setWidth 32 <<< 8 ||| fill.setWidth 32 : Word) 0 4 = fill := by
  revert get fill; decide

/-- R37: the two named bits of a MODE word. -/
theorem modeWord_bits (cce ini : Bool) :
    (bitWord cce <<< 1 ||| bitWord ini).getLsbD 1 = cce ∧ (bitWord cce <<< 1 ||| bitWord ini).getLsbD 0 = ini := by
  revert cce ini; decide

/-- R40, R41: the one named bit of TEST and of TXCFG. -/
theorem flagWord_bit (b : Bool) : (bitWord b <<< 4).getLsbD 4 = b ∧ (bitWord b <<< 24).getLsbD 24 = b := by
  revert b; decide

/-- R46: a count that fits its field comes back from it. -/
theorem gfiltWord_count (n : Word) {lo w : Nat} (hlo : lo + w ≤ 32) (hn : n.toNat < 2 ^ w) :
    ((n <<< lo) >>> lo) &&& fieldMask 0 w = n := by
  apply BitVec.eq_of_getLsbD_eq
  intro i hi
  have hout : w ≤ i → n.getLsbD i = false := fun h =>
    Nat.testBit_lt_two_pow (hn.trans_le (Nat.pow_le_pow_right (by omega) h))
  rw [BitVec.getLsbD_and, BitVec.getLsbD_ushiftRight, BitVec.getLsbD_shiftLeft, getLsbD_fieldMask 0 w i (by omega)]
  by_cases h : i < w
  · simp [h, show lo + i < 32 by omega]
  · simp [h, hout (by omega)]

/-! ### The bytes of a data word -/

/-- R62: a word is the word its four bytes make. -/
theorem wordOfByteList_bytesOfWord (w : Word) : wordOfByteList (bytesOfWord w) = some w :=
  congrArg some (wordOfBytes_unpackByte w)

/-- R90: a data word travels as its four bytes and is decoded at its own place. -/
theorem decodeLike_encode_of_format (p : Params) {i : Instr} {fmt : Format} (hfmt : formatOf i = some fmt)
    (hcmd : cmdOf i = none) : decodeLike p i (encode p i) = decodeWord p fmt (placeOf i) (wordOf p i) := by
  simp only [decodeLike, encode, hfmt, hcmd, wordOfByteList_bytesOfWord]

/-- Settles O4: a command comes back from its byte and its ports, a data word from its bytes, read at its place by the
fields of its row. -/
theorem decodeEncodeAgree : Obligations.DecodeEncodeAgree := by
  unfold Obligations.DecodeEncodeAgree
  intro p i hp hwf
  cases i
  case init | layout | filtset | txsend => rfl
  case rxfill f | rxrecv f => cases f <;> rfl
  all_goals
    rw [decodeLike_encode_of_format p rfl rfl]
    simp only [wordOf, placeOf]
    simp only [decodeWord]
  case txw0 slot id =>
    obtain ⟨hhigh, hlow, hid⟩ := encTxW0_fields id
    rw [if_pos ⟨hhigh, hlow⟩, hid]
  case txw1 slot dlc =>
    obtain ⟨hhigh, hlow, hdlc⟩ := encTxW1_fields dlc
    rw [if_pos ⟨hhigh, hlow⟩, hdlc]
  case payw pl a b c d =>
    obtain ⟨ha, hb, hc, hd⟩ := unpackByte_wordOfBytes a b c d
    rw [ha, hb, hc, hd]
  case rxw0 esi id => rw [(rxW0_encRxW0 esi id).1, (rxW0_encRxW0 esi id).2]
  case rxw1 fidx dlc ts =>
    obtain ⟨hfidx, hdlc, hts⟩ := rxW1_encRxW1 fidx dlc ts
    rw [hfidx, hdlc, hts]
  case sfw idx ft fc a b =>
    obtain ⟨hft, hfc, ha, hb⟩ := field_filtPack ft fc a b
    rw [if_pos (filtPack_fixed ft fc a b), hft, hfc, ha, hb]
  case btw t | regNtim t | regDtim t => rw [t.unpack_pack]
  case regMode cce ini => rw [(modeWord_bits cce ini).1, (modeWord_bits cce ini).2]
  case regTest l => rw [(flagWord_bit l).1]
  case regTxcfg q => rw [(flagWord_bit q).2]
  case regTxstat full put => rw [(txstatWord_fields full put).1, (txstatWord_fields full put).2]
  case regRxstat0 get fill | regRxstat1 get fill =>
    rw [(rxstatWord_fields get fill).1, (rxstatWord_fields get fill).2]
  case regGfilt n => rw [gfiltWord_count n (paramsOk hp).gf (by simpa [Instr.wf] using hwf)]

/-! ### Length codes -/

/-- R8: an increasing table is sorted. -/
theorem pairwise_of_strictlyRising {l : List Nat} (h : strictlyRising l = true) : l.Pairwise (· < ·) := by
  rw [← List.isChain_iff_pairwise]
  induction l with
  | nil => exact .nil
  | cons a l ih =>
    cases l with
    | nil => exact .singleton a
    | cons b l =>
      simp only [strictlyRising, Bool.and_eq_true, decide_eq_true_eq] at h
      exact .cons_cons h.1 (ih h.2)

/-- R113: `DlcToLen(dlc)` as an entry of its table. -/
theorem dlcToLen_eq_getElem (p : Params) (d : BitVec 4) : dlcToLen p d = p.dlcToLen[d.toNat]'d.isLt := by
  have hd : d.toNat < 16 := d.isLt
  simp [dlcToLen, hd]

/-- R113, R8: no two length codes have one length. -/
theorem dlcToLen_injective {p : Params} (hp : ParamsOk p) : Function.Injective (dlcToLen p) := by
  have hsorted := List.pairwise_iff_getElem.mp (pairwise_of_strictlyRising hp.dlcRising)
  have hlt : ∀ d e : BitVec 4, d.toNat < e.toNat → dlcToLen p d < dlcToLen p e := fun d e h => by
    rw [dlcToLen_eq_getElem, dlcToLen_eq_getElem]
    exact hsorted d.toNat e.toNat (by simpa using d.isLt) (by simpa using e.isLt) h
  intro d e h
  rcases Nat.lt_trichotomy d.toNat e.toNat with hde | hde | hde
  · exact absurd h (hlt d e hde).ne
  · exact BitVec.eq_of_toNat_eq hde
  · exact absurd h (hlt e d hde).ne'

/-- R113: `LenToDlc` looks through every code. -/
theorem mem_dlcCodes (d : BitVec 4) : d ∈ (List.range 16).map (BitVec.ofNat 4) :=
  List.mem_map.mpr ⟨d.toNat, List.mem_range.mpr d.isLt, BitVec.ofNat_toNat 4 d ▸ by simp⟩

theorem lenToDlc_eq_none_iff (p : Params) (n : Nat) : lenToDlc p n = none ↔ ∀ d : BitVec 4, dlcToLen p d ≠ n := by
  simp only [lenToDlc, List.find?_eq_none, beq_iff_eq]
  exact ⟨fun h d => h d (mem_dlcCodes d), fun h d _ => h d⟩

theorem lenToDlc_eq_some_iff {p : Params} (hp : ParamsOk p) (n : Nat) (d : BitVec 4) :
    lenToDlc p n = some d ↔ dlcToLen p d = n := by
  refine ⟨fun h => by simpa using List.find?_some h, fun h => ?_⟩
  cases hfound : lenToDlc p n with
  | none => exact absurd h ((lenToDlc_eq_none_iff p n).mp hfound d)
  | some e =>
    have he : dlcToLen p e = n := by simpa using List.find?_some hfound
    rw [dlcToLen_injective hp (he.trans h.symm)]

/-! ### The other obligations -/

/-- Settles O8: a byte of a packed word is the padded byte of its number, which is the buffer's below the length. -/
theorem payloadBytesRecovered : Obligations.PayloadBytesRecovered := by
  unfold Obligations.PayloadBytesRecovered
  intro buf len i
  rw [unpackByte_packWord buf len _ (Nat.mod_lt i (by decide)), Nat.div_add_mod]
  exact ⟨fun h hi => paddedByte_of_lt buf hi h, fun h => if_neg (Nat.not_lt.mpr h)⟩

/-- Settles O5: the headers by value and by what the decoder reads in them; `LenToDlc` inverts an injective table. -/
theorem headerWordsRoundTrip : Obligations.HeaderWordsRoundTrip := by
  unfold Obligations.HeaderWordsRoundTrip
  refine ⟨fun id => ⟨encTxW0_toNat id, rxW0_encTxW0 id⟩, fun dlc => ?_, fun p n hp => ?_, by decide⟩
  · obtain ⟨hfidx, hdlc, hts⟩ := rxW1_encTxW1 dlc
    exact ⟨encTxW1_toNat dlc, hts, hdlc, hfidx⟩
  · exact ⟨lenToDlc_eq_some_iff (paramsOk hp) n, lenToDlc_eq_none_iff p n⟩

/-- Settles O9: each of the three looks at the word through the fields its row names, and nothing else. -/
theorem ignoredBitsDoNotMatter : Obligations.IgnoredBitsDoNotMatter := by
  unfold Obligations.IgnoredBitsDoNotMatter
  refine ⟨fun p w0 w0' w1 w1' ws ws' r hid hesi hts hdlc hfidx hpay => ?_, fun v v' id dlc buf s hfull hput => ?_,
    fun v v' f s hfill hget => ?_⟩
  · simp only [takeFrame, takePayload, takeRxW1, takeRxW0, rxW0Id, rxW0Esi, rxW1Ts, rxW1Dlc, rxW1Fidx, ← hid, ← hesi,
      ← hts, ← hdlc, ← hfidx, hpay]
  · have hfull : txFull v = txFull v' := hfull
    have hput : txPut v = txPut v' := hput
    rw [sendFrom, sendFrom, hfull, hput]
  · have hfill : rxFillLevel v = rxFillLevel v' := hfill
    have hget : rxGet v = rxGet v' := hget
    rw [receiveFrom, receiveFrom, hfill, hget]

/-- Settles O2, by evaluating the decoder on each word. -/
theorem dataWordsDecode : Obligations.DataWordsDecode :=
  fun _ _ => ⟨rfl, rfl, rfl, rfl, rfl, rfl, rfl, rfl, rfl, rfl⟩

end Sys2Proof
end

section
/-! PROOFS. What any instruction can do, said once. A command: `CommandEnd`, one lemma for each of the six. A data word:
it stores its one word, or it stores nothing. From these come the invariant and the frames of the whole machine. -/

namespace Sys2Proof

open Sys2Proof.Machine

/-! ### An outcome raised before any effect -/

/-- R243: `t` is `s` with an outcome raised, at once or after one register read. -/
def Rejected (s t : State) : Prop :=
  t = raise t.status s ∨ ∃ r, t = raise t.status (regRead r s).2

theorem rejected_raise (o : Status) (s : State) : Rejected s (raise o s) := .inl rfl

theorem rejected_raise_regRead (o : Status) (r : Reg) (s : State) : Rejected s (raise o (regRead r s).2) :=
  .inr ⟨r, rfl⟩

section

variable {s t : State} (h : Rejected s t)

include h

theorem Rejected.confined : Confined s t := by
  obtain h | ⟨r, h⟩ := h
  · exact h ▸ (Confined.refl s).of_eq rfl rfl rfl rfl
  · exact h ▸ (regRead_confined r s).of_eq rfl rfl rfl rfl

theorem Rejected.keeps : KeepsBlock { s with status := t.status } t := by
  obtain h | ⟨r, h⟩ := h <;> rw [h] <;> constructor <;> simp

theorem Rejected.timing : t.regs.ntim = s.regs.ntim ∧ t.regs.dtim = s.regs.dtim := by
  obtain h | ⟨r, h⟩ := h <;> rw [h] <;> simp

/-- R243: the block, the registers and the RAM are as HW alone has left them. -/
theorem Rejected.precise : ∃ (n : Nat) (xs : List Access),
    t = { afterMoves n s with status := t.status, bus := xs ++ s.bus } ∧ xs.length = n
    ∧ ∀ x ∈ xs, ∃ a v, x = .regRead a v := by
  obtain h | ⟨r, h⟩ := h
  · exact ⟨0, [], h, rfl, fun x hx => absurd hx List.not_mem_nil⟩
  · refine ⟨1, [readOf s r ((hwMoves s).regs.read r)], ?_, rfl, fun x hx => ⟨_, _, List.mem_singleton.mp hx⟩⟩
    rw [h, regRead_snd, afterMoves_succ, afterMoves_zero, hwMoves_eq]
    rfl

end

/-! ### How a command ends -/

/-- R27, R31: `s` with the block registers and result ports that `i` may write taken from `t`. -/
def withWritten (i : Instr) (s t : State) : State :=
  match i with
  | .init => { s with
      map := t.map, lastReq := t.lastReq, seq := t.seq, ready := t.ready, status := t.status, launch := t.launch }
  | .layout => { s with map := t.map, status := t.status, launch := t.launch }
  | .filtset _ _ _ _ _ => { s with status := t.status }
  | .txsend _ _ _ => { s with status := t.status, lastReq := t.lastReq }
  | .rxfill _ => { s with status := t.status, res := { s.res with fill := t.res.fill } }
  | .rxrecv _ => { s with status := t.status, res := { t.res with fill := s.res.fill } }
  | _ => { s with status := t.status, res := t.res }

/-- What a command that answers next can have done. -/
structure CommandEnd (i : Instr) (s t : State) : Prop where
  /-- R64, R84: the RAM outside the instance's part is HW's alone. -/
  confined : Confined s t
  keeps : KeepsBlock (withWritten i s t) t
  /-- R231. -/
  outcome : t.status ∈ outcomesOf i
  /-- R243. -/
  precise : Rejected s t ∨ t.status = .ok ∨ ∃ w, t.status = .hwFault w
  /-- R150. -/
  timing : i ≠ .init → t.regs.ntim = s.regs.ntim ∧ t.regs.dtim = s.regs.dtim
  /-- R23, R196. -/
  lastReq : t.lastReq = s.lastReq ∨ t.lastReq = 0 ∨ ∃ slot : BitVec 2, t.lastReq = 1#32 <<< slot.toNat

theorem Rejected.commandEnd {i : Instr} {s t : State} (h : Rejected s t) (ho : t.status ∈ outcomesOf i) :
    CommandEnd i s t := by
  have k := h.keeps
  refine ⟨h.confined, ?_, ho, .inl h, fun _ => h.timing, .inl k.lastReq⟩
  have hres : t.res = s.res := k.res
  have hseq : t.seq = s.seq := k.seq
  cases i
  all_goals
    refine ⟨k.params, k.inst, k.cfg, k.cfgWritten, ?_, ?_, ?_, ?_, rfl, ?_, k.script, ?_⟩
    all_goals simp only [withWritten, hres, hseq, k.map, k.lastReq, k.ready, k.launch]

/-- R177: what FILTSET and the word SFW share: the bound, then the one store. -/
theorem storeFilter_cases {idx : Nat} {w : Word} {s t : State} {k : State → Out} (h : storeFilter idx w s k = .next t) :
    t = raise .indexOutOfRange s ∨ ∃ u, memWrite (filterAddress s idx) w s = .next u ∧ k u = .next t := by
  unfold storeFilter at h
  split at h
  · injection h with h
    exact .inl h.symm
  · exact .inr (andThen_next h)

/-- R191: what TXSEND and its words share. -/
theorem whenTxSlot_cases {slot : BitVec 2} {s t : State} {k : State → Out} (h : whenTxSlot slot s k = .next t) :
    t = raise .slotOutOfRange s ∨ k s = .next t := by
  unfold whenTxSlot at h
  split at h
  · injection h with h
    exact .inl h.symm
  · exact .inr h

theorem execFiltset_end {idx : Nat} {ft : BitVec 2} {fc : BitVec 3} {a b : BitVec 11} {s t : State}
    (h : execFiltset idx ft fc a b s = .next t) : CommandEnd (.filtset idx ft fc a b) s t := by
  obtain ⟨-, rfl⟩ | ⟨-, -, h⟩ := whenReady_next h
  · exact (rejected_raise _ s).commandEnd (by simp [outcomesOf])
  obtain rfl | ⟨u, hu, ht⟩ := storeFilter_cases h
  · exact (rejected_raise _ s).commandEnd (by simp [outcomesOf])
  injection ht with ht
  subst ht
  obtain ⟨hconf, k, hregs⟩ := memWrite_spec hu
  exact ⟨hconf.of_eq rfl rfl rfl rfl,
    ⟨k.params, k.inst, k.cfg, k.cfgWritten, k.map, k.lastReq, k.seq, k.ready, rfl, k.res, k.script, k.launch⟩,
    by simp [outcomesOf], .inr (.inl rfl), fun _ => by simp [hregs], .inl k.lastReq⟩

/-- What TXSEND does once a slot is free: the stores, then the hand-off. -/
theorem sendFrom_cases {v : Word} {id : BitVec 11} {dlc : BitVec 4} {buf : Vector Byte 64} {s t : State}
    (h : sendFrom v id dlc buf s = .next t) :
    (t = raise .queueFull s ∨ t = raise .slotOutOfRange s)
    ∨ ∃ u, storeWords (txElement s (txPut v)) (txWords s.params id dlc buf) s = .next u
        ∧ t = raise .ok (handOff (txPut v) u) := by
  unfold sendFrom at h
  split at h
  · injection h with h
    exact .inl (.inl h.symm)
  obtain h | h := whenTxSlot_cases h
  · exact .inl (.inr h)
  obtain ⟨u, hu, ht⟩ := andThen_next h
  injection ht with ht
  exact .inr ⟨u, hu, ht.symm⟩

theorem execTxsend_end {id : BitVec 11} {dlc : BitVec 4} {buf : Vector Byte 64} {s t : State}
    (h : execTxsend id dlc buf s = .next t) : CommandEnd (.txsend id dlc buf) s t := by
  obtain ⟨-, rfl⟩ | ⟨-, -, h⟩ := whenReady_next h
  · exact (rejected_raise _ s).commandEnd (by simp [outcomesOf])
  obtain (rfl | rfl) | ⟨u, hu, rfl⟩ := sendFrom_cases h
  · exact (rejected_raise_regRead _ _ s).commandEnd (by simp [outcomesOf])
  · exact (rejected_raise_regRead _ _ s).commandEnd (by simp [outcomesOf])
  obtain ⟨hconf, hkeep, hregs⟩ := storeWords_confined _ hu
  generalize txPut (regRead .txstat s).1 = put
  have k := ((regRead_keeps .txstat s).trans hkeep).trans (regWrite_keeps .txadd (1#32 <<< put.toNat) u)
  have hc := hconf.trans (regWrite_confined .txadd (1#32 <<< put.toNat) u)
  exact ⟨((regRead_confined .txstat s).trans hc).of_eq rfl rfl rfl rfl,
    ⟨k.params, k.inst, k.cfg, k.cfgWritten, k.map, rfl, k.seq, k.ready, rfl, k.res, k.script, k.launch⟩,
    by simp [outcomesOf], .inr (.inl rfl), fun _ => by simp [handOff, Regs.write, hregs], .inr (.inr ⟨_, rfl⟩)⟩

theorem execRxfill_end {f : Bool} {s t : State} (h : execRxfill f s = .next t) : CommandEnd (.rxfill f) s t := by
  obtain ⟨-, rfl⟩ | ⟨-, -, h⟩ := whenReady_next h
  · exact (rejected_raise _ s).commandEnd (by simp [outcomesOf])
  injection h with h
  subst h
  have k := regRead_keeps (rxStatReg f) s
  exact ⟨(regRead_confined (rxStatReg f) s).of_eq rfl rfl rfl rfl,
    ⟨k.params, k.inst, k.cfg, k.cfgWritten, k.map, k.lastReq, k.seq, k.ready, rfl, by simp [withWritten],
      k.script, k.launch⟩,
    by simp [outcomesOf], .inr (.inl rfl), fun _ => by simp, .inl k.lastReq⟩

/-- What RXRECV does from the status word on: a rejection, or the loads, the delivery and the acknowledge. -/
theorem receiveFrom_cases {v : Word} {f : Bool} {s t : State} (h : receiveFrom v f s = .next t) :
    (t = raise .empty s ∨ t = raise .slotOutOfRange s)
    ∨ ∃ (u : State) (w0 w1 : Word) (ws : List Word), Confined s u ∧ KeepsBlock s u
        ∧ u.regs.ntim = s.regs.ntim ∧ u.regs.dtim = s.regs.dtim
        ∧ t = raise .ok (regWrite (rxAckReg f) ((rxGet v).setWidth 32)
            { u with res := takeFrame u.params w0 w1 ws u.res }) := by
  unfold receiveFrom at h
  split at h
  · injection h with h
    exact .inl (.inl h.symm)
  split at h
  · injection h with h
    exact .inl (.inr h.symm)
  unfold receiveAt at h
  split at h
  · exact absurd h (by simp)
  rename_i w0 s1 hw0
  split at h
  · exact absurd h (by simp)
  rename_i w1 s2 hw1
  split at h
  · exact absurd h (by simp)
  rename_i ws u hws
  injection h with h
  obtain ⟨c0, k0, r0⟩ := memRead_spec hw0
  obtain ⟨c1, k1, r1⟩ := memRead_spec hw1
  obtain ⟨c2, k2, hntim, hdtim⟩ := loadWords_confined _ hws
  exact .inr ⟨u, w0, w1, ws, c0.trans (c1.trans c2), k0.trans (k1.trans k2), by simp [hntim, r1, r0],
    by simp [hdtim, r1, r0], h.symm⟩

theorem execRxrecv_end {f : Bool} {s t : State} (h : execRxrecv f s = .next t) : CommandEnd (.rxrecv f) s t := by
  obtain ⟨-, rfl⟩ | ⟨-, -, h⟩ := whenReady_next h
  · exact (rejected_raise _ s).commandEnd (by simp [outcomesOf])
  obtain (rfl | rfl) | ⟨u, w0, w1, ws, hconf, hkeep, hntim, hdtim, rfl⟩ := receiveFrom_cases h
  · exact (rejected_raise_regRead _ _ s).commandEnd (by simp [outcomesOf])
  · exact (rejected_raise_regRead _ _ s).commandEnd (by simp [outcomesOf])
  generalize (rxGet (regRead (rxStatReg f) s).1).setWidth 32 = v
  have k := (regRead_keeps (rxStatReg f) s).trans hkeep
  have kw := regWrite_keeps (rxAckReg f) v { u with res := takeFrame u.params w0 w1 ws u.res }
  have hfill : (regWrite (rxAckReg f) v { u with res := takeFrame u.params w0 w1 ws u.res }).res.fill = s.res.fill :=
    (congrArg Results.fill kw.res).trans (show u.res.fill = s.res.fill by rw [k.res])
  have hc := ((regRead_confined (rxStatReg f) s).trans hconf).of_eq
    (u := { u with res := takeFrame u.params w0 w1 ws u.res }) rfl rfl rfl rfl
  refine ⟨(hc.trans (regWrite_confined (rxAckReg f) v _)).of_eq rfl rfl rfl rfl,
    ⟨kw.params.trans k.params, kw.inst.trans k.inst, kw.cfg.trans k.cfg, kw.cfgWritten.trans k.cfgWritten,
      kw.map.trans k.map, kw.lastReq.trans k.lastReq, kw.seq.trans k.seq, kw.ready.trans k.ready, rfl,
      by simp only [withWritten, raise_res, ← hfill], kw.script.trans k.script, kw.launch.trans k.launch⟩,
    by simp [outcomesOf], .inr (.inl rfl), fun _ => ?_, .inl (kw.lastReq.trans k.lastReq)⟩
  cases f <;> simp [rxAckReg, Regs.write, hntim, hdtim]

theorem execLayout_end {s t : State} (h : execLayout s = .next t) : CommandEnd .layout s t := by
  obtain ⟨u, hu, ht⟩ := andThen_next h
  injection ht with ht
  subst ht
  obtain ⟨hconf, k, hregs⟩ := layoutSteps_confined hu
  exact ⟨hconf.of_eq rfl rfl rfl rfl,
    ⟨k.params, k.inst, k.cfg, k.cfgWritten, rfl, k.lastReq, k.seq, k.ready, rfl, k.res, k.script, rfl⟩,
    by simp [outcomesOf], .inr (.inl rfl), fun _ => by simp [hregs], .inl k.lastReq⟩

theorem execInit_end {s t : State} (h : execInit s = .next t) : CommandEnd .init s t := by
  obtain ⟨hconf, ⟨o, rfl, rfl | rfl⟩ | k | k | k⟩ := execInit_next h
  · exact (rejected_raise _ s).commandEnd (by simp [outcomesOf])
  · exact (rejected_raise _ s).commandEnd (by simp [outcomesOf])
  all_goals
    have hstatus := k.status
    refine ⟨hconf, ⟨k.params, k.inst, k.cfg, k.cfgWritten, rfl, rfl, rfl, rfl, rfl, k.res, k.script, rfl⟩,
      by simp [outcomesOf, hstatus], by simp [hstatus], fun hi => absurd rfl hi, ?_⟩
    simp [k.lastReq]

/-- Every command ends as `CommandEnd` says. -/
theorem exec_commandEnd {i : Instr} {s t : State} (hi : (cmdOf i).isSome = true) (h : exec i s = .next t) :
    CommandEnd i s t := by
  cases i
  case init => exact execInit_end h
  case layout => exact execLayout_end h
  case filtset => exact execFiltset_end h
  case txsend => exact execTxsend_end h
  case rxfill => exact execRxfill_end h
  case rxrecv => exact execRxrecv_end h
  all_goals exact absurd hi (by simp [cmdOf])

end Sys2Proof
end

section
/-! PROOFS. The invariant (R21, R23, R26, R49, R170): kept by every operation that only drops what it asks, hence by every
step. What a command leaves of the result ports, the timing registers, and, where it is rejected, of everything. -/

namespace Sys2Proof

open Sys2Proof.Machine

/-! ### The invariant -/

theorem atMostOneBit_shift (slot : BitVec 2) : atMostOneBit (1#32 <<< slot.toNat) = true := by
  revert slot; decide

/-- The invariant is kept where the RAM is kept in form and the block's registers are, as far as it speaks of them. -/
theorem Inv.of_confined {s t : State} (hinv : Inv s) (hp : ParamsOk s.params) (hc : Confined s t)
    (hlast : atMostOneBit t.lastReq = true) (hseq : t.seq ≠ .initializing)
    (hready : t.ready = true → t.seq = .normal ∧ t.map = layoutMap s.params s.inst
      ∧ t.launch.initCfg.nStd ≤ s.params.nSf) : Inv t where
  strap := by rw [hc.inst, hc.params]; exact hinv.strap
  memWf := hc.wf hinv.memWf
  memIn := by rw [hc.params]; exact hc.inRam hp hinv.strap hinv.memIn
  lastReqOneBit := hlast
  readyNormal := fun h => by rw [hc.inst, hc.params]; exact ⟨(hready h).1, (hready h).2.1⟩
  readyBudget := fun h => by rw [hc.params]; exact (hready h).2.2
  notInitializing := hseq

/-- The invariant is kept where the RAM is kept in form and what it says of the block's registers is as it was. -/
theorem Inv.of_keeps {s t : State} (hinv : Inv s) (hp : ParamsOk s.params) (hc : Confined s t)
    (hlast : atMostOneBit t.lastReq = true) (hseq : t.seq = s.seq) (hready : t.ready = s.ready)
    (hmap : t.map = s.map ∨ t.map = layoutMap s.params s.inst) (hcfg : t.launch.initCfg = s.launch.initCfg) : Inv t := by
  refine hinv.of_confined hp hc hlast (hseq ▸ hinv.notInitializing) fun h => ?_
  rw [hready] at h
  obtain ⟨hnormal, hlayout⟩ := hinv.readyNormal h
  exact ⟨hseq.trans hnormal, hmap.elim (fun e => e.trans hlayout) id, hcfg ▸ hinv.readyBudget h⟩

/-- R23, R196: LASTREQ has at most one bit after a command if it had before. -/
theorem CommandEnd.lastReq_oneBit {i : Instr} {s t : State} (h : CommandEnd i s t) (hinv : Inv s) :
    atMostOneBit t.lastReq = true := by
  obtain h | h | ⟨slot, h⟩ := h.lastReq <;> rw [h]
  · exact hinv.lastReqOneBit
  · rfl
  · exact atMostOneBit_shift slot

/-- R158: INIT ends with `Ok` only under a configuration it accepts. -/
theorem configOk_of_execInit_ok {s t : State} (h : execInit s = .next t) (hok : t.status = .ok) : ConfigOk s := by
  by_contra hc
  rcases Nat.lt_or_ge s.inst s.params.nInst with hi | hi
  · injection (execInit_of_not_configOk hi hc).symm.trans h with ht
    simp [← ht] at hok
  · injection (execInit_of_nInst_le hi).symm.trans h with ht
    simp [← ht] at hok

theorem execInit_keepsInv {s t : State} (hinv : Inv s) (hp : ParamsOk s.params) (h : execInit s = .next t) : Inv t := by
  have hend := execInit_end h
  have hlast := hend.lastReq_oneBit hinv
  obtain ⟨hconf, ⟨o, rfl, -⟩ | k | k | k⟩ := execInit_next h
  · exact hinv.of_keeps hp hconf hlast rfl rfl (.inl rfl) rfl
  · exact hinv.of_confined hp hconf hlast (by simp [k.seq]) (by simp [k.ready])
  · exact hinv.of_confined hp hconf hlast (by simp [k.seq]) (by simp [k.ready])
  · refine hinv.of_confined hp hconf hlast (by simp [k.seq]) fun _ => ⟨k.seq, k.map, ?_⟩
    rw [k.launch]
    exact (configOk_of_execInit_ok h k.status).nStd.1

theorem execLayout_keepsInv {s t : State} (hinv : Inv s) (hp : ParamsOk s.params) (h : execLayout s = .next t) :
    Inv t := by
  have hend := execLayout_end h
  obtain ⟨u, hu, ht⟩ := andThen_next h
  injection ht with ht
  obtain ⟨-, k, -⟩ := layoutSteps_confined hu
  subst ht
  exact hinv.of_keeps hp hend.confined (hend.lastReq_oneBit hinv) k.seq k.ready (.inr k.map)
    (show u.launch.initCfg = s.launch.initCfg by rw [k.launch])

/-- A command keeps the invariant. -/
theorem command_keepsInv {i : Instr} {s t : State} (hi : (cmdOf i).isSome = true) (hinv : Inv s)
    (hp : ParamsOk s.params) (h : exec i s = .next t) : Inv t := by
  have hend := exec_commandEnd hi h
  have hlast := hend.lastReq_oneBit hinv
  have k := hend.keeps
  cases i
  case init => exact execInit_keepsInv hinv hp h
  case layout => exact execLayout_keepsInv hinv hp h
  case filtset | txsend | rxfill | rxrecv =>
    exact hinv.of_keeps hp hend.confined hlast k.seq k.ready (.inl k.map) (congrArg Launch.initCfg k.launch)
  all_goals exact absurd hi (by simp [cmdOf])

/-- R90: the command port yields commands only. -/
theorem cmdOf_isSome_of_decode {bytes : List Byte} {q : Ports} {i : Instr} (h : decode bytes q = .ok i) :
    (cmdOf i).isSome = true := by
  match bytes with
  | [] => exact absurd h (by simp [decode])
  | _ :: _ :: _ => exact absurd h (by simp [decode])
  | [cmd] =>
    obtain ⟨-, j, hj, hcmd⟩ | ⟨-, r, hr, -⟩ := decode_byte_cases cmd q
    · injection hj.symm.trans h with hij
      rw [← hij, hcmd, Option.isSome_some]
    · exact absurd (hr.symm.trans h) (by simp)

/-- What a presentation on the command port can do: a command runs, or the word is illegal. -/
theorem runDecoded_next {bytes : List Byte} {q : Ports} {s t : State} (h : runDecoded (decode bytes q) s = .next t) :
    (∃ i, (cmdOf i).isSome = true ∧ exec i s = .next t) ∨ t = raise .illegalCommand s := by
  cases hd : decode bytes q with
  | ok i => exact .inl ⟨i, cmdOf_isSome_of_decode hd, by rwa [hd] at h⟩
  | error r =>
    rw [hd] at h
    by_cases hr : r = .notOneByte
    · exact absurd (hr ▸ h) (by simp [runDecoded])
    · injection (runDecoded_error s hr).symm.trans h with ht
      exact .inr ht.symm

/-- An act of HOST keeps the invariant. -/
theorem hostStep_keepsInv {a : HostAct} {s t : State} (hinv : Inv s) (hp : ParamsOk s.params)
    (h : hostStep a s = .next t) : Inv t := by
  cases a with
  | setCfg w =>
    injection h with h
    subst h
    exact hinv.of_keeps hp ((Confined.refl s).of_eq (by simp) (by simp) (by simp) (by simp))
      (by simpa using hinv.lastReqOneBit) (by simp) (by simp) (by simp) (by simp)
  | resetBlock =>
    injection h with h
    subst h
    exact hinv.of_confined hp ((Confined.refl s).of_eq rfl rfl rfl rfl) rfl (by simp) (by simp)
  | issue bytes q =>
    obtain ⟨i, hi, hexec⟩ | rfl := runDecoded_next h
    · exact command_keepsInv hi hinv hp hexec
    · exact hinv.of_keeps hp ((Confined.refl s).of_eq rfl rfl rfl rfl) hinv.lastReqOneBit rfl rfl (.inl rfl) rfl

/-- What a step can do when it answers next. -/
theorem step_next {s t : State} (h : step s = .next t) :
    paramsWf s.params = true
    ∧ (t = s ∨ ∃ a rest, s.script = a :: rest ∧ hostStep a { s with script := rest } = .next t) := by
  have hwf : paramsWf s.params = true := by
    by_contra hc
    simp [step, hc] at h
  refine ⟨hwf, ?_⟩
  cases hs : s.script with
  | nil => exact .inl (by simpa [step, hwf, hs, eq_comm] using h)
  | cons a rest => exact .inr ⟨a, rest, rfl, step_cons hwf hs ▸ h⟩

/-- HOST's script is no part of the invariant. -/
theorem Inv.setScript {s : State} (h : Inv s) (l : List HostAct) : Inv { s with script := l } :=
  ⟨h.strap, h.memWf, h.memIn, h.lastReqOneBit, h.readyNormal, h.readyBudget, h.notInitializing⟩

/-- Settles O55: a step does nothing, or an act of HOST, and each act keeps the invariant. -/
theorem stepKeepsInv : Obligations.StepKeepsInv := by
  unfold Obligations.StepKeepsInv
  intro s t hinv h
  obtain ⟨hwf, rfl | ⟨a, rest, -, hact⟩⟩ := step_next h
  · exact hinv
  · exact hostStep_keepsInv (hinv.setScript rest) (paramsOk hwf) hact

/-- Settles O54, field by field of the state after reset. -/
theorem resetMeetsInv : Obligations.ResetMeetsInv where
  strap := by decide
  memWf := reset_mem_wf
  memIn := rfl
  lastReqOneBit := rfl
  readyNormal := fun h => absurd h (by decide)
  readyBudget := fun h => absurd h (by decide)
  notInitializing := by decide

/-- Settles O10: the step runs what the bytes decode to. -/
theorem stepRunsDecodedInstruction : Obligations.StepRunsDecodedInstruction := by
  unfold Obligations.StepRunsDecodedInstruction
  intro s bytes q rest i hwf hs hdec
  rw [step_issue hwf hs, hdec, runDecoded]

/-! ### The frames of the commands -/

section

variable {i : Instr} {s t : State} (h : CommandEnd i s t) (hi : (cmdOf i).isSome = true)

include h hi

/-- R31: FILL is RXFILL's. -/
theorem CommandEnd.fill (hne : ∀ f, i ≠ .rxfill f) : t.res.fill = s.res.fill := by
  have hres := h.keeps.res
  cases i
  case rxfill f => exact absurd rfl (hne f)
  case init | layout | filtset | txsend | rxrecv => exact (congrArg Results.fill hres :)
  all_goals exact absurd hi (by simp [cmdOf])

/-- R31: the other result ports are RXRECV's. -/
theorem CommandEnd.rxPorts (hne : ∀ f, i ≠ .rxrecv f) : t.res = { s.res with fill := t.res.fill } := by
  have hres := h.keeps.res
  cases i
  case rxrecv f => exact absurd rfl (hne f)
  case rxfill f => exact hres
  case init | layout | filtset | txsend => rw [show t.res = s.res from hres]
  all_goals exact absurd hi (by simp [cmdOf])

omit hi in
/-- R225, R243: an outcome other than `Ok` delivers nothing. -/
theorem CommandEnd.res_of_not_ok (hok : t.status ≠ .ok) : t.res = s.res := by
  obtain hrej | hok' | ⟨w, hw⟩ := h.precise
  · exact hrej.keeps.res
  · exact absurd hok' hok
  · have hout := h.outcome
    cases i
    case init => exact h.keeps.res
    all_goals simp [outcomesOf, hw] at hout

end

/-- Settles O57. -/
theorem resultPortWriters : Obligations.ResultPortWriters := by
  unfold Obligations.ResultPortWriters
  intro i s t hi h
  have hend := exec_commandEnd hi h
  exact ⟨hend.fill hi, hend.rxPorts hi, hend.res_of_not_ok, hend.outcome⟩

/-- Settles O58. -/
theorem timingRegistersOnlyByInit : Obligations.TimingRegistersOnlyByInit :=
  fun _ _ _ hi hinit h => (exec_commandEnd hi h).timing hinit

/-- Settles O60: such an outcome is a rejection. -/
theorem outcomesPrecise : Obligations.OutcomesPrecise := by
  unfold Obligations.OutcomesPrecise
  intro i s t hi h hok hfault
  obtain hrej | hok' | ⟨w, hw⟩ := (exec_commandEnd hi h).precise
  · exact hrej.precise
  · exact absurd hok' hok
  · exact absurd hw (hfault w)

end Sys2Proof
end

section
/-! PROOFS. The nineteen data words as a whole: each stores its one word or stores nothing (`dataWord_cases`). With the
commands' `CommandEnd` that gives who writes the block's registers (R27) and where an instruction may write the RAM
(R84). -/

namespace Sys2Proof

open Sys2Proof.Machine

/-! ### Words that store nothing -/

/-- The RAM is left to HW, and of the block's own fields only STATUS and the result ports differ. -/
structure StoresNothing (s t : State) : Prop where
  leaves : ∃ n, Leaves n s t
  keeps : KeepsBlock { s with status := t.status, res := t.res } t

theorem storesNothing_of_keeps {n : Nat} {s t : State} (l : Leaves n s t) (k : KeepsBlock s t) : StoresNothing s t :=
  ⟨⟨n, l⟩, k.params, k.inst, k.cfg, k.cfgWritten, k.map, k.lastReq, k.seq, k.ready, rfl, rfl, k.script, k.launch⟩

/-- A change of STATUS and the result ports is no access. -/
theorem storesNothing_ports (s : State) (o : Status) (r : Results) : StoresNothing s { s with status := o, res := r } :=
  ⟨⟨0, (Leaves.refl s).of_eq rfl rfl rfl rfl rfl⟩, KeepsBlock.refl _⟩

theorem storesNothing_regWrite (r : Reg) (v : Word) (s : State) : StoresNothing s (regWrite r v s) :=
  storesNothing_of_keeps (regWrite_leaves r v s) (regWrite_keeps r v s)

theorem storesNothing_readModifyWrite (r : Reg) (g : Word → Word) (s : State) :
    StoresNothing s (readModifyWrite r g s) :=
  storesNothing_of_keeps (readModifyWrite_leaves r g s) (readModifyWrite_keeps r g s)

/-- R75: the move that presents a status word. -/
def PresentsStatus (x : HwAct) : Prop := (∃ w, x = .txStat w) ∨ ∃ f w, x = .rxStat f w

/-- R75: a status read costs one access, and the move it draws leaves the RAM and the acknowledged mode alone. -/
theorem storesNothing_statusRead (r : Reg) {x : Regs → HwAct} (hx : ∀ g, PresentsStatus (x g)) (s : State) :
    StoresNothing s (statusRead r x s) := by
  have hmem : (statusRead r x s).mem = (hwMoves s).mem := by
    obtain ⟨w, hw⟩ | ⟨f, w, hw⟩ := hx (hwMoves s).regs <;> simp [statusRead, hw, hwMem]
  have hack : (statusRead r x s).regs.modeAck = (hwMoves s).regs.modeAck := by
    obtain ⟨w, hw⟩ | ⟨f, w, hw⟩ := hx (hwMoves s).regs <;> simp [statusRead, hw, hwRegs_modeAck, HwAct.ack]
  have l := hwMoves_leaves s
  refine storesNothing_of_keeps (n := 1)
    { l.toFollows.of_eq (by simp [statusRead]) hack with
      params := by simp [statusRead]
      inst := by simp [statusRead]
      wf := fun hwf => hmem ▸ l.wf hwf
      byte := fun b hp hwf hs => hmem ▸ l.byte b hp hwf hs } ?_
  constructor <;> simp [statusRead]

/-! ### What a data word can do -/

/-- R191: a word of a TX element is stored, or the slot is refused. -/
theorem txWord_cases {slot : BitVec 2} {a : State → Nat} {w : Word} {s t : State}
    (h : whenTxSlot slot s (fun s1 => memWrite (a s1) w s1) = .next t) :
    memWrite (a s) w s = .next t ∨ StoresNothing s t := by
  obtain rfl | h := whenTxSlot_cases h
  · exact .inr (storesNothing_ports s _ s.res)
  · exact .inl h

theorem execSfw_cases {idx : Nat} {ft : BitVec 2} {fc : BitVec 3} {a b : BitVec 11} {s t : State}
    (h : execSfw idx ft fc a b s = .next t) :
    memWrite (filterAddress s idx) (filtPack ft fc a b) s = .next t ∨ StoresNothing s t := by
  obtain rfl | ⟨u, hu, ht⟩ := storeFilter_cases (whenCfgKept_next h).2
  · exact .inr (storesNothing_ports s _ s.res)
  · injection ht with ht
    exact .inl (ht ▸ hu)

/-- R150: a timing word runs only where configuration-change is enabled. -/
theorem whenConfig_next {s t : State} {k : State → Out} (h : whenConfig s k = .next t) : k s = .next t := by
  unfold whenConfig at h
  split at h
  · exact h
  · exact absurd h (by simp)

/-- A data word that answers next has stored its one word at its own address, or stored nothing. -/
theorem dataWord_cases {i : Instr} {s t : State} (hi : (formatOf i).isSome = true) (h : exec i s = .next t) :
    (∃ a w, storesAt s i = some a ∧ memWrite a w s = .next t) ∨ StoresNothing s t := by
  cases i
  case txw0 slot id =>
    exact (txWord_cases (a := (txElement · slot)) (w := encTxW0 id) h).imp_left fun hw => ⟨_, _, rfl, hw⟩
  case txw1 slot dlc =>
    exact (txWord_cases (a := (txElement · slot + 4)) (w := encTxW1 dlc) h).imp_left fun hw => ⟨_, _, rfl, hw⟩
  case payw pl a b c d =>
    cases pl with
    | tx slot k =>
      exact (txWord_cases (a := (txElement · slot + 8 + 4 * k)) (w := wordOfBytes a b c d) h).imp_left
        fun hw => ⟨_, _, rfl, hw⟩
    | rx k len =>
      injection h with h
      exact .inr (h ▸ storesNothing_ports s s.status _)
  case sfw => exact (execSfw_cases h).imp_left fun hw => ⟨_, _, rfl, hw⟩
  case rxw0 | rxw1 =>
    injection h with h
    exact .inr (h ▸ storesNothing_ports s s.status _)
  case btw tm =>
    injection whenConfig_next (k := fun s1 => .next (btSet tm s1)) h with h
    exact .inr (h ▸ storesNothing_of_keeps (btSet_leaves tm s) (btSet_keeps tm s))
  case regNtim tm =>
    injection whenConfig_next (k := fun s1 => .next (regWrite .ntim tm.pack s1)) h with h
    exact .inr (h ▸ storesNothing_regWrite _ _ s)
  case regDtim tm =>
    injection whenConfig_next (k := fun s1 => .next (regWrite .dtim tm.pack s1)) h with h
    exact .inr (h ▸ storesNothing_regWrite _ _ s)
  case regMode | regTest | regTxcfg | regGfilt =>
    injection h with h
    exact .inr (h ▸ storesNothing_readModifyWrite _ _ s)
  case regTxadd | regRxack0 | regRxack1 =>
    injection h with h
    exact .inr (h ▸ storesNothing_regWrite _ _ s)
  case regTxstat =>
    injection h with h
    exact .inr (h ▸ storesNothing_statusRead _ (fun _ => .inl ⟨_, rfl⟩) s)
  case regRxstat0 | regRxstat1 =>
    injection h with h
    exact .inr (h ▸ storesNothing_statusRead _ (fun _ => .inr ⟨_, _, rfl⟩) s)
  all_goals exact absurd hi (by simp [formatOf])

/-- R61: a store that answers next leaves a spared byte outside its word alone. -/
theorem byte_of_memWrite {a b : Nat} {v : Word} {s t : State} (h : memWrite a v s = .next t) (hp : ParamsOk s.params)
    (hwf : s.mem.wf = true) (hspared : s.hwSpares b = true) (hout : ¬ (a ≤ b ∧ b < a + 4)) :
    t.mem.byte b = s.mem.byte b := by
  unfold memWrite at h
  split at h
  · injection h with h
    subst h
    exact byte_hwMoves_setWord_outside hp hwf v hspared hout
  · exact absurd h (by simp)

/-- Settles O46: the one store is at the word's own address. -/
theorem dataWordFrames : Obligations.DataWordFrames := by
  unfold Obligations.DataWordFrames
  intro i s t b hi hp hwf hspared h hout
  obtain ⟨a, w, ha, hw⟩ | hnone := dataWord_cases hi h
  · exact byte_of_memWrite hw (paramsOk hp) hwf hspared (hout a ha)
  · obtain ⟨n, l⟩ := hnone.leaves
    exact l.byte b (paramsOk hp) hwf hspared

/-! ### What any instruction can do -/

/-- R90: a row is a command or a data word. -/
theorem command_or_dataWord (i : Instr) : (cmdOf i).isSome = true ∨ (formatOf i).isSome = true := by
  cases i <;> simp [cmdOf, formatOf]

/-- R64, R84: outside the instance's part an instruction leaves every spared byte alone. -/
theorem exec_byte_outside_part {i : Instr} {s t : State} {b : Nat} (hp : ParamsOk s.params) (hwf : s.mem.wf = true)
    (hspared : s.hwSpares b = true) (hout : ¬ (ibase s.params s.inst ≤ b ∧ b < ibase s.params s.inst + total s.params))
    (h : exec i s = .next t) : t.mem.byte b = s.mem.byte b := by
  obtain hi | hi := command_or_dataWord i
  · exact (exec_commandEnd hi h).confined.byte b hp hwf hspared hout
  obtain ⟨a, w, -, hw⟩ | hnone := dataWord_cases hi h
  · exact (memWrite_spec hw).1.byte b hp hwf hspared hout
  · obtain ⟨n, l⟩ := hnone.leaves
    exact l.byte b hp hwf hspared

/-- R84: outside the instance's part only a move of another instance may write. -/
theorem hwSpares_of_outside_part {s : State} {b : Nat}
    (hout : ¬ (ibase s.params s.inst ≤ b ∧ b < ibase s.params s.inst + total s.params))
    (hother : ∀ x ∈ s.hw, ∀ y ∈ x, ∀ a w, y = .other a w → ¬ (a ≤ b ∧ b < a + 4)) : s.hwSpares b = true := by
  have hregion : ∀ k, k < 6 → ¬ (layoutAt s.params s.inst k ≤ b ∧
      b < layoutAt s.params s.inst k + regionSize s.params k) := fun k hk ⟨hlo, hhi⟩ =>
    hout ⟨(ibase_le_layoutAt _ _ _).trans hlo, hhi.trans_le (layoutAt_six _ _ ▸ region_end_le_layoutAt _ _ hk)⟩
  simp only [State.hwSpares, List.all_eq_true, Bool.not_eq_true']
  intro x hx y hy
  cases y <;> simp only [HwAct.mayWrite]
  case deliver f _ _ _ => simpa using hregion (rxRegion f) (by cases f <;> decide)
  case loopback _ f _ _ _ => simpa using hregion (rxRegion f) (by cases f <;> decide)
  case teFifo => simpa using hregion 4 (by decide)
  case other a w =>
    have := hother x hx _ hy a w rfl
    simp
    omega

/-- Settles O59. -/
theorem instanceIsolation : Obligations.InstanceIsolation := by
  unfold Obligations.InstanceIsolation
  intro i s t b hp _ hwf hout hother h
  exact exec_byte_outside_part (paramsOk hp) hwf (hwSpares_of_outside_part hout hother) hout h

/-- R27: of the block's own registers an instruction writes those of `withWritten` only. -/
theorem exec_keeps {i : Instr} {s t : State} (h : exec i s = .next t) : KeepsBlock (withWritten i s t) t := by
  obtain hi | hi := command_or_dataWord i
  · exact (exec_commandEnd hi h).keeps
  have k : KeepsBlock { s with status := t.status, res := t.res } t := by
    obtain ⟨a, w, -, hw⟩ | hnone := dataWord_cases hi h
    · have k := (memWrite_spec hw).2.1
      exact ⟨k.params, k.inst, k.cfg, k.cfgWritten, k.map, k.lastReq, k.seq, k.ready, rfl, rfl, k.script, k.launch⟩
    · exact hnone.keeps
  cases i
  case init | layout | filtset | txsend | rxfill | rxrecv => exact absurd hi (by simp [formatOf])
  all_goals exact k

theorem withWritten_fixed (i : Instr) (s t : State) :
    (withWritten i s t).params = s.params ∧ (withWritten i s t).inst = s.inst ∧ (withWritten i s t).cfg = s.cfg
    ∧ (withWritten i s t).cfgWritten = s.cfgWritten ∧ (withWritten i s t).script = s.script := by
  cases i <;> exact ⟨rfl, rfl, rfl, rfl, rfl⟩

theorem withWritten_map {i : Instr} (hlayout : i ≠ .layout) (hinit : i ≠ .init) (s t : State) :
    (withWritten i s t).map = s.map ∧ (withWritten i s t).launch = s.launch := by
  cases i
  case init => exact absurd rfl hinit
  case layout => exact absurd rfl hlayout
  all_goals exact ⟨rfl, rfl⟩

theorem withWritten_lastReq {i : Instr} (hsend : ∀ id dlc buf, i ≠ .txsend id dlc buf) (hinit : i ≠ .init)
    (s t : State) : (withWritten i s t).lastReq = s.lastReq := by
  cases i
  case init => exact absurd rfl hinit
  case txsend id dlc buf => exact absurd rfl (hsend id dlc buf)
  all_goals rfl

theorem withWritten_seq {i : Instr} (hinit : i ≠ .init) (s t : State) :
    (withWritten i s t).seq = s.seq ∧ (withWritten i s t).ready = s.ready := by
  cases i
  case init => exact absurd rfl hinit
  all_goals exact ⟨rfl, rfl⟩

/-- R24: HOST's act sets the one field it names, which then counts as written. -/
theorem step_setCfg {s : State} {w : CfgWrite} {rest : List HostAct} (hwf : paramsWf s.params = true)
    (hs : s.script = .setCfg w :: rest) : step s = .next (writeCfg w { s with script := rest }) :=
  step_cons hwf hs

/-- Settles O56: the first part is read off `withWritten`, the second off HOST's act. -/
theorem blockRegisterWriters : Obligations.BlockRegisterWriters := by
  unfold Obligations.BlockRegisterWriters
  refine ⟨fun i s t h => ?_, fun s w rest hwf hs => ?_⟩
  · have k := exec_keeps h
    obtain ⟨hparams, hinst, hcfg, hwritten, hscript⟩ := withWritten_fixed i s t
    refine ⟨k.params.trans hparams, k.inst.trans hinst, k.cfg.trans hcfg, k.cfgWritten.trans hwritten,
      k.script.trans hscript, fun hlayout hinit => ?_, fun hsend hinit => ?_, fun hinit => ?_⟩
    · obtain ⟨hmap, hlaunch⟩ := withWritten_map hlayout hinit s t
      exact ⟨k.map.trans hmap, k.launch.trans hlaunch⟩
    · exact k.lastReq.trans (withWritten_lastReq hsend hinit s t)
    · obtain ⟨hseq, hready⟩ := withWritten_seq hinit s t
      exact ⟨k.seq.trans hseq, k.ready.trans hready⟩
  · rw [step_setCfg hwf hs]
    cases w <;> exact ⟨_, _, rfl, by simp⟩

end Sys2Proof
end

section
/-! PROOFS. LAYOUT (40_layout.md) and the ways INIT ends once its checks have passed: done, timed out at its entry, timed
out at its exit, or never (R160 to R171, R277). -/

namespace Sys2Proof

open Sys2Proof.Machine

/-! ### LAYOUT -/

/-- R134: each entry of the map is the start of its region, where the last start fits 32 bits. -/
theorem layoutMap_toNat {p : Params} {i : Nat} (h : layoutAt p i 5 < 2 ^ 32) :
    (layoutMap p i).sf.toNat = layoutAt p i 0 ∧ (layoutMap p i).xf.toNat = layoutAt p i 1
    ∧ (layoutMap p i).rf0.toNat = layoutAt p i 2 ∧ (layoutMap p i).rf1.toNat = layoutAt p i 3
    ∧ (layoutMap p i).tef.toNat = layoutAt p i 4 ∧ (layoutMap p i).txq.toNat = layoutAt p i 5 := by
  have hfits : ∀ k, k ≤ 5 → (BitVec.ofNat 32 (layoutAt p i k)).toNat = layoutAt p i k := fun k hk => by
    rw [BitVec.toNat_ofNat, Nat.mod_eq_of_lt ((layoutAt_mono p i hk).trans_lt h)]
  exact ⟨hfits 0 (by decide), hfits 1 (by decide), hfits 2 (by decide), hfits 3 (by decide), hfits 4 (by decide),
    hfits 5 (by decide)⟩

/-- Settles O15: the layout steps, then the outcome and the record of R266. -/
theorem layoutResult : Obligations.LayoutResult := by
  unfold Obligations.LayoutResult
  intro s hp hi
  obtain ⟨u, hu, heq, -, hbyte⟩ := layoutSteps_spec s (paramsOk hp) hi
  refine ⟨raise .ok { u with launch := { u.launch with loneLayout := true } }, ?_, ?_, hbyte⟩
  · change andThen (layoutSteps s) _ = _
    rw [hu]
    rfl
  · rw [heq]
    rfl

/-- Settles O14: the map LAYOUT stores, entry by entry. -/
theorem mapHoldsLayoutAddresses : Obligations.MapHoldsLayoutAddresses := by
  unfold Obligations.MapHoldsLayoutAddresses
  intro s t hp hi h hfits
  obtain ⟨u, hu, heq, -⟩ := layoutResult s hp hi
  injection h.symm.trans hu with ht
  have hmap : t.map = layoutMap s.params s.inst := by rw [ht, heq]
  rw [hmap]
  exact layoutMap_toNat hfits

/-! ### INIT past its checks -/

/-- Where only the surface, the RAM, the schedule and the record differ, the rest is as it was. -/
theorem Machine.KeepsBlock.eq {e t : State} {l : List (List HwAct)} (k : KeepsBlock e t) (hhw : t.hw = l) :
    t = { e with regs := t.regs, mem := t.mem, hw := l, bus := t.bus } := by
  ext1
  case params => exact k.params
  case inst => exact k.inst
  case cfg => exact k.cfg
  case cfgWritten => exact k.cfgWritten
  case map => exact k.map
  case lastReq => exact k.lastReq
  case seq => exact k.seq
  case ready => exact k.ready
  case status => exact k.status
  case res => exact k.res
  case script => exact k.script
  case launch => exact k.launch
  case hw => exact hhw
  all_goals rfl

theorem Machine.KeepsBlock.raise {e t : State} (k : KeepsBlock e t) (o : Status) :
    KeepsBlock { e with status := o } (raise o t) :=
  ⟨k.params, k.inst, k.cfg, k.cfgWritten, k.map, k.lastReq, k.seq, k.ready, rfl, k.res, k.script, k.launch⟩

theorem Machine.KeepsBlock.finishInit {e t : State} (k : KeepsBlock e t) :
    KeepsBlock { e with seq := .normal, ready := true, status := .ok } (finishInit t) :=
  ⟨k.params, k.inst, k.cfg, k.cfgWritten, k.map, k.lastReq, rfl, rfl, rfl, k.res, k.script, k.launch⟩

/-- R159: INIT past its checks is the request and the wait for its acknowledgment. -/
theorem execInit_of_configOk {s : State} (hi : s.inst < s.params.nInst) (hc : ConfigOk s) :
    ∃ tm, execInit s = awaitMode true .entry (requestInit s) fun s1 =>
      andThen (configure tm { s1 with seq := .initializing }) fun s2 =>
        awaitMode false .exit (releaseInit s2) fun s3 => .next (finishInit s3) := by
  obtain ⟨tm, htm, -⟩ := checkedTiming_ok hc
  exact ⟨tm, by simp only [execInit, if_pos hi, htm]⟩

/-- What INIT has done when its exit poll has begun, `n` accesses after its start (R161 to R167). -/
structure Configured (s : State) (n : Nat) (e : State) : Prop where
  keeps : KeepsBlock { s with
    ready := false, seq := .configEnabled, map := layoutMap s.params s.inst, lastReq := 0
    launch := { initCfg := s.cfg, loneLayout := false } } e
  hw : e.hw = s.hw.drop n
  ntim : e.regs.ntim = btPack s.cfg
  dtim : e.regs.dtim = btPack s.cfg
  mode : e.regs.mode.getLsbD 0 = false
  test : e.regs.test.getLsbD 4 = (s.cfg.loopback || s.regs.test.getLsbD 4)
  txcfg : e.regs.txcfg.getLsbD 24 = (s.cfg.txQueueMode || s.regs.txcfg.getLsbD 24)
  gfilt : ∀ i, i < s.params.gfW → e.regs.gfilt.getLsbD (s.params.gfLsb + i) = s.cfg.nStd.testBit i
  rxack0 : e.regs.rxack0 = s.regs.rxack0
  rxack1 : e.regs.rxack1 = s.regs.rxack1
  byte : ∀ b, s.mem.wf = true → s.hwSpares b = true → e.mem.byte b =
    if ibase s.params s.inst ≤ b ∧ b < ibase s.params s.inst + total s.params then 0 else s.mem.byte b

/-- INIT whose entry poll sees the acknowledgment comes to its exit poll, configured, and stays so while it polls. -/
theorem execInit_configured {s : State} {k : Nat} (hp : paramsWf s.params = true) (hi : s.inst < s.params.nInst)
    (hc : ConfigOk s) (hk : pollSees s true 2 k) :
    ∃ e, execInit s = awaitMode false .exit e (fun s3 => .next (finishInit s3)) ∧ e.params = s.params
      ∧ Follows (initAccesses s k) s e ∧ ∀ n, Configured s (initAccesses s k + n) (afterPoll n e) := by
  obtain ⟨tm, w, u, hpack, hrun, hw, hregs, hwp, -, hfollows, hkeeps, hwf, hbyte⟩ := init_toExit s k hp hi hc hk
  have hup : u.params = s.params := hkeeps.params
  have hke := hkeeps.trans (releaseInit_keeps u)
  refine ⟨releaseInit u, hrun, hke.params, hfollows, fun n => ?_⟩
  obtain ⟨hntim, hdtim, hmode, htest, htxcfg, hgfilt, hack0, hack1⟩ :=
    init_exitRegs s k tm w u hp hc hw hregs hwp hup n
  have hpoll := afterPoll_leaves n (releaseInit u)
  refine ⟨hke.trans (afterPoll_keeps n _), (hfollows.trans hpoll.toFollows).hw, hpack ▸ hntim, hpack ▸ hdtim, hmode,
    htest, htxcfg, hgfilt, hack0, hack1, fun b hm hs => ?_⟩
  rw [hpoll.byte b (hke.params ▸ paramsOk hp) (hwf hm) (hwSpares_of_drop hfollows.hw hke.params hke.inst hs)]
  exact hbyte b hm hs

/-- Settles O18: the exit poll sees the release, and INIT ends with what it has configured. -/
theorem initCompletes : Obligations.InitCompletes := by
  unfold Obligations.InitCompletes
  intro s k m hp hi hc hentry hexit
  obtain ⟨e, hrun, hep, hfollows, hconf⟩ := execInit_configured hp hi hc hentry
  have h := hconf (m + 1)
  refine ⟨finishInit (afterPoll (m + 1) e), hrun.trans (awaitMode_of_pollSees hfollows hep hexit _ _), ?_, h.ntim, h.dtim,
    h.mode, h.test, h.txcfg, h.gfilt, h.rxack0, h.rxack1, h.byte⟩
  exact h.keeps.finishInit.eq h.hw

/-- R168: a numeric bound is at least 1. -/
theorem one_le_tPoll {p : Params} {n : Nat} (hp : ParamsOk p) (h : p.tPoll = some n) : 1 ≤ n := by
  rcases Nat.eq_zero_or_pos n with rfl | hn
  · exact absurd h hp.tPoll
  · exact hn

/-- Settles O21: the bound of the exit poll runs out, and INIT ends there with what it has configured. -/
theorem initExitTimeout : Obligations.InitExitTimeout := by
  unfold Obligations.InitExitTimeout
  intro s n k hp hi hc hbound hentry hexit
  obtain ⟨e, hrun, hep, hfollows, hconf⟩ := execInit_configured hp hi hc hentry
  have h := hconf n
  refine ⟨raise (.hwFault .exit) (afterPoll n e), hrun.trans ?_, ?_, h.ntim, h.dtim, h.mode, h.test, h.txcfg, h.gfilt,
    h.byte⟩
  · refine awaitMode_timeout false .exit n e _ (hep ▸ hbound) (one_le_tPoll (paramsOk hp) hbound) fun j hj => ?_
    rw [hfollows.ackAt, ← Nat.add_assoc, hexit j hj]
    exact Bool.true_eq_false_eq_False
  · exact (h.keeps.raise _).eq h.hw

/-- Settles O22: without a bound a poll that never sees its answer has no next state, at the entry as at the exit. -/
theorem unboundedPollNeverEnds : Obligations.UnboundedPollNeverEnds := by
  unfold Obligations.UnboundedPollNeverEnds
  refine ⟨fun s hi hc hbound hno => ?_, fun s k hp hi hc hbound hentry hno => ?_⟩
  · obtain ⟨tm, hrun⟩ := execInit_of_configOk hi hc
    have l := (requestInit_spec s).1
    refine hrun.trans (awaitMode_never true .entry _ _ (l.params ▸ hbound) fun j => ?_)
    rw [l.toFollows.ackAt, ← Nat.add_assoc, hno j]
    exact Bool.false_ne_true
  · obtain ⟨e, hrun, hep, hfollows, -⟩ := execInit_configured hp hi hc hentry
    refine hrun.trans (awaitMode_never false .exit _ _ (hep ▸ hbound) fun j => ?_)
    rw [hfollows.ackAt, ← Nat.add_assoc, hno j]
    exact Bool.false_ne_true.symm

/-! ### INIT timed out at its entry -/

/-- R47, R71, R74: a read-modify-write is two accesses, each after HW's moves. -/
theorem readModifyWrite_eq (r : Reg) (g : Word → Word) (s : State) :
    readModifyWrite r g s = { s with
      regs := (afterMoves 2 s).regs.write r (g ((hwMoves s).regs.read r)), mem := (afterMoves 2 s).mem
      hw := s.hw.drop 2
      bus := writeOf s r (g ((hwMoves s).regs.read r)) :: readOf s r ((hwMoves s).regs.read r) :: s.bus } := by
  have hread : (regRead r s).2 = logAccess (readOf s r ((hwMoves s).regs.read r)) (hwMoves s) := rfl
  have hmoves : hwMoves (hwMoves s) = afterMoves 2 s := rfl
  rw [readModifyWrite, regRead_fst, hread, regWrite, hwMoves_logAccess, hmoves]
  ext1 <;> simp [writeOf]

/-- R159: the request is a read-modify-write of MODE, which the block's own registers do not enter into. -/
theorem requestInit_surface (s : State) :
    (requestInit s).regs = { (afterMoves 2 s).regs with mode := (hwMoves s).regs.read .mode ||| 0x1 }
    ∧ (requestInit s).mem = (afterMoves 2 s).mem := by
  obtain ⟨q, hq⟩ : ∃ q : State, q = { s with ready := false, launch := { initCfg := s.cfg, loneLayout := false } } :=
    ⟨_, rfl⟩
  have hreq : requestInit s = { readModifyWrite .mode (· ||| 0x1#32) q with seq := .requestInit } := by rw [hq]; rfl
  have hmoves := hwMoves_regs_congr q s (by rw [hq]) (by rw [hq]) (by rw [hq])
  have hregs := afterMoves_regs_congr 2 q s (by rw [hq]) (by rw [hq]) (by rw [hq])
  have hmem := afterMoves_mem_congr 2 q s (by rw [hq]) (by rw [hq]) (by rw [hq]) (by rw [hq]) (by rw [hq])
  rw [hreq, readModifyWrite_eq, hmoves, hregs, hmem]
  exact ⟨rfl, rfl⟩

/-- A schedule without moves stays one. -/
theorem hwQuiet_of_drop {s t : State} {n : Nat} (hhw : t.hw = s.hw.drop n) (h : s.hwQuiet = true) :
    t.hwQuiet = true := by
  simp only [State.hwQuiet, hhw, List.all_eq_true] at *
  exact fun b hb => h b (List.mem_of_mem_drop hb)

/-- R159: with HW quiet the request changes MODE alone. -/
theorem requestInit_quiet {s : State} (h : s.hwQuiet = true) :
    (requestInit s).regs = { s.regs with mode := s.regs.read .mode ||| 0x1 } ∧ (requestInit s).mem = s.mem := by
  obtain ⟨hregs, hmem⟩ := requestInit_surface s
  obtain ⟨hquiet1, -⟩ := afterMoves_quiet 1 s h
  obtain ⟨hquiet2, hquietMem⟩ := afterMoves_quiet 2 s h
  rw [hregs, hmem, hquiet2, hquietMem, show (hwMoves s).regs = s.regs from hquiet1]
  exact ⟨rfl, rfl⟩

/-- Settles O20: the bound of the entry poll runs out, when the block has made no more than the request. -/
theorem initEntryTimeout : Obligations.InitEntryTimeout := by
  unfold Obligations.InitEntryTimeout
  intro s n hp hi hc hbound hno
  obtain ⟨tm, hrun⟩ := execInit_of_configOk hi hc
  obtain ⟨lreq, kreq⟩ := requestInit_spec s
  have l := lreq.trans (afterPoll_leaves n (requestInit s))
  have k := kreq.trans (afterPoll_keeps n (requestInit s))
  have hregs : (afterPoll n (requestInit s)).regs = (afterMoves n (requestInit s)).regs := rfl
  have hreq := (requestInit_surface s).1
  refine ⟨raise (.hwFault .entry) (afterPoll n (requestInit s)), hrun.trans ?_, ?_, ?_, ?_, ?_, ?_, ?_,
    fun b hm hs => l.byte b (paramsOk hp) hm hs, fun hquiet => ?_⟩
  · refine awaitMode_timeout true .entry n _ _ (lreq.params ▸ hbound) (one_le_tPoll (paramsOk hp) hbound) fun j hj => ?_
    rw [lreq.toFollows.ackAt, ← Nat.add_assoc, hno j hj]
    exact Bool.false_ne_true
  · exact (k.raise _).eq l.hw
  · rw [raise_regs, hregs, afterMoves_mode_init, hreq]
    simp
  · rw [raise_regs, hregs, afterMoves_ntim, hreq]
    simp
  · rw [raise_regs, hregs, afterMoves_dtim, hreq]
    simp
  · rw [raise_regs, hregs, afterMoves_test_lbck, hreq]
    exact afterMoves_test_lbck 2 s
  · rw [raise_regs, hregs, afterMoves_txcfg_tfqm, hreq]
    exact afterMoves_txcfg_tfqm 2 s
  · obtain ⟨hreq, hmem⟩ := requestInit_quiet hquiet
    obtain ⟨hpoll, hpollMem⟩ := afterMoves_quiet n _ (hwQuiet_of_drop lreq.hw hquiet)
    exact ⟨hpoll.trans hreq, hpollMem.trans hmem⟩

end Sys2Proof
end

section
/-! PROOFS. The data words one by one: the words of the RAM elements (R97 to R103), the timing words (R104), the register
rows (R36). -/

namespace Sys2Proof

open Sys2Proof.Machine

/-! ### One access, as a state -/

/-- R61: a store to an accessible word. -/
theorem memWrite_eq {a : Nat} {s : State} (h : accessible s.params s.inst a = true) (v : Word) :
    memWrite a v s = .next { s with
      regs := (hwMoves s).regs, hw := s.hw.tail, mem := (hwMoves s).mem.setWord a v, bus := .memWrite a v :: s.bus } := by
  rw [memWrite_next h]
  congr 1
  ext1 <;> simp

/-- R14, R74: a register write. -/
theorem regWrite_eq (r : Reg) (v : Word) (s : State) :
    regWrite r v s = { s with
      regs := (hwMoves s).regs.write r v, mem := (hwMoves s).mem, hw := s.hw.tail, bus := writeOf s r v :: s.bus } := by
  ext1 <;> simp [writeOf]

/-- R75: a status read, with the move `y` that the row draws. -/
theorem statusRead_eq (r : Reg) (x : Regs → HwAct) (s : State) {y : HwAct} (hx : x (hwMoves s).regs = y) :
    statusRead r x s = { s with
      regs := hwRegs s.params y (hwMoves s).regs
      mem := hwMem s.params s.inst y (hwMoves s).regs (hwMoves s).mem, hw := s.hw.tail
      bus := readOf s r ((hwRegs s.params y (hwMoves s).regs).read r) :: s.bus } := by
  ext1 <;> simp [statusRead, readOf, hx]

/-! ### The words of the RAM elements -/

/-- R192: MAP gives the address of a TX element. -/
theorem txElement_eq {s : State} (hM : Mapped s) {slot : BitVec 2} (h : slot.toNat < s.params.nTxq) :
    txElement s slot = txSlotElement s slot :=
  congrArg (· + slot.toNat * s.params.esTxq) (txSlot_facts s hM slot h).1

/-- R191: the slot check passes. -/
theorem whenTxSlot_of_lt {slot : BitVec 2} {s : State} (h : slot.toNat < s.params.nTxq) (k : State → Out) :
    whenTxSlot slot s k = k s :=
  if_neg (Nat.not_le.mpr h)

/-- R191: the slot check fails. -/
theorem whenTxSlot_of_le {slot : BitVec 2} {s : State} (h : s.params.nTxq ≤ slot.toNat) (k : State → Out) :
    whenTxSlot slot s k = .next (raise .slotOutOfRange s) :=
  if_pos h

/-- R97, R192: TXW0 is a store at the element. -/
theorem execTxw0_eq {s : State} (hM : Mapped s) {slot : BitVec 2} (h : slot.toNat < s.params.nTxq) (id : BitVec 11) :
    exec (.txw0 slot id) s = memWrite (txSlotElement s slot) (encTxW0 id) s := by
  change whenTxSlot slot s _ = _
  rw [whenTxSlot_of_lt h, txElement_eq hM h]

/-- R98, R192: TXW1 is a store one word further. -/
theorem execTxw1_eq {s : State} (hM : Mapped s) {slot : BitVec 2} (h : slot.toNat < s.params.nTxq) (dlc : BitVec 4) :
    exec (.txw1 slot dlc) s = memWrite (txSlotElement s slot + 4) (encTxW1 dlc) s := by
  change whenTxSlot slot s _ = _
  rw [whenTxSlot_of_lt h, txElement_eq hM h]

/-- R99, R194: PAYW is a store in the payload. -/
theorem execPayw_tx_eq {s : State} (hM : Mapped s) {slot : BitVec 2} (h : slot.toNat < s.params.nTxq) (k : Nat)
    (a b c d : Byte) :
    exec (.payw (.tx slot k) a b c d) s = memWrite (txSlotElement s slot + 8 + 4 * k) (wordOfBytes a b c d) s := by
  change whenTxSlot slot s _ = _
  rw [whenTxSlot_of_lt h, txElement_eq hM h]

/-- Settles O36: each word is one store, inside its element. -/
theorem txWordsStored : Obligations.TxWordsStored := by
  unfold Obligations.TxWordsStored
  intro s slot hM h
  have hacc := (txSlot_facts s hM slot h).2.1
  refine ⟨fun id => ?_, fun dlc => ?_, fun k a b c d hk => ?_⟩
  · rw [execTxw0_eq hM h, memWrite_eq (a := txSlotElement s slot) (hacc 0 (by decide))]
  · rw [execTxw1_eq hM h, memWrite_eq (a := txSlotElement s slot + 4) (hacc 1 (by decide))]
  · have hplace : txSlotElement s slot + 4 * (k + 2) = txSlotElement s slot + 8 + 4 * k := by omega
    rw [execPayw_tx_eq hM h, memWrite_eq (hplace ▸ hacc (k + 2) (by omega))]

/-- Settles O38: the slot is checked before anything else. -/
theorem txWordsSlotChecked : Obligations.TxWordsSlotChecked :=
  fun _ _ h => ⟨fun _ => whenTxSlot_of_le h _, fun _ => whenTxSlot_of_le h _, fun _ _ _ _ _ => whenTxSlot_of_le h _⟩

/-- Settles O37: the four bytes of the word, and no other, are replaced. -/
theorem wordStoreLittleEndian : Obligations.WordStoreLittleEndian := by
  unfold Obligations.WordStoreLittleEndian
  intro m a w hm
  refine ⟨Memory.setWord_wf m a w hm, Memory.word_setWord_same m a w hm, fun j hj => ?_, fun b hb => ?_⟩
  · rw [Memory.byte_setWord m a (a + j) w hm, if_pos (by omega), Nat.add_sub_cancel_left, unpackByte]
  · rw [Memory.byte_setWord m a b w hm, if_neg hb]

/-- R177: an index at or beyond the budget. -/
theorem storeFilter_of_le {s : State} {idx : Nat} (h : s.cfg.nStd ≤ idx) (w : Word) (k : State → Out) :
    storeFilter idx w s k = .next (raise .indexOutOfRange s) :=
  if_pos h

/-- R177: an admitted index. -/
theorem storeFilter_of_lt {s : State} {idx : Nat} (h : idx < s.cfg.nStd) (w : Word) (k : State → Out) :
    storeFilter idx w s k = andThen (memWrite (filterAddress s idx) w s) k :=
  if_neg (Nat.not_le.mpr h)

/-- Settles O40: the two checks of the filter word, and its store when both pass. -/
theorem filterWordStored : Obligations.FilterWordStored := by
  unfold Obligations.FilterWordStored
  intro s idx ft fc a b
  change (_ → _ → execSfw idx ft fc a b s = _) ∧ (_ → _ → execSfw idx ft fc a b s = _)
    ∧ (_ → _ → execSfw idx ft fc a b s = _)
  rw [execSfw]
  refine ⟨fun hkept hidx => ?_, fun hready hcfg => whenCfgKept_changed hready hcfg _, fun hL hidx => ?_⟩
  · have hc : cfgChanged s = false := by simpa [cfgChanged] using hkept
    rw [whenCfgKept, hc]
    exact storeFilter_of_le hidx _ _
  · rw [whenCfgKept_kept hL.cfgKept.1, storeFilter_next s idx _ _ hL.mapped hL.cfgKept hidx]

/-- R62: the bytes of a word made of four. -/
theorem bytesOfWord_wordOfBytes (a b c d : Byte) : bytesOfWord (wordOfBytes a b c d) = [a, b, c, d] := by
  obtain ⟨ha, hb, hc, hd⟩ := unpackByte_wordOfBytes a b c d
  rw [bytesOfWord, ha, hb, hc, hd]

/-- R102: payload word `k` fills its four bytes of the buffer, cut at the length. -/
theorem fillBufFrom_word_getElem (old : Vector Byte 64) {k len : Nat} (hlen : len ≤ 64) (hk : 4 * k < len)
    (a b c d : Byte) (j : Nat) (hj : j < 64) :
    (fillBufFrom old (4 * k) ((bytesOfWord (wordOfBytes a b c d)).take (len - 4 * k)))[j] =
      if 4 * k ≤ j ∧ j < 4 * k + 4 ∧ j < len then [a, b, c, d].getD (j - 4 * k) 0 else old[j] := by
  have hcount : ([a, b, c, d].take (len - 4 * k)).length = min (len - 4 * k) 4 := List.length_take
  rw [bytesOfWord_wordOfBytes, fillBufFrom_get _ _ _ (by omega) j hj, hcount]
  by_cases h : 4 * k ≤ j ∧ j < 4 * k + 4 ∧ j < len
  · rw [if_pos h, if_pos (by omega), List.getD_eq_getElem?_getD, List.getElem?_take, if_pos (by omega),
      List.getD_eq_getElem?_getD]
  · rw [if_neg h, if_neg (by omega)]

/-- Settles O39: each word is decoded to the ports its row names. -/
theorem rxWordsDecoded : Obligations.RxWordsDecoded := by
  unfold Obligations.RxWordsDecoded
  refine fun s => ⟨fun esi id => ?_, fun fidx dlc ts => ?_, fun k len a b c d hlen hk => ⟨_, rfl, rfl, fun j hj => ?_⟩⟩
  · obtain ⟨hid, hesi⟩ := rxW0_encRxW0 esi id
    change execRxw0 esi id s = _
    rw [execRxw0, takeRxW0, hid, hesi]
  · obtain ⟨hfidx, hdlc, hts⟩ := rxW1_encRxW1 fidx dlc ts
    change execRxw1 fidx dlc ts s = _
    rw [execRxw1, takeRxW1, hfidx, hdlc, hts]
  · exact fillBufFrom_word_getElem _ hlen (by omega) a b c d j hj

/-! ### The timing words -/

section

variable {s : State} (h : s.seq = .configEnabled) (tm : Timing)

include h

/-- R150: with configuration-change enabled the timing words run. -/
theorem execBtw_enabled : exec (.btw tm) s = .next (btSet tm s) := if_pos h
theorem execRegNtim_enabled : exec (.regNtim tm) s = .next (regWrite .ntim tm.pack s) := if_pos h
theorem execRegDtim_enabled : exec (.regDtim tm) s = .next (regWrite .dtim tm.pack s) := if_pos h

end

/-- R147 to R149: NTIM, then DTIM, between which HW does not change NTIM. -/
theorem btSet_eq (tm : Timing) (s : State) :
    btSet tm s = { s with
      regs := { (afterMoves 2 s).regs with ntim := tm.pack, dtim := tm.pack }, mem := (afterMoves 2 s).mem
      hw := s.hw.drop 2, bus := writeOf s .dtim tm.pack :: writeOf s .ntim tm.pack :: s.bus } := by
  have hfirst : regWrite .ntim tm.pack s = logAccess (writeOf s .ntim tm.pack)
      { hwMoves s with regs := { (hwMoves s).regs with ntim := tm.pack } } := rfl
  have hsecond : hwMoves (regWrite .ntim tm.pack s) = logAccess (writeOf s .ntim tm.pack)
      { afterMoves 2 s with regs := { (afterMoves 2 s).regs with ntim := tm.pack } } := by
    rw [hfirst, hwMoves_logAccess]
    exact congrArg _ (hwMoves_setNtim (hwMoves s) tm.pack)
  rw [btSet, regWrite, hsecond]
  ext1 <;> simp [writeOf, Regs.write]

/-- Settles O41: the three words run, each as its register writes. -/
theorem timingWordsWritten : Obligations.TimingWordsWritten := by
  unfold Obligations.TimingWordsWritten
  intro s tm h
  rw [execBtw_enabled h, execRegNtim_enabled h, execRegDtim_enabled h, btSet_eq, regWrite_eq, regWrite_eq]
  exact ⟨rfl, rfl, rfl⟩

/-- Settles O42: the three words share one gate. -/
theorem timingWriteOutsideConfigRefused : Obligations.TimingWriteOutsideConfigRefused :=
  fun _ _ h => ⟨if_neg h, if_neg h, if_neg h⟩

/-- Settles O49: BTW and the two register words are the same two writes; FILTSET and SFW share the store. -/
theorem timingAndFilterAreTheirWords : Obligations.TimingAndFilterAreTheirWords := by
  unfold Obligations.TimingAndFilterAreTheirWords
  refine ⟨fun s tm h => ⟨execBtw_enabled h tm, ?_⟩, fun s u idx ft fc a b hready hidx hsfw => ?_⟩
  · have hseq : (regWrite .ntim tm.pack s).seq = .configEnabled := (regWrite_seq _ _ s).trans h
    simp only [execAll, execRegNtim_enabled h, execRegDtim_enabled hseq, andThen, btSet]
  · obtain ⟨hkept, hstore⟩ := whenCfgKept_next (k := fun s0 =>
      storeFilter idx (filtPack ft fc a b) s0 fun s1 => .next s1) hsfw
    change execFiltset idx ft fc a b s = _
    rw [execFiltset, whenReady_kept hready (hkept hready), storeFilter_of_lt hidx]
    rw [storeFilter_of_lt hidx] at hstore
    obtain ⟨v, hv, hu⟩ := andThen_next hstore
    injection hu with hu
    rw [hv, hu]
    rfl

/-! ### The register rows -/

/-- R47: a bit of a word with one bit put. -/
theorem getLsbD_putField_bit (v : Word) {lo : Nat} (hlo : lo < 32) (b : Bool) (i : Nat) :
    (putField v lo 1 (bitWord b)).getLsbD i = if i = lo then b else v.getLsbD i := by
  rw [getLsbD_putField v _ lo 1 i (by omega) (bitWord_lt b), bitWord_bit]
  by_cases h : i = lo
  · simp [h]
  · rw [if_neg h, if_neg (by omega)]

/-- Settles O43: each row is a read-modify-write, whose word is that read with the row's bits put. -/
theorem fieldRegistersWritten : Obligations.FieldRegistersWritten := by
  unfold Obligations.FieldRegistersWritten
  intro s v
  refine ⟨fun cce ini hv => ⟨_, congrArg _ (readModifyWrite_eq .mode _ s) |>.trans (by rw [hv]; rfl), fun i => ?_⟩,
    fun l hv => ⟨_, congrArg _ (readModifyWrite_eq .test _ s) |>.trans (by rw [hv]; rfl), fun i => ?_⟩,
    fun q hv => ⟨_, congrArg _ (readModifyWrite_eq .txcfg _ s) |>.trans (by rw [hv]; rfl), fun i => ?_⟩,
    fun n hv hfit hn => ⟨_, congrArg _ (readModifyWrite_eq .gfilt _ s) |>.trans (by rw [hv]; rfl), fun i => ?_⟩⟩
  · rw [← hv, getLsbD_putField_bit _ (by decide), getLsbD_putField_bit _ (by decide)]
  · rw [show (hwMoves s).regs.read .test = v from hv.symm, getLsbD_putField_bit _ (by decide)]
  · rw [show (hwMoves s).regs.read .txcfg = v from hv.symm, getLsbD_putField_bit _ (by decide)]
  · rw [show (hwMoves s).regs.read .gfilt = v from hv.symm, getLsbD_putField _ _ _ _ i hfit hn]

/-- R42: the fields of TXSTAT put are there, and every other bit is as it was. -/
theorem withTxFields_fields (v : Word) (full : Bool) (put : BitVec 2) :
    (withTxFields v full put).getLsbD 21 = full ∧ field (withTxFields v full put) 16 2 = put
    ∧ ∀ i, i ≠ 21 → ¬ (16 ≤ i ∧ i < 18) → (withTxFields v full put).getLsbD i = v.getLsbD i := by
  refine ⟨?_, ?_, fun i hfull hput => ?_⟩
  · rw [getLsbD_withTxFields, if_neg (by decide), if_pos rfl]
  · apply BitVec.eq_of_getLsbD_eq
    intro i hi
    rw [getLsbD_field, getLsbD_withTxFields, if_pos (by omega), Nat.add_sub_cancel_left]
    simp [hi]
  · rw [getLsbD_withTxFields, if_neg hput, if_neg hfull]

/-- R44: the fields of RXSTATf put are there, and every other bit is as it was. -/
theorem withRxFields_fields (v : Word) (get : BitVec 2) (fill : BitVec 4) :
    field (withRxFields v get fill) 8 2 = get ∧ field (withRxFields v get fill) 0 4 = fill
    ∧ ∀ i, ¬ (8 ≤ i ∧ i < 10) → ¬ i < 4 → (withRxFields v get fill).getLsbD i = v.getLsbD i := by
  refine ⟨?_, ?_, fun i hget hfill => ?_⟩
  · apply BitVec.eq_of_getLsbD_eq
    intro i hi
    rw [getLsbD_field, getLsbD_withRxFields, if_neg (by omega), if_pos (by omega), Nat.add_sub_cancel_left]
    simp [hi]
  · apply BitVec.eq_of_getLsbD_eq
    intro i hi
    rw [getLsbD_field, getLsbD_withRxFields, if_pos (by omega), Nat.zero_add]
    simp [hi]
  · rw [getLsbD_withRxFields, if_neg hfill, if_neg hget]

/-- Settles O44: each row is one register write. -/
theorem handOverRegistersWritten : Obligations.HandOverRegistersWritten :=
  fun s w => ⟨congrArg _ (regWrite_eq .txadd w s), congrArg _ (regWrite_eq .rxack0 w s),
    congrArg _ (regWrite_eq .rxack1 w s)⟩

/-- Settles O45: each row is one read, of the word HW has with the row's fields put. -/
theorem statusRegistersRead : Obligations.StatusRegistersRead := by
  unfold Obligations.StatusRegistersRead
  refine fun s => ⟨fun full put => ?_, fun get fill => ?_, fun get fill => ?_⟩
  · exact ⟨_, _, congrArg _ (statusRead_eq .txstat _ s rfl), withTxFields_fields _ full put⟩
  · exact ⟨_, _, congrArg _ (statusRead_eq .rxstat0 _ s rfl), withRxFields_fields _ get fill⟩
  · exact ⟨_, _, congrArg _ (statusRead_eq .rxstat1 _ s rfl), withRxFields_fields _ get fill⟩

/-! ### The checks of the commands -/

/-- R273: the four commands share the check of CFG on a ready block. -/
theorem whenReady_changed {s : State} (hready : s.ready = true) (h : s.cfg ≠ s.launch.initCfg) (k : State → Out) :
    whenReady s k = .refused .cfgChangedAfterInit := by
  rw [whenReady, if_pos hready, whenCfgKept_changed hready h]

/-- Settles O24: the checks of a ready block, of CFG and then of the index. -/
theorem changedCfgAndFiltsetIndexChecked : Obligations.ChangedCfgAndFiltsetIndexChecked := by
  unfold Obligations.ChangedCfgAndFiltsetIndexChecked
  refine fun s hready => ⟨fun hcfg => ⟨fun _ _ _ _ _ => whenReady_changed hready hcfg _,
    fun _ _ _ => whenReady_changed hready hcfg _, fun _ => whenReady_changed hready hcfg _,
    fun _ => whenReady_changed hready hcfg _⟩, fun hcfg idx ft fc a b hidx => ?_⟩
  change execFiltset idx ft fc a b s = _
  rw [execFiltset, whenReady_kept hready hcfg]
  exact storeFilter_of_le hidx _ _

/-- R191: a status word with a put index the queue does not have, and the full flag clear. -/
theorem sendFrom_of_slot_le {v : Word} {s : State} (hfree : v.getLsbD 21 = false)
    (hslot : s.params.nTxq ≤ (field v 16 2).toNat) (id : BitVec 11) (dlc : BitVec 4) (buf : Vector Byte 64) :
    sendFrom v id dlc buf s = .next (raise .slotOutOfRange s) := by
  have hfree : txFull v = false := hfree
  rw [sendFrom, hfree, if_neg Bool.false_ne_true]
  exact whenTxSlot_of_le hslot _

/-- Settles O27: the first check passes, the one read returns such a word, and the send ends there. -/
theorem txsendSlotChecked : Obligations.TxsendSlotChecked := by
  unfold Obligations.TxsendSlotChecked
  intro s id dlc buf hready hcfg hfree hslot
  change execTxsend id dlc buf s = _
  have hslot : (regRead .txstat s).2.params.nTxq ≤ (field (regRead .txstat s).1 16 2).toNat := by
    rw [regRead_params]
    exact hslot
  rw [execTxsend, whenReady_kept hready hcfg, sendFrom_of_slot_le (v := (regRead .txstat s).1) hfree hslot, regRead_snd]
  rfl

/-- R214: a status word with a get index the FIFO does not have, and a fill level that is not 0. -/
theorem receiveFrom_of_slot_le {v : Word} {f : Bool} {s : State} (hfill : field v 0 4 ≠ 0)
    (hslot : rxSlots s.params f ≤ (field v 8 2).toNat) :
    receiveFrom v f s = .next (raise .slotOutOfRange s) := by
  rw [receiveFrom, if_neg (show ¬ rxFillLevel v = 0 from hfill)]
  exact if_pos hslot

/-- Settles O32: the first check passes, the one read returns such a word, and the reception ends there. -/
theorem rxrecvSlotChecked : Obligations.RxrecvSlotChecked := by
  unfold Obligations.RxrecvSlotChecked
  intro s f hready hcfg hfill hslot
  change execRxrecv f s = _
  rw [execRxrecv, whenReady_kept hready hcfg, regRead_rxStatReg]
  exact receiveFrom_of_slot_le hfill hslot

/-! ### HW's moves -/

/-- Settles O50: each field of the block, of the ports and of the script is as it was. -/
theorem hardwareKeepsBlockState : Obligations.HardwareKeepsBlockState := by
  unfold Obligations.HardwareKeepsBlockState
  intro n s
  ext1 <;> simp

end Sys2Proof
end

section
/-! PROOFS. TXSEND on a free slot (R187 to R198) and RXRECV on a queued element (R211 to R224): the state each answers, and
that each is its words one after another. -/

namespace Sys2Proof

open Sys2Proof.Machine

/-! ### TXSEND on a free slot -/

/-- R195: after the stores of a send, HW's moves before the hand-off are those before the block's next access. -/
theorem regs_before_handOff {s v : State} {n : Nat} (hp : v.params = s.params)
    (hregs : v.regs = (afterMoves n (regRead .txstat s).2).regs) (hhw : v.hw = s.hw.drop (n + 1)) :
    (hwMoves v).regs = (afterMoves (n + 2) s).regs := by
  have hv : v.regs = (afterMoves (n + 1) s).regs :=
    hregs.trans (afterMoves_regs_congr n _ (hwMoves s) (by simp) rfl (by simp))
  have hnext : hwMoves (afterMoves (n + 1) s) = afterMoves (n + 2) s := (afterMoves_add (n + 1) 1 s).symm
  rw [← hnext]
  exact hwMoves_regs_congr _ _ (by simpa using hp) hv (by simpa using hhw)

theorem Machine.KeepsBlock.handOff {e t : State} (k : KeepsBlock e t) (slot : BitVec 2) :
    KeepsBlock { e with lastReq := 1#32 <<< slot.toNat } (handOff slot t) :=
  have k := k.trans (regWrite_keeps .txadd (1#32 <<< slot.toNat) t)
  ⟨k.params, k.inst, k.cfg, k.cfgWritten, k.map, rfl, k.seq, k.ready, k.status, k.res, k.script, k.launch⟩

/-- Settles O28: the read, the stores and the hand-off, put together. -/
theorem txsendResult : Obligations.TxsendResult := by
  unfold Obligations.TxsendResult
  intro s id dlc buf put ws hL hfree hput hslot hws
  have hp := paramsOk hL.mapped.1
  obtain ⟨v, hstore, hexec, hv, hwf, hbyte⟩ := txsend_stores s id dlc buf put ws hL hfree hput hslot hws
  have hvp : v.params = s.params := by rw [hv]; simp
  have hvi : v.inst = s.inst := by rw [hv]; simp
  have hvh : v.hw = s.hw.drop (ws.length + 1) := by rw [hv]; simp
  have hregs := regs_before_handOff hvp (show v.regs = _ by rw [hv]) hvh
  have hbus : v.bus = (memWrites (txSlotElement s put) ws).reverse
      ++ readOf s .txstat (hwMoves s).regs.txstat :: s.bus := by
    rw [hv, regRead_bus]
    rfl
  refine ⟨_, hexec, ?_, fun b hm hs hout => ?_⟩
  · have k := ((regRead_keeps .txstat s).trans (storeWords_confined ws hstore).2.1).handOff put |>.raise .ok
    refine (k.eq (l := s.hw.drop (ws.length + 2)) (by simp [handOff, hvh])).trans ?_
    have hregs' : (raise .ok (handOff put v)).regs = (afterMoves (ws.length + 2) s).regs.write .txadd
        (1#32 <<< put.toNat) := congrArg (Regs.write · .txadd _) hregs
    have hbus' : (raise .ok (handOff put v)).bus = writeOf s .txadd (1#32 <<< put.toNat) :: v.bus := by
      simp [handOff, writeOf, hvp, hvi]
    rw [hregs', hbus', hbus]
    rfl
  · have hspared := hwSpares_of_drop hvh hvp hvi hs
    change (hwMoves v).mem.byte b = _
    rw [hwMoves_byte v b (hvp ▸ hp) (hwf hm) hspared, hbyte b hm hs, if_neg hout]

/-- Settles O29: the words of the frame are those of its element. -/
theorem txsendElementInRam : Obligations.TxsendElementInRam := by
  unfold Obligations.TxsendElementInRam
  intro s t id dlc buf put ws hL hwf hfree hput hslot hws hexec
  subst hws
  exact words_of_txsend hL hwf hfree hput hslot hexec

/-! ### TXSEND is its words -/

theorem execAll_append (is js : List Instr) (s : State) :
    execAll (is ++ js) s = andThen (execAll is s) (execAll js) := by
  induction is generalizing s with
  | nil => rfl
  | cons i is ih =>
    simp only [List.cons_append, execAll]
    cases exec i s with
    | next u => exact ih u
    | fault r => rfl
    | refused r => rfl

/-- What comes after matters only where there is a next state. -/
theorem andThen_congr {o : Out} {k k' : State → Out} (h : ∀ u, o = .next u → k u = k' u) :
    andThen o k = andThen o k' := by
  cases o with
  | next u => exact h u rfl
  | fault r => rfl
  | refused r => rfl

/-- A store leaves the map alone. -/
theorem mapped_of_memWrite {a : Nat} {w : Word} {s u : State} (hM : Mapped s) (h : memWrite a w s = .next u) :
    Mapped u ∧ u.params = s.params ∧ ∀ slot, txSlotElement u slot = txSlotElement s slot := by
  have k := (memWrite_spec h).2.1
  refine ⟨?_, k.params, fun slot => by simp only [txSlotElement, k.params, k.inst]⟩
  rw [Mapped, k.params, k.inst, k.map]
  exact hM

/-- R194: the payload words of an element, one after another, are stores in its payload. -/
theorem execAll_payw_tx {slot : BitVec 2} (f : Nat → Byte × Byte × Byte × Byte) (n k : Nat) {s : State} (hM : Mapped s)
    (h : slot.toNat < s.params.nTxq) :
    execAll ((List.range' k n).map fun j => .payw (.tx slot j) (f j).1 (f j).2.1 (f j).2.2.1 (f j).2.2.2) s
      = storeWords (txSlotElement s slot + 8 + 4 * k)
          ((List.range' k n).map fun j => wordOfBytes (f j).1 (f j).2.1 (f j).2.2.1 (f j).2.2.2) s := by
  induction n generalizing k s with
  | zero => rfl
  | succ n ih =>
    simp only [List.range'_succ, List.map_cons, execAll, storeWords, execPayw_tx_eq hM h]
    refine andThen_congr fun u hu => ?_
    obtain ⟨hMu, hpu, hplace⟩ := mapped_of_memWrite hM hu
    rw [ih (k + 1) hMu (hpu ▸ h), hplace, show txSlotElement s slot + 8 + 4 * (k + 1) =
      txSlotElement s slot + 8 + 4 * k + 4 by omega]

/-- R97 to R99, R193, R194: the words of an element, one after another, are the stores of TXSEND. -/
theorem execAll_txWords {slot : BitVec 2} {s : State} (hM : Mapped s) (h : slot.toNat < s.params.nTxq) (id : BitVec 11)
    (dlc : BitVec 4) (buf : Vector Byte 64) :
    execAll (.txw0 slot id :: .txw1 slot dlc :: (List.range (ceil4 (dlcToLen s.params dlc))).map fun k =>
        .payw (.tx slot k) (paddedByte buf (dlcToLen s.params dlc) (4 * k))
          (paddedByte buf (dlcToLen s.params dlc) (4 * k + 1)) (paddedByte buf (dlcToLen s.params dlc) (4 * k + 2))
          (paddedByte buf (dlcToLen s.params dlc) (4 * k + 3))) s
      = storeWords (txSlotElement s slot) (txWords s.params id dlc buf) s := by
  simp only [execAll, txWords, storeWords, execTxw0_eq hM h]
  refine andThen_congr fun u hu => ?_
  obtain ⟨hMu, hpu, hplace⟩ := mapped_of_memWrite hM hu
  rw [execTxw1_eq hMu (hpu ▸ h), hplace]
  refine andThen_congr fun v hv => ?_
  obtain ⟨hMv, hpv, hplace'⟩ := mapped_of_memWrite hMu hv
  have hpay := execAll_payw_tx (slot := slot) (fun k => (paddedByte buf (dlcToLen s.params dlc) (4 * k),
    paddedByte buf (dlcToLen s.params dlc) (4 * k + 1), paddedByte buf (dlcToLen s.params dlc) (4 * k + 2),
    paddedByte buf (dlcToLen s.params dlc) (4 * k + 3))) (ceil4 (dlcToLen s.params dlc)) 0 hMv
    (by rw [hpv, hpu]; exact h)
  rw [hplace', hplace, ← List.range_eq_range'] at hpay
  exact hpay

/-- R76 (d): a move that presents the word already presented changes nothing, the record included. -/
theorem hwRegs_txStat_same (p : Params) (g : Regs) : hwRegs p (.txStat g.txstat) g = g := by
  have hsurface : hwSurface p (.txStat g.txstat) g = g := rfl
  rw [hwRegs, hsurface]
  simp [dutyAfter, putMoves, getMoves, answer, onlyWhenDue, sparesQueued]

/-- R42: putting the fields a word has changes nothing. -/
theorem withTxFields_self (v : Word) : withTxFields v (v.getLsbD 21) (field v 16 2) = v := by
  obtain ⟨hfull, hput, hother⟩ := withTxFields_fields v (v.getLsbD 21) (field v 16 2)
  apply BitVec.eq_of_getLsbD_eq
  intro i _
  by_cases h21 : i = 21
  · rw [h21, hfull]
  · by_cases h16 : 16 ≤ i ∧ i < 18
    · have hbit := congrArg (BitVec.getLsbD · (i - 16)) hput
      simpa only [getLsbD_field, show i - 16 < 2 by omega, show 16 + (i - 16) = i by omega, decide_true,
        Bool.true_and] using hbit
    · exact hother i h21 h16

/-- R188, R189: the word REG.TXSTAT of the fields presented is the read of TXSTAT. -/
theorem execRegTxstat_presented (s : State) :
    exec (.regTxstat ((hwMoves s).regs.txstat.getLsbD 21) (field (hwMoves s).regs.txstat 16 2)) s
      = .next (regRead .txstat s).2 := by
  have hx : HwAct.txStat (withTxFields (hwMoves s).regs.txstat ((hwMoves s).regs.txstat.getLsbD 21)
      (field (hwMoves s).regs.txstat 16 2)) = .txStat (hwMoves s).regs.txstat := by rw [withTxFields_self]
  refine congrArg _ ((statusRead_eq .txstat _ s hx).trans ?_)
  rw [hwRegs_txStat_same, regRead_snd]
  rfl

/-- Settles O47: the read is the word REG.TXSTAT, the stores are the words of the element, the hand-off is REG.TXADD. -/
theorem txsendIsItsWords : Obligations.TxsendIsItsWords := by
  unfold Obligations.TxsendIsItsWords
  intro s id dlc buf put len hL hfree hput hslot hlen
  subst hlen
  obtain ⟨v, hstore, hexec, -⟩ := txsend_stores s id dlc buf put _ hL hfree hput hslot rfl
  refine ⟨regWrite .txadd (1#32 <<< put.toNat) v, ?_, hexec⟩
  have hread : exec (.regTxstat false put) s = .next (regRead .txstat s).2 := by
    rw [← hfree, hput]
    exact execRegTxstat_presented s
  have hM : Mapped (regRead .txstat s).2 := by
    simpa [Mapped] using hL.mapped
  have hwords := execAll_txWords hM (by simpa using hslot) id dlc buf
  have hplace : txSlotElement (regRead .txstat s).2 put = txSlotElement s put := by simp [txSlotElement]
  rw [hplace, regRead_params] at hwords
  rw [List.cons_append, execAll, hread]
  change execAll (_ ++ _) (regRead .txstat s).2 = _
  rw [execAll_append, hwords.trans hstore]
  rfl

/-! ### RXRECV on a queued element -/

/-- Settles O33: the loads, the delivery and the acknowledge, put together. -/
theorem rxrecvResult : Obligations.RxrecvResult := by
  unfold Obligations.RxrecvResult
  intro s f get w0 w1 ws len hL hfill hget hslot hw0 hw1 hlen hws
  obtain ⟨z, hz, hexec⟩ := rxrecv_loads s f get w0 w1 ws len hL hfill hget hslot hw0 hw1 hlen hws
  generalize (len + 3) / 4 = n at hz ⊢
  rw [← afterMoves_add, Nat.add_comm 3 n] at hz
  have hnext : hwMoves (afterMoves (n + 3) s) = afterMoves (n + 4) s := (afterMoves_add (n + 3) 1 s).symm
  obtain ⟨q, hq⟩ : ∃ q : State, q = { z with res := takeFrame s.params w0 w1 ws s.res } := ⟨_, rfl⟩
  have hregs : (hwMoves q).regs = (afterMoves (n + 4) s).regs :=
    hnext ▸ hwMoves_regs_congr q _ (by rw [hq, hz]) (by rw [hq, hz]) (by rw [hq, hz])
  have hmem : (hwMoves q).mem = (afterMoves (n + 4) s).mem :=
    hnext ▸ hwMoves_mem_congr q _ (by rw [hq, hz]) (by rw [hq, hz]) (by rw [hq, hz]) (by rw [hq, hz]) (by rw [hq, hz])
  rw [hexec, ← hq, regWrite_eq, hregs, hmem, hq, hz]
  congr 1
  ext1 <;> simp [writeOf, takeFrame, takePayload, takeRxW1, takeRxW0, rxW0Id, rxW0Esi, rxW1Ts, rxW1Dlc, rxW1Fidx, hlen]

/-- R62: a byte of a word read is the byte of the RAM. -/
theorem unpackByte_word (m : Memory) (a : Nat) {j : Nat} (hj : j < 4) : unpackByte (m.word a) j = m.byte (a + j) := by
  obtain ⟨h0, h1, h2, h3⟩ := unpackByte_wordOfBytes (m.byte a) (m.byte (a + 1)) (m.byte (a + 2)) (m.byte (a + 3))
  match j, hj with
  | 0, _ => exact h0
  | 1, _ => exact h1
  | 2, _ => exact h2
  | 3, _ => exact h3

/-- R219: byte `j` of the payload loaded is the byte of the RAM when its word was read. -/
theorem unpackPayload_loadedWords_getD {len j : Nat} (hj : j < len) (a n : Nat) (s : State) :
    (unpackPayload (loadedWords a (ceil4 len) (afterMoves n s)) len).getD j 0
      = (afterMoves (n + 1 + j / 4) s).mem.byte (a + j) := by
  have hroom : len ≤ 4 * (loadedWords a (ceil4 len) (afterMoves n s)).length := by
    rw [loadedWords_length]
    exact le_four_mul_ceil4 len
  have hword : j / 4 < ceil4 len := by unfold ceil4; omega
  rw [unpackPayload_getD _ _ _ hroom hj, loadedWords_getD _ _ _ _ hword, unpackByte_word _ _ (Nat.mod_lt j (by decide)),
    ← afterMoves_add, Nat.add_assoc, Nat.div_add_mod, Nat.add_assoc, Nat.add_comm 1]

/-- Settles O34: below the length a byte of the buffer is the byte of its word, loaded in its turn. -/
theorem rxrecvFillsBuffer : Obligations.RxrecvFillsBuffer := by
  unfold Obligations.RxrecvFillsBuffer
  intro s t f get len j hj hL hfill hget hslot hlen hexec
  have hle : len ≤ 64 := hlen ▸ dlcToLen_le (paramsOk hL.mapped.1) _
  have hroom := le_four_mul_ceil4 len
  rw [← loadedWords_length (rxSlotElement s f get + 8) (ceil4 len) (afterMoves 3 s)] at hroom
  injection hexec.symm.trans (rxrecvResult s f get _ _ _ len hL hfill hget hslot rfl rfl hlen rfl) with ht
  have hbuf : t.res.rxBuf = fillBuf s.res.rxBuf
      (unpackPayload (loadedWords (rxSlotElement s f get + 8) (ceil4 len) (afterMoves 3 s)) len) := by
    rw [ht]
    rfl
  have hcount := unpackPayload_length _ _ hroom
  simp only [hbuf]
  rw [fillBuf_get _ _ (hcount.trans_le hle) j hj, hcount]
  split
  · rename_i hlt
    rw [unpackPayload_loadedWords_getD hlt]
  · rfl

/-! ### RXRECV is its words -/

/-- R220: filling with nothing changes nothing. -/
theorem fillBuf_nil (old : Vector Byte 64) : fillBuf old [] = old := by
  apply Vector.ext
  intro j hj
  rw [fillBuf_get old [] (by decide) j hj, if_neg (by simp)]

/-- R62: a byte of a word by its number. -/
theorem bytesOfWord_getD (w : Word) {j : Nat} (hj : j < 4) : (bytesOfWord w).getD j 0 = unpackByte w j := by
  match j, hj with
  | 0, _ | 1, _ | 2, _ | 3, _ => rfl

/-- R219, R102: one more payload word fills the buffer up to the next multiple of 4, or to the length. -/
theorem fillBufFrom_next_word (old : Vector Byte 64) {ws : List Word} {len n : Nat} (hlen : len ≤ 64)
    (hws : ws.length = ceil4 len) (hn : n < ceil4 len) :
    fillBufFrom (fillBuf old (unpackPayload ws (min len (4 * n)))) (4 * n)
        ((bytesOfWord (wordOfBytes (unpackByte (ws.getD n 0) 0) (unpackByte (ws.getD n 0) 1)
          (unpackByte (ws.getD n 0) 2) (unpackByte (ws.getD n 0) 3))).take (len - 4 * n))
      = fillBuf old (unpackPayload ws (min len (4 * (n + 1)))) := by
  have hroom := le_four_mul_ceil4 len
  have hlt : 4 * n < len := by unfold ceil4 at hn; omega
  have hcount : ∀ m, (unpackPayload ws (min len m)).length = min len m := fun m =>
    unpackPayload_length _ _ (by omega)
  apply Vector.ext
  intro j hj
  rw [fillBufFrom_word_getElem _ hlen hlt, ← bytesOfWord, fillBuf_get _ _ (by rw [hcount]; omega) j hj,
    fillBuf_get _ _ (by rw [hcount]; omega) j hj, hcount, hcount]
  by_cases hword : 4 * n ≤ j ∧ j < 4 * n + 4 ∧ j < len
  · rw [if_pos hword, if_pos (by omega), unpackPayload_getD _ _ _ (by omega) (by omega), bytesOfWord_getD _ (by omega),
      show j / 4 = n by omega, show j % 4 = j - 4 * n by omega]
  · rw [if_neg hword]
    by_cases hbelow : j < min len (4 * n)
    · rw [if_pos hbelow, if_pos (by omega), unpackPayload_getD _ _ _ (by omega) hbelow,
        unpackPayload_getD _ _ _ (by omega) (by omega)]
    · rw [if_neg hbelow, if_neg (by omega)]

section

variable (ws : List Word) (len : Nat)

/-- R102: the PAYW word of received payload word `k`. -/
def rxPayw (k : Nat) : Instr :=
  .payw (.rx k len) (unpackByte (ws.getD k 0) 0) (unpackByte (ws.getD k 0) 1) (unpackByte (ws.getD k 0) 2)
    (unpackByte (ws.getD k 0) 3)

variable {ws len}

/-- R219, R220: the first `n` payload words, one after another, fill the buffer with their bytes. -/
theorem execAll_rxPayw (hlen : len ≤ 64) (hws : ws.length = ceil4 len) {n : Nat} (hn : n ≤ ceil4 len) (s : State) :
    execAll ((List.range n).map (rxPayw ws len)) s = .next { s with
      res := { s.res with rxBuf := fillBuf s.res.rxBuf (unpackPayload ws (min len (4 * n))) } } := by
  induction n with
  | zero => simp [execAll, unpackPayload, fillBuf_nil]
  | succ n ih =>
    rw [List.range_succ, List.map_append, execAll_append, ih (by omega)]
    have hstep := fillBufFrom_next_word s.res.rxBuf hlen hws (show n < ceil4 len by omega)
    rw [← hstep]
    rfl

end

/-- Settles O48: the two header words and the payload words, one after another, make the ports of the frame. -/
theorem rxrecvIsItsWords : Obligations.RxrecvIsItsWords := by
  unfold Obligations.RxrecvIsItsWords
  intro s t u f get w0 w1 ws len hL hfill hget hslot hw0 hw1 hlen hws hexec hwords
  have hle : len ≤ 64 := hlen ▸ dlcToLen_le (paramsOk hL.mapped.1) _
  have hcount : ws.length = ceil4 len := by rw [hws, loadedWords_length]
  obtain ⟨z, -, hrun⟩ := rxrecv_loads s f get w0 w1 ws len hL hfill hget hslot hw0 hw1 hlen hws
  injection hexec.symm.trans hrun with ht
  have hpay := execAll_rxPayw hle hcount (le_refl _) { s with res := takeRxW1 s.params w1 (takeRxW0 w0 s.res) }
  rw [min_eq_left (le_four_mul_ceil4 len)] at hpay
  obtain ⟨hrxw0, -, -⟩ := rxWordsDecoded s
  obtain ⟨-, hrxw1, -⟩ := rxWordsDecoded { s with res := takeRxW0 w0 s.res }
  have h0 : exec (.rxw0 (w0.getLsbD 31) (field w0 18 11)) s = .next { s with res := takeRxW0 w0 s.res } :=
    hrxw0 _ _
  have h1 : exec (.rxw1 (field w1 24 7) (field w1 16 4) (field w1 0 16)) { s with res := takeRxW0 w0 s.res }
      = .next { s with res := takeRxW1 s.params w1 (takeRxW0 w0 s.res) } := hrxw1 _ _ _
  simp only [execAll, h0, h1, andThen] at hwords
  injection hpay.symm.trans hwords with hu
  rw [ht, raise_res, regWrite_res, ← hu, hlen]
  rfl

end Sys2Proof
end

section
/-! PROOFS. HW's moves (R74 to R79, R252): what freeing a slot and the loopback delivery do, what no move changes, and the
element at the get index, which HW keeping R76 leaves alone until it is acknowledged. -/

namespace Sys2Proof

open Sys2Proof.Machine

@[simp] theorem rxStat_setRxStat (g : Regs) (f : Bool) (w : Word) : (g.setRxStat f w).rxStat f = w := by
  cases f <;> rfl

/-! ### HW frees an acknowledged slot -/

/-- R78: the status word after an acknowledge of a FIFO of at most 4 slots that holds an element. -/
theorem statAfterAck_fields (v : Word) {idx n : Nat} (hn : 0 < n) (hn4 : n ≤ 4) (hfill : field v 0 4 ≠ 0) :
    (field (statAfterAck v idx n) 8 2).toNat = (idx + 1) % n
    ∧ (field (statAfterAck v idx n) 0 4).toNat + 1 = (field v 0 4).toNat
    ∧ ∀ i, ¬ (8 ≤ i ∧ i < 10) → ¬ i < 4 → (statAfterAck v idx n).getLsbD i = v.getLsbD i := by
  have hidx : (idx + 1) % n < n := Nat.mod_lt _ hn
  have hlevel := (field v 0 4).isLt
  have hpos : 0 < (field v 0 4).toNat := Nat.pos_of_ne_zero fun h => hfill (BitVec.eq_of_toNat_eq h)
  have hget : (BitVec.ofNat 32 ((idx + 1) % n % 4)).toNat < 2 ^ 2 := by
    rw [BitVec.toNat_ofNat]; omega
  have hless : (BitVec.ofNat 32 ((field v 0 4).toNat - 1)).toNat < 2 ^ 4 := by
    rw [BitVec.toNat_ofNat]; omega
  have heq : statAfterAck v idx n = putField (putField v 8 2 (BitVec.ofNat 32 ((idx + 1) % n % 4))) 0 4
      (BitVec.ofNat 32 ((field v 0 4).toNat - 1)) := rfl
  rw [heq]
  refine ⟨?_, ?_, fun i hi8 hi4 => ?_⟩
  · rw [field_putField_other _ _ 0 4 8 2 (by decide) hless (by decide), field_putField_same _ _ 8 2 (by decide) hget,
      BitVec.toNat_setWidth, BitVec.toNat_ofNat]
    omega
  · rw [field_putField_same _ _ 0 4 (by decide) hless, BitVec.toNat_setWidth, BitVec.toNat_ofNat]
    omega
  · rw [getLsbD_putField _ _ _ _ i (by decide) hless, if_neg (by omega),
      getLsbD_putField _ _ _ _ i (by decide) hget, if_neg (by omega)]

/-- Settles O52: the move puts the status word after the acknowledge. -/
theorem acknowledgeAdvancesFifo : Obligations.AcknowledgeAdvancesFifo := by
  unfold Obligations.AcknowledgeAdvancesFifo
  intro s f _ hslots hslots4 hfill _
  have hhas : ¬ (rxSlots s.params f = 0 ∨ field (s.regs.rxStat f) 0 4 = 0) := fun h =>
    h.elim (Nat.ne_of_gt hslots) hfill
  have hsurface : hwSurface s.params (.takeAck f) s.regs
      = s.regs.setRxStat f (statAfterAck (s.regs.rxStat f) (s.regs.rxAck f).toNat (rxSlots s.params f)) :=
    if_neg hhas
  refine ⟨statAfterAck (s.regs.rxStat f) (s.regs.rxAck f).toNat (rxSlots s.params f),
    (hwAct s (.takeAck f)).regs.duty, ?_, statAfterAck_fields _ hslots hslots4 hfill⟩
  rw [hwAct, hwRegs, hsurface]
  rfl

/-! ### The loopback delivery -/

theorem loopbackWords_length (p : Params) (m : Memory) (e : Nat) (k : BitVec 7) (ts : BitVec 16) (esi : Bool) :
    (loopbackWords p m e k ts esi).length = ceil4 (dlcToLen p (field (m.word (e + 4)) 16 4)) + 2 := by
  simp only [loopbackWords, List.length_cons, Memory.words_length]

/-- The record of what R76 lets HW do is no part of a status word. -/
theorem rxStat_hwRegs (p : Params) (x : HwAct) (g : Regs) (f : Bool) :
    (hwRegs p x g).rxStat f = (hwSurface p x g).rxStat f := by
  cases f <;> rfl

/-- Settles O53: the words delivered, word by word, and the surface after the delivery. -/
theorem loopbackDelivers : Obligations.LoopbackDelivers := by
  unfold Obligations.LoopbackDelivers
  intro s slot f k ts esi e d hp hwf hlbck hreq hslot hfree hmax he hd
  have hready : loopbackReady s.params s.regs slot f = true := by
    simp only [loopbackReady, allHold_cons, allHold_nil, hlbck, hreq, hslot, hfree, hmax, decide_true, Bool.and_true]
  have hmem : (hwAct s (.loopback slot f k ts esi)).mem
      = s.mem.setWords d (loopbackWords s.params s.mem e k ts esi) := by
    subst he hd
    exact if_pos hready
  have hregs : hwSurface s.params (.loopback slot f k ts esi) s.regs
      = ({ s.regs with txadd := s.regs.txadd &&& ~~~(1#32 <<< slot.toNat) } : Regs).setRxStat f
          (putField (s.regs.rxStat f) 0 4 (BitVec.ofNat 32 ((field (s.regs.rxStat f) 0 4).toNat + 1))) :=
    if_pos hready
  have hword : ∀ j, j < ceil4 (dlcToLen s.params (field (s.mem.word (e + 4)) 16 4)) + 2 →
      (s.mem.setWords d (loopbackWords s.params s.mem e k ts esi)).word (d + 4 * j)
        = (loopbackWords s.params s.mem e k ts esi).getD j 0 := fun j hj =>
    Memory.word_setWords _ _ _ _ hwf (by rw [loopbackWords_length]; exact hj)
  have hword0 : (s.mem.setWords d (loopbackWords s.params s.mem e k ts esi)).word d
      = encRxW0 esi (field (s.mem.word e) 18 11) := hword 0 (by omega)
  have hword1 : (s.mem.setWords d (loopbackWords s.params s.mem e k ts esi)).word (d + 4)
      = encRxW1 k (field (s.mem.word (e + 4)) 16 4) ts := hword 1 (by omega)
  obtain ⟨hid, hesi⟩ := rxW0_encRxW0 esi (field (s.mem.word e) 18 11)
  obtain ⟨hfidx, hdlc, hts⟩ := rxW1_encRxW1 k (field (s.mem.word (e + 4)) 16 4) ts
  refine ⟨_, rfl, ?_, ?_, ?_, ?_, ?_, fun j hj => ?_, ?_, ?_⟩
  · rw [hmem, hword0]; exact hesi
  · rw [hmem, hword0]; exact hid
  · rw [hmem, hword1]; exact hdlc
  · rw [hmem, hword1]; exact hfidx
  · rw [hmem, hword1]; exact hts
  · rw [hmem, show d + 8 + 4 * j = d + 4 * (j + 2) by omega, hword (j + 2) (by omega)]
    exact Memory.words_getD _ _ _ _ hj
  · have hlevel : (BitVec.ofNat 32 ((field (s.regs.rxStat f) 0 4).toNat + 1)).toNat < 2 ^ 4 := by
      rw [BitVec.toNat_ofNat]; omega
    rw [hwAct_regs, rxStat_hwRegs, hregs, rxStat_setRxStat, field_putField_same _ _ 0 4 (by decide) hlevel,
      BitVec.toNat_setWidth, BitVec.toNat_ofNat]
    omega
  · rw [hwAct_regs, hwRegs, hregs]
    cases f <;> rfl

/-! ### What no move of HW changes -/

/-- R76 (e), R81: while the block requests initialization mode, CCE is its own. -/
theorem afterMoves_mode_cce (n : Nat) (s : State) (h : s.regs.mode.getLsbD 0 = true) :
    (afterMoves n s).regs.mode.getLsbD 1 = s.regs.mode.getLsbD 1 := by
  have hkeep := afterMoves_regs_keep (fun _ g => if g.mode.getLsbD 0 then g.mode.getLsbD 1 else false)
    (fun p x g => by
      have hinit : (hwRegs p x g).mode.getLsbD 0 = g.mode.getLsbD 0 :=
        hwRegs_mode p x g 0 (by simp only [hwBits]; split <;> decide)
      simp only [hinit]
      split
      · rename_i hset
        exact hwRegs_mode p x g 1 (by simp only [hwBits, if_pos hset]; decide)
      · rfl) n s
  simpa only [afterMoves_mode_init, h, if_true] using hkeep

/-! ### The element at the get index -/

/-- R140: two regions of an instance share no byte. -/
theorem region_disjoint {p : Params} {i j k b : Nat} (hjk : j ≠ k) (hlo : layoutAt p i j ≤ b)
    (hhi : b < layoutAt p i j + regionSize p j) : ¬ (layoutAt p i k ≤ b ∧ b < layoutAt p i k + regionSize p k) := by
  rcases Nat.lt_or_gt_of_ne hjk with h | h
  · have := region_end_le_layoutAt p i h
    omega
  · have := region_end_le_layoutAt p i h
    omega

/-- R133: two slots of a region share no byte. -/
theorem slot_disjoint {j k es : Nat} (h : j ≠ k) : j * es + es ≤ k * es ∨ k * es + es ≤ j * es :=
  (Nat.lt_or_gt_of_ne h).imp slot_end_le slot_end_le

theorem rxRegion_ne {f f' : Bool} (h : f' ≠ f) : rxRegion f ≠ rxRegion f' := by
  cases f <;> cases f' <;> simp [rxRegion] at h ⊢

theorem rxElemSize_ge {p : Params} (hp : ParamsOk p) (f : Bool) : 72 ≤ rxElemSize p f := by
  cases f
  · exact hp.esRf0
  · exact hp.esRf1

section

variable {p : Params} {i b slot : Nat} {f : Bool} (hp : ParamsOk p) (hslot : slot < rxSlots p f)
  (hlo : layoutAt p i (rxRegion f) + slot * rxElemSize p f ≤ b)
  (hhi : b < layoutAt p i (rxRegion f) + slot * rxElemSize p f + rxElemSize p f)

include hp hslot hlo hhi

/-- A move leaves an element of RX FIFO `f` alone that it does not deliver to. -/
theorem hwMem_byte_rxElement {x : HwAct} {g : Regs} {m : Memory} (hm : m.wf = true)
    (hdeliver : ∀ k j w, x = .deliver f k j w → k ≠ slot)
    (hloop : ∀ q k ts esi, x = .loopback q f k ts esi → loopbackReady p g q f = true → nextFreeSlot p g f ≠ slot) :
    (hwMem p i x g m).byte b = m.byte b := by
  have hend := slot_end_le (es := rxElemSize p f) hslot
  have hsize := regionSize_rx p f
  have hregion : ∀ k, rxRegion f ≠ k → ¬ (layoutAt p i k ≤ b ∧ b < layoutAt p i k + regionSize p k) :=
    fun k hk => region_disjoint hk (by omega) (by omega)
  cases x with
  | deliver f' k j w =>
    by_cases hf : f' = f
    · subst hf
      have hapart := slot_disjoint (es := rxElemSize p f') (hdeliver k j w rfl)
      simp only [hwMem]
      split
      · rw [Memory.byte_setWord _ _ _ _ hm, if_neg (by omega)]
      · rfl
    · exact hwMem_byte hp _ _ _ _ _ hm (by simpa [HwAct.mayWrite] using hregion _ (rxRegion_ne hf))
  | loopback q f' k ts esi =>
    by_cases hf : f' = f
    · subst hf
      simp only [hwMem]
      split
      · rename_i hready
        have hapart := slot_disjoint (es := rxElemSize p f') (hloop q k ts esi rfl hready)
        have hroom := rxElemSize_ge hp f'
        have hfew := ceil4_le (dlcToLen_le hp (field (m.word (layoutAt p i 5 + q.toNat * p.esTxq + 4)) 16 4))
        exact Memory.byte_setWords_outside _ _ _ _ hm (by rw [loopbackWords_length]; omega)
      · rfl
    · exact hwMem_byte hp _ _ _ _ _ hm (by simpa [HwAct.mayWrite] using hregion _ (rxRegion_ne hf))
  | teFifo j w =>
    exact hwMem_byte hp _ _ _ _ _ hm (by simpa [HwAct.mayWrite] using hregion 4 (by cases f <;> decide))
  | other a w =>
    have hbase := ibase_le_layoutAt p i (rxRegion f)
    have hpart := rxRegion_end_le p i f
    refine hwMem_byte hp _ _ _ _ _ hm ?_
    simp only [HwAct.mayWrite, Bool.and_eq_false_iff, Bool.or_eq_false_iff, decide_eq_false_iff_not]
    omega
  | txStat | rxStat | modeAck | ownBits | clearReq | takeAck => rfl

end

/-- R76 (b): the element at the get index of a FIFO that holds one is queued. -/
theorem queuedSlot_getIndex {p : Params} {g : Regs} {f : Bool} (hget : (g.getIndex f).toNat < rxSlots p f)
    (hfill : 0 < (field (g.rxStat f) 0 4).toNat) : queuedSlot p g f (g.getIndex f).toNat = true :=
  List.any_eq_true.mpr ⟨0, List.mem_range.mpr hfill, by simp [Nat.mod_eq_of_lt hget]⟩

/-- R252: the slot a loopback delivery fills is not the one at the get index of a FIFO that holds an element. -/
theorem nextFreeSlot_ne_getIndex {p : Params} {g : Regs} {q : BitVec 2} {f : Bool}
    (hget : (g.getIndex f).toNat < rxSlots p f) (hfill : 0 < (field (g.rxStat f) 0 4).toNat)
    (hready : loopbackReady p g q f = true) : nextFreeSlot p g f ≠ (g.getIndex f).toNat := by
  obtain ⟨-, -, -, hroom, -⟩ := by simpa [loopbackReady] using hready
  intro h
  have hmod : ((g.getIndex f).toNat + (field (g.rxStat f) 0 4).toNat) % rxSlots p f = (g.getIndex f).toNat := h
  rcases Nat.lt_or_ge ((g.getIndex f).toNat + (field (g.rxStat f) 0 4).toNat) (rxSlots p f) with hlt | hge
  · rw [Nat.mod_eq_of_lt hlt] at hmod
    omega
  · rw [Nat.mod_eq_sub_mod hge, Nat.mod_eq_of_lt (by omega)] at hmod
    omega

/-- What HW keeping R76 leaves of the element of FIFO `f` at the get index `get`, as long as no acknowledge is due: the
state `t` reached from a memory with byte `v` at `b`. -/
structure ElementKept (p : Params) (i : Nat) (f : Bool) (get : BitVec 2) (b : Nat) (v : Byte) (t : State) : Prop where
  params : t.params = p
  inst : t.inst = i
  wf : t.mem.wf = true
  kept : t.regs.duty.kept = true → t.regs.duty.getDue f = 0 ∧ t.regs.getIndex f = get
    ∧ 0 < (field (t.regs.rxStat f) 0 4).toNat ∧ t.mem.byte b = v

/-- One move of HW keeps the element at the get index. -/
theorem ElementKept.hwAct {p : Params} {i b : Nat} {f : Bool} {get : BitVec 2} {v : Byte} {t : State}
    (h : ElementKept p i f get b v t) (x : HwAct) (hp : ParamsOk p) (hget : get.toNat < rxSlots p f)
    (hlo : layoutAt p i (rxRegion f) + get.toNat * rxElemSize p f ≤ b)
    (hhi : b < layoutAt p i (rxRegion f) + get.toNat * rxElemSize p f + rxElemSize p f) :
    ElementKept p i f get b v (hwAct t x) := by
  obtain ⟨rfl, rfl, hwf, hkept⟩ := h
  refine ⟨rfl, rfl, hwMem_wf _ _ _ _ _ hwf, fun hk => ?_⟩
  obtain ⟨hk', hspares, -, hdue, -, hanswer⟩ := hwAct_duty t x hk
  obtain ⟨hnone, rfl, hfill, hbyte⟩ := hkept hk'
  have hstays : getMoves t.regs (Machine.hwAct t x).regs f = false := by
    cases hmoves : getMoves t.regs (Machine.hwAct t x).regs f
    · rfl
    · have := hdue f hmoves
      omega
  have hsame := hstays
  simp only [getMoves, Bool.or_eq_false_iff, bne_eq_false_iff_eq, decide_eq_false_iff_not, Nat.not_lt] at hsame
  obtain ⟨hindex, hlevel⟩ := hsame
  refine ⟨by rw [hanswer, hstays]; exact hnone, hindex.symm, Nat.lt_of_lt_of_le hfill hlevel, ?_⟩
  rw [← hbyte]
  refine hwMem_byte_rxElement hp hget hlo hhi hwf ?_ ?_
  · rintro k j w rfl rfl
    simp [sparesQueued, queuedSlot_getIndex hget hfill] at hspares
  · rintro q k ts esi rfl hready
    exact nextFreeSlot_ne_getIndex hget hfill hready

/-- R76 (d): a move of HW that keeps R76 answers a request for the put index, if it moves that, and an acknowledge for each
FIFO that it moves on. -/
theorem hwAct_answers (s : State) (x : HwAct) (hk : (hwAct s x).regs.duty.kept = true) :
    s.regs.duty.kept = true
    ∧ ((hwAct s x).regs.putIndex ≠ s.regs.putIndex → (hwAct s x).regs.duty.putDue + 1 = s.regs.duty.putDue)
    ∧ ∀ f : Bool, ((hwAct s x).regs.getIndex f ≠ s.regs.getIndex f
        ∨ (field ((hwAct s x).regs.rxStat f) 0 4).toNat < (field (s.regs.rxStat f) 0 4).toNat) →
      (hwAct s x).regs.duty.getDue f + 1 = s.regs.duty.getDue f := by
  obtain ⟨hkept, -, hputDue, hgetDue, hput, hget⟩ := hwAct_duty s x hk
  refine ⟨hkept, fun h => ?_, fun f h => ?_⟩
  · have hmoves : putMoves s.regs (hwAct s x).regs = true := bne_iff_ne.mpr h.symm
    rw [hput, hmoves]
    exact Nat.sub_add_cancel (hputDue hmoves)
  · have hmoves : getMoves s.regs (hwAct s x).regs f = true := by
      rw [getMoves, Bool.or_eq_true, bne_iff_ne, decide_eq_true_eq]
      exact h.imp_left Ne.symm
    rw [hget, hmoves]
    exact Nat.sub_add_cancel (hgetDue f hmoves)

/-- Settles O51: the frame of HW's moves on the RAM and on each register, and the element kept by every move. -/
theorem hardwareSparesBlockRegions : Obligations.HardwareSparesBlockRegions := by
  unfold Obligations.HardwareSparesBlockRegions
  intro s hp
  have ok := paramsOk hp
  refine ⟨hwSpares_block s hp, fun b n hwf hspares => afterMoves_byte n s b ok hwf hspares, fun n => ?_, ?_, ?_⟩
  · exact ⟨afterMoves_mode_init n s, afterMoves_mode_cce n s, afterMoves_test_lbck n s, afterMoves_txcfg_tfqm n s,
      afterMoves_ntim n s, afterMoves_dtim n s, afterMoves_rxack0 n s, afterMoves_rxack1 n s,
      fun i hlo hhi => afterMoves_gfilt n s i ok.gf ⟨hlo, hhi⟩⟩
  · rintro x t rfl hk
    exact hwAct_answers s x hk
  · rintro n f get b _ hwf rfl hget hfill hnone hk hlo hhi
    have hstart : ElementKept s.params s.inst f (field (s.regs.rxStat f) 8 2) b (s.mem.byte b) s :=
      ⟨rfl, rfl, hwf, fun _ => ⟨hnone, rfl, Nat.pos_of_ne_zero fun h => hfill (BitVec.eq_of_toNat_eq h), rfl⟩⟩
    have hend := afterMoves_induct (ElementKept s.params s.inst f (field (s.regs.rxStat f) 8 2) b (s.mem.byte b))
      (fun _ _ h => ⟨h.params, h.inst, h.wf, h.kept⟩) (fun _ x h => h.hwAct x ok hget hlo hhi) n s hstart
    obtain ⟨-, hindex, -, hbyte⟩ := hend.kept hk
    exact ⟨hindex, hbyte⟩

end Sys2Proof
end
